-- ==== Sys2Proof/Word.lean ====
section
/-! DEFINITION. The bit vectors of the block: the 32-bit register and command word (rules R7, R39, R100), the byte of the
two FIFOs (rule R34), and the field widths of rule R6. -/

namespace Sys2Proof

/-- A host-visible register, and a command word: 32 bits (rules R39, R100). -/
abbrev Word := BitVec 32

/-- One byte of a stream (rule R79). -/
abbrev Byte := BitVec 8

/-- A stored symbol field, `SYM_BITS = 9` (rule R6). -/
abbrev SymField := BitVec 9

/-- A node index, `IDX_BITS = 10` (rule R6). -/
abbrev NodeIdx := BitVec 10

/-- A node weight, 41 bits (rule R24). -/
abbrev Weight := BitVec 41

/-- A bit counter, 64 bits (rule R6). -/
abbrev Counter := BitVec 64

end Sys2Proof
end

