-- ==== Sys2Proof/Syntax.lean ====
section
/-! DEFINITION. The commands of `HUFv1`: one constructor for each row of rule R104. -/

namespace Sys2Proof

/-- The 14 commands (rule R104).  A symbol operand, a node index and a code word index are numbers here; `WellFormed` gives the
range their field can hold (rules R102, R103). -/
inductive Instr where
  | nop
  | freqClear
  | freqInc (s : Nat)
  | freqWrite (s : Nat)
  | freqRead (s : Nat)
  | treeBuild
  | nodeRead (i : Nat)
  | codeBuild
  | codeRead (s : Nat) (w : Nat)
  | encStart
  | encSym (s : Nat)
  | encEof
  | decStart
  | decSym
deriving DecidableEq, Repr

end Sys2Proof
end

