-- ==== Sys2Proof/WellFormed.lean ====
section
/-! DEFINITION. Which commands have a command word: the operand fits its field (rules R102, R103).  A well-formed operand can
still be out of the command's legal range; that is `BAD_SYMBOL` or `BAD_INDEX`, raised by the command (rule R102). -/

namespace Sys2Proof

/-- `OPND` is a 10-bit field (rules R101, R102). -/
abbrev FitsOpnd (n : Nat) : Prop := n < 1024

/-- `W` is `AUX[2:0]`, a word index `0..7` (rule R103). -/
abbrev FitsWordIndex (w : Nat) : Prop := w < 8

/-- The command can be written as a word of rule R104. -/
def Instr.wellFormed : Instr → Bool
  | .nop => true
  | .freqClear => true
  | .freqInc s => decide (FitsOpnd s)
  | .freqWrite s => decide (FitsOpnd s)
  | .freqRead s => decide (FitsOpnd s)
  | .treeBuild => true
  | .nodeRead i => decide (FitsOpnd i)
  | .codeBuild => true
  | .codeRead s w => decide (FitsOpnd s) && decide (FitsWordIndex w)
  | .encStart => true
  | .encSym s => decide (FitsOpnd s)
  | .encEof => true
  | .decStart => true
  | .decSym => true

/-- `Instr.wellFormed` as a proposition. -/
abbrev Instr.WellFormed (i : Instr) : Prop := i.wellFormed = true

end Sys2Proof
end

