-- ==== Sys2Proof/Decode.lean ====
section
/-! DEFINITION. The command word (rules R100 to R108): its fields, the decoder from a word to a command or a named rejection, the
encoder, and the table of rule R104 as masks and patterns. -/

namespace Sys2Proof

/-- Why a word is illegal: the cases rule R105 lists.  Every one of them raises `ILLEGAL_CMD`. -/
inductive Illegal where
  /-- `OP` is not in the table of rule R104. -/
  | unassignedOp
  /-- A bit of `RSV` is set. -/
  | reservedSet
  /-- `AUX` is not 0 (for `CODE_READ`: `AUX[7:3]` is not 0). -/
  | auxSet
  /-- `OPND` is not 0 on a command without an operand. -/
  | operandSet
deriving DecidableEq, Repr

/-- `OP`, bits `[7:0]` (rule R101). -/
def opField (w : Word) : BitVec 8 := w.extractLsb' 0 8

/-- `OPND`, bits `[17:8]` (rule R101). -/
def opndField (w : Word) : BitVec 10 := w.extractLsb' 8 10

/-- `RSV`, bits `[23:18]` (rule R101). -/
def rsvField (w : Word) : BitVec 6 := w.extractLsb' 18 6

/-- `AUX`, bits `[31:24]` (rule R101). -/
def auxField (w : Word) : BitVec 8 := w.extractLsb' 24 8

/-- A command without an operand: the word is its opcode and nothing else (rules R102, R105). -/
def decodePlain (w : Word) (i : Instr) : Except Illegal Instr :=
  if rsvField w ≠ 0 then .error .reservedSet
  else if auxField w ≠ 0 then .error .auxSet
  else if opndField w ≠ 0 then .error .operandSet
  else .ok i

/-- A command with a symbol or node-index operand: `OPND` unsigned, never extended or scaled (rules R102, R105). -/
def decodeOperand (w : Word) (mk : Nat → Instr) : Except Illegal Instr :=
  if rsvField w ≠ 0 then .error .reservedSet
  else if auxField w ≠ 0 then .error .auxSet
  else .ok (mk (opndField w).toNat)

/-- `CODE_READ`: `OPND` is the symbol, `AUX[2:0]` the word index, `AUX[7:3]` must be 0 (rules R103, R105). -/
def decodeCodeRead (w : Word) : Except Illegal Instr :=
  if rsvField w ≠ 0 then .error .reservedSet
  else if (auxField w).extractLsb' 3 5 ≠ 0 then .error .auxSet
  else .ok (.codeRead (opndField w).toNat ((auxField w).extractLsb' 0 3).toNat)

/-- The decoder, total on every word (rules R104, R105, R106): a reserved opcode is rejected, never a no-op. -/
def decode (w : Word) : Except Illegal Instr :=
  match (opField w).toNat with
  | 0x00 => decodePlain w .nop
  | 0x01 => decodePlain w .freqClear
  | 0x02 => decodeOperand w .freqInc
  | 0x03 => decodeOperand w .freqWrite
  | 0x04 => decodeOperand w .freqRead
  | 0x08 => decodePlain w .treeBuild
  | 0x09 => decodeOperand w .nodeRead
  | 0x0C => decodePlain w .codeBuild
  | 0x0D => decodeCodeRead w
  | 0x10 => decodePlain w .encStart
  | 0x11 => decodeOperand w .encSym
  | 0x12 => decodePlain w .encEof
  | 0x18 => decodePlain w .decStart
  | 0x19 => decodePlain w .decSym
  | _ => .error .unassignedOp

/-- The word `{AUX, 000000, OPND, OP}` of rule R101. -/
def assemble (aux : BitVec 8) (opnd : BitVec 10) (op : BitVec 8) : Word := aux ++ 0#6 ++ opnd ++ op

/-- The opcode of each command (rule R104). -/
def Instr.opcode : Instr → BitVec 8
  | .nop => 0x00
  | .freqClear => 0x01
  | .freqInc _ => 0x02
  | .freqWrite _ => 0x03
  | .freqRead _ => 0x04
  | .treeBuild => 0x08
  | .nodeRead _ => 0x09
  | .codeBuild => 0x0C
  | .codeRead _ _ => 0x0D
  | .encStart => 0x10
  | .encSym _ => 0x11
  | .encEof => 0x12
  | .decStart => 0x18
  | .decSym => 0x19

/-- The value of `OPND` in each command's word: its operand, or 0 (rule R102). -/
def Instr.opnd : Instr → BitVec 10
  | .nop => 0
  | .freqClear => 0
  | .freqInc s => BitVec.ofNat 10 s
  | .freqWrite s => BitVec.ofNat 10 s
  | .freqRead s => BitVec.ofNat 10 s
  | .treeBuild => 0
  | .nodeRead i => BitVec.ofNat 10 i
  | .codeBuild => 0
  | .codeRead s _ => BitVec.ofNat 10 s
  | .encStart => 0
  | .encSym s => BitVec.ofNat 10 s
  | .encEof => 0
  | .decStart => 0
  | .decSym => 0

/-- The value of `AUX` in each command's word: only `CODE_READ` uses it (rules R101, R103). -/
def Instr.aux : Instr → BitVec 8
  | .codeRead _ w => 0#5 ++ BitVec.ofNat 3 w
  | .nop => 0
  | .freqClear => 0
  | .freqInc _ => 0
  | .freqWrite _ => 0
  | .freqRead _ => 0
  | .treeBuild => 0
  | .nodeRead _ => 0
  | .codeBuild => 0
  | .encStart => 0
  | .encSym _ => 0
  | .encEof => 0
  | .decStart => 0
  | .decSym => 0

/-- The encoder: the word a command expression denotes (rule R111). -/
def encode (i : Instr) : Word := assemble i.aux i.opnd i.opcode

/-- The "match" column of rule R104, one entry a row. -/
def Instr.rowMatch (i : Instr) : Word := i.opcode.setWidth 32

/-- The "mask" column of rule R104. -/
def Instr.rowMask : Instr → Word
  | .nop => 0xFFFFFFFF
  | .freqClear => 0xFFFFFFFF
  | .freqInc _ => 0xFFFC00FF
  | .freqWrite _ => 0xFFFC00FF
  | .freqRead _ => 0xFFFC00FF
  | .treeBuild => 0xFFFFFFFF
  | .nodeRead _ => 0xFFFC00FF
  | .codeBuild => 0xFFFFFFFF
  | .codeRead _ _ => 0xF8FC00FF
  | .encStart => 0xFFFFFFFF
  | .encSym _ => 0xFFFC00FF
  | .encEof => 0xFFFFFFFF
  | .decStart => 0xFFFFFFFF
  | .decSym => 0xFFFFFFFF

/-- The table of rule R104 as pairs (mask, match), in its order. -/
def opcodeRows : List (Word × Word) :=
  [(0xFFFFFFFF, 0x00000000), (0xFFFFFFFF, 0x00000001), (0xFFFC00FF, 0x00000002), (0xFFFC00FF, 0x00000003),
   (0xFFFC00FF, 0x00000004), (0xFFFFFFFF, 0x00000008), (0xFFFC00FF, 0x00000009), (0xFFFFFFFF, 0x0000000C),
   (0xF8FC00FF, 0x0000000D), (0xFFFFFFFF, 0x00000010), (0xFFFC00FF, 0x00000011), (0xFFFFFFFF, 0x00000012),
   (0xFFFFFFFF, 0x00000018), (0xFFFFFFFF, 0x00000019)]

/-- The rows a word matches: `(w & mask) = match` (rule R104). -/
def rowsMatched (w : Word) : List (Word × Word) := opcodeRows.filter (fun r => w &&& r.1 == r.2)

/-- The command a table word of `nbits` bits stands for: every bit above `nbits` is 0, and a command is one 32-bit word written
whole (rule R100), so there are no bytes to lay out. -/
def decodeTableWord (nbits w : Nat) : Option Instr :=
  match decode (BitVec.ofNat 32 (w % 2 ^ nbits)) with
  | .ok i => some i
  | .error _ => none

end Sys2Proof
end

