-- ==== Sys2Proof/Config.lean ====
section
/-! DEFINITION. What is fixed for the machine: the constants of rule R6, the parameters the spec leaves OPEN, and what it
leaves free: the "any value" of some reads and which agent steps next (rules R10, R13, R75). -/

namespace Sys2Proof

/-- The parameters rule R6 marks OPEN.  They are plain numbers carried in `State` (log 1), so that a claim ranges over all of
them or names one (decision D18). -/
structure Params where
  /-- `COUNT_BITS`, `1..32`. -/
  countBits : Nat
  /-- `OUT_FIFO_DEPTH`, `1..65535`. -/
  outDepth  : Nat
  /-- `IN_FIFO_DEPTH`, `1..65535`. -/
  inDepth   : Nat
  /-- `BASE`, a multiple of 256. -/
  base      : Nat
deriving DecidableEq, Repr

namespace Params

/-- The ranges of rule R6. -/
abbrev Wf (p : Params) : Prop :=
  (1 ≤ p.countBits ∧ p.countBits ≤ 32) ∧ (1 ≤ p.outDepth ∧ p.outDepth ≤ 65535) ∧
    (1 ≤ p.inDepth ∧ p.inDepth ≤ 65535) ∧ p.base % 256 = 0

/-- The defaults rule R6 suggests.  `BASE` has no default there: DESIGN CHOICE 0 (log 1, unsafe). -/
def default : Params := { countBits := 32, outDepth := 16, inDepth := 16, base := 0 }

end Params

/-- Who takes a step (rule R10). -/
inductive Agent where
  | host
  | engine
  | reset
deriving DecidableEq, Repr

namespace Config

/-- Number of real symbols (rule R6). -/
def nReal : Nat := 256

/-- `EOF_SYMBOL` (rules R6, R20). -/
def eofSymbol : Nat := 256

/-- `INTERNAL`, as the 9-bit field of a node holds it (rules R6, R24). -/
def internal : SymField := 257

/-- `NIL`, the "no child" index (rules R6, R23). -/
def nil : NodeIdx := 0x3FF

/-- `MAX_NODES`, the size of the node store (rules R6, R23). -/
def maxNodes : Nat := 513

/-- `MAX_CODE_LEN`, the longest code the code table holds (rules R6, R29, R30). -/
def maxCodeLen : Nat := 256

/-- `ID` (rule R40). -/
def idValue : Word := 0x48554631

/-- The free values of the model: the k-th value drawn, of which nothing is known (rules R13, R75; logs 8 and 9).  The machine
applies it to the counter `State.draws`. -/
opaque freeWord : Nat → Word

/-- The free order of the agents (rule R10): the k-th draw is which agents have a turn, in order, before the engine's next turn, and
nothing is known of it.  Each draw is a finite list, so the engine has a turn again and again: weakly fair (rule R12), and no more than
that (log 3).  The machine applies it to the counter `State.draws`. -/
opaque freeTurns : Nat → List Agent

end Config

end Sys2Proof
end

