-- ==== Sys2Proof/Machine/Table.lean ====
section
/-! DEFINITION. A table keyed by numbers in one canonical form: keys strictly rising and no entry equal to what an unlisted key
reads as, so that equal tables are equal data.  The frequency table (rule R22) and the code table (rule R30) are such
tables; the laws are in Sys2Proof/Laws/Table.lean. -/

namespace Sys2Proof.Machine

/-- Entries (key, value), sparse. -/
abbrev Table (α : Type) := List (Nat × α)

namespace Table

variable {α : Type}

/-- The entry of key `k`, or `d` where `k` is not listed. -/
def get (d : α) : Table α → Nat → α
  | [], _ => d
  | (j, x) :: t, k => if j = k then x else get d t k

/-- `t` without an entry of key `k`. -/
def erase : Table α → Nat → Table α
  | [], _ => []
  | (j, x) :: t, k => if j = k then erase t k else (j, x) :: erase t k

/-- `t` with the entry `(k, x)` put before the first larger key; `t` has no entry of key `k`. -/
def insert : Table α → Nat → α → Table α
  | [], k, x => [(k, x)]
  | (j, y) :: t, k, x => if k < j then (k, x) :: (j, y) :: t else (j, y) :: insert t k x

/-- The table with entry `k` set to `x`; setting the value an unlisted key reads as removes the entry. -/
def set [DecidableEq α] (d : α) (t : Table α) (k : Nat) (x : α) : Table α :=
  if x = d then erase t k else insert (erase t k) k x

/-- The canonical form, for a table whose keys are below `bound`. -/
abbrev Wf (d : α) (bound : Nat) (t : Table α) : Prop :=
  t.Pairwise (fun a b => a.1 < b.1) ∧ (∀ e ∈ t, e.1 < bound) ∧ ∀ e ∈ t, e.2 ≠ d

end Table

end Sys2Proof.Machine
end

