-- ==== Sys2Proof/Machine/State.lean ====
section
/-! DEFINITION. The state of the model: the block's registers and stores (10_state.md), the host that drives the register
window (rules R10, R110, R115), the order the agents step in (rule R10), and the reset state (rules R61, R280). -/

namespace Sys2Proof.Machine

/-- `ENC_STATE` and `DEC_STATE` (rules R32, R33). -/
inductive UnitState where
  | idle
  | active
  | done
  | failed
deriving DecidableEq, Repr

/-- A node record (rule R24). -/
structure Node where
  sym    : SymField
  weight : Weight
  zero   : NodeIdx
  one    : NodeIdx
deriving DecidableEq, Repr

/-- What a record that no `TREE_BUILD` has written holds: unspecified (rule R61); DESIGN CHOICE all zero (log 4). -/
def Node.unwritten : Node := { sym := 0, weight := 0, zero := 0, one := 0 }

/-- `PHASE` of the pending command (rule R37). -/
inductive Phase where
  | validate
  | run
  | pad
deriving DecidableEq, Repr

/-- `PEND`, the pending command (rule R37). -/
structure Pend where
  /-- The command word last accepted. -/
  word  : Word
  phase : Phase
  /-- `IDX`, the bit index into the code being emitted, `0..256`. -/
  idx   : Nat
deriving DecidableEq, Repr

/-- The error codes of rule R251. -/
inductive ErrorKind where
  | emptyAlphabet
  | unknownSymbol
  | truncatedStream
  | malformedHeader
  | illegalCmd
  | badState
  | noTree
  | noCodes
  | badSymbol
  | badIndex
  | countOverflow
  | invalidPath
  | busyWrite
  | inOverflow
deriving DecidableEq, Repr

/-- The `ERROR` register, without its reserved bits, which always read 0 (rule R48). -/
structure ErrorReg where
  code  : BitVec 8
  src   : BitVec 8
  info  : BitVec 10
  multi : Bool
deriving DecidableEq, Repr

/-- `ERROR` with every field 0 (rules R61, R258). -/
def ErrorReg.clear : ErrorReg := { code := 0, src := 0, info := 0, multi := false }

/-- What one statement of a host program does (rules R110, R115).  An access names its bus address and its width in bytes, so that
an access the window does not admit can be written too (rule R72). Each is one host step, a branch too (DESIGN CHOICE, log 23). -/
inductive HostOp where
  | rd (addr bytes : Nat)
  | wr (addr bytes : Nat) (value : Word)
  | beq (mask want : Word) (label : Nat)
  | bne (mask want : Word) (label : Nat)
deriving DecidableEq, Repr

/-- A statement of a host program with the labels that prefix it (rule R115); labels are numbers (log 15). -/
structure Stmt where
  labels : List Nat
  op     : HostOp
deriving DecidableEq, Repr

/-- The host (rules R10, R110, R115).  It is outside the block, and a reset of the block leaves it alone (log 2). -/
structure HostAgent where
  prog  : List Stmt
  /-- The index of the next statement; the program has ended when there is none there. -/
  next  : Nat
  /-- `v`, what the most recent read returned (rule R115); none before the first read (log 9). -/
  v     : Option Word
  /-- Every read so far as (register offset, value returned), oldest first: what a run's outcome is told by (rule R235). -/
  reads : List (Nat × Word)
deriving DecidableEq, Repr

/-- A host with no program. -/
def HostAgent.none : HostAgent := { prog := [], next := 0, v := Option.none, reads := [] }

/-- The machine. -/
structure State where
  /-- The OPEN parameters of rule R6; no step changes them (log 1). -/
  params    : Params
  /-- `count[0..255]` (rule R22); an unlisted symbol counts 0. -/
  count     : Table Word
  /-- `node[0..512]` (rule R23): the records written so far, from index 0. -/
  nodes     : List Node
  /-- `TREE_VALID` (rule R25). -/
  treeValid : Bool
  /-- `NODE_COUNT` (rule R25). -/
  nodeCount : BitVec 10
  /-- `ROOT` (rule R25). -/
  root      : NodeIdx
  /-- `code[0..256]` (rule R30): the bit sequence of each symbol, first bit nearest the root; an unlisted symbol has `len = 0`. -/
  codes     : Table (List Bool)
  /-- `CODE_VALID` (rule R31). -/
  codeValid : Bool
  /-- `TOTAL_BITS` (rule R31). -/
  totalBits : Counter
  /-- `ENC_STATE` (rule R32). -/
  encState  : UnitState
  /-- `ENC_ACC` (rule R32). -/
  encAcc    : BitVec 8
  /-- `ENC_N` (rule R32). -/
  encN      : BitVec 4
  /-- `ENC_BITS` (rule R32). -/
  encBits   : Counter
  /-- `DEC_STATE` (rule R33). -/
  decState  : UnitState
  /-- `CURSOR` (rule R33). -/
  cursor    : NodeIdx
  /-- `DEC_SHIFT` (rule R33). -/
  decShift  : BitVec 8
  /-- `DEC_AVAIL` (rule R33). -/
  decAvail  : BitVec 4
  /-- `DEC_BITS` (rule R33). -/
  decBits   : Counter
  /-- The output FIFO, oldest byte first (rule R34). -/
  outFifo   : List Byte
  /-- The input FIFO, oldest byte first (rule R34). -/
  inFifo    : List Byte
  /-- `CTRL.IN_END` (rules R34, R41). -/
  inEnd     : Bool
  /-- `DATA_LO` (rule R44). -/
  dataLo    : Word
  /-- `DATA_HI` (rule R45). -/
  dataHi    : Word
  /-- `RESULT` (rule R46). -/
  result    : Word
  /-- `LINK` (rule R47). -/
  link      : Word
  /-- `ERROR` (rule R48). -/
  error     : ErrorReg
  /-- `PEND`; there is one exactly while `STATUS.BUSY = 1` (rules R37, R42, R61). -/
  pend      : Option Pend
  /-- The host (rule R10). -/
  host      : HostAgent
  /-- The agents that step next, in order; where the list has run out the next turns are drawn freely (rules R10, R12; log 3). -/
  sched     : List Agent
  /-- The model's own: how many free values and orders have been drawn (rules R10, R75; logs 3 and 8). -/
  draws     : Nat
deriving DecidableEq, Repr

/-- Why the machine stops.  The block itself never stops (rule R250): each reason is about the host's program. -/
inductive Fault where
  /-- Raised by a host branch that is taken to a label no statement has, or more than one has (rule R115 gives it no meaning).  Safe:
  the machine stops where the spec says nothing. -/
  | badLabel (label : Nat)
deriving DecidableEq, Repr

/-- Why the model gives a step no meaning. -/
inductive Refusal where
  /-- Raised by `exec` for a command that has no meaning yet.  Safe: nothing is claimed of it. -/
  | notModelled (mnemonic : String)
  /-- Raised by a host access that is not an aligned 32-bit access to the window (rules R11, R72).  Safe: the spec refuses it too. -/
  | accessNotAdmitted
deriving DecidableEq, Repr

/-- The three outcomes of a step of this machine. -/
abbrev Outcome := Host.Outcome State Fault Refusal

/-- The reset state of a machine with parameters `p` (rule R61), with no host program, no order of steps given, and no free value
drawn yet.  The node store and the code table are unspecified there: DESIGN CHOICE nothing written (logs 4 and 5). -/
def State.resetWith (p : Params) : State :=
  { params := p, count := [], nodes := [], treeValid := false, nodeCount := 0, root := 0, codes := [], codeValid := false,
    totalBits := 0, encState := .idle, encAcc := 0, encN := 0, encBits := 0, decState := .idle, cursor := 0, decShift := 0,
    decAvail := 0, decBits := 0, outFifo := [], inFifo := [], inEnd := false, dataLo := 0, dataHi := 0, result := 0, link := 0,
    error := .clear, pend := none, host := .none, sched := [], draws := 0 }

/-- The machine right after reset, with the default parameters of rule R6. -/
def State.reset : State := State.resetWith Params.default

end Sys2Proof.Machine
end

