-- ==== Sys2Proof/Machine/Operands.lean ====
section
/-! DEFINITION. The operand forms of the commands: a symbol, a node index, a code word index (rules R20, R102, R103), and what
each selects in the stores: `count[s]`, `node[i]`, `code[s]` (rule R9). -/

namespace Sys2Proof.Machine

/-- A real symbol, `0..255` (rule R20). -/
abbrev IsReal (s : Nat) : Prop := s < Config.nReal

/-- A real symbol or `EOF_SYMBOL`: what the commands of the frequency and code tables take (rule R251, `BAD_SYMBOL`). -/
abbrev IsStored (s : Nat) : Prop := s ≤ Config.eofSymbol

/-- `count[s]` of a frequency table; `count[256]` is hardwired to 1 (rule R22). -/
def countOf (c : Table Word) (s : Nat) : Word :=
  if s = Config.eofSymbol then 1 else Table.get 0 c s

/-- `count[s]` (rule R22). -/
def State.countAt (st : State) (s : Nat) : Word := countOf st.count s

/-- `count[s] <- n` for a real symbol `s` (rule R22). -/
def setCount (c : Table Word) (s : Nat) (n : Word) : Table Word := Table.set 0 c s n

/-- `node[i]` of a node store; a record nothing has written reads as `Node.unwritten` (log 4). -/
def nodeOf (ns : List Node) (i : NodeIdx) : Node := ns.getD i.toNat Node.unwritten

/-- `node[i]` (rule R23). -/
def State.node (st : State) (i : NodeIdx) : Node := nodeOf st.nodes i

/-- A node is a leaf if and only if its symbol is not `INTERNAL` (rule R24). -/
def Node.isLeaf (n : Node) : Bool := n.sym != Config.internal

/-- `code[s]` of a code table, as its bit sequence (rule R30). -/
def codeOf (c : Table (List Bool)) (s : Nat) : List Bool := Table.get [] c s

/-- `code[s]`; its `len` is the length of the sequence (rule R30). -/
def State.code (st : State) (s : Nat) : List Bool := codeOf st.codes s

/-- Word `w` of a code: bits `32w .. 32w + 31`, the first at bit 31, and 0 past the end (rules R103, R173). -/
def codeWord (bits : List Bool) (w : Nat) : Word := 
  (BitVec.ofBoolListBE ((List.range 32).map (fun j => bits.getD (32 * w + j) false))).setWidth 32

end Sys2Proof.Machine
end

