-- ==== Sys2Proof/Machine/Ops.lean ====
section
/-! DEFINITION. The operations the meanings share: `complete`, `INVALIDATE()` (rule R62), raising an error and clearing it (rules R255
to R258), the two FIFOs (rules R80, R82), the pending command (rules R37, R107), and the reset event (rule R280). -/

namespace Sys2Proof.Machine

/-! ### Errors -/

/-- `ERROR.CODE` of each error (rule R251). -/
def ErrorKind.code : ErrorKind → BitVec 8
  | .emptyAlphabet => 0x01
  | .unknownSymbol => 0x02
  | .truncatedStream => 0x03
  | .malformedHeader => 0x04
  | .illegalCmd => 0x10
  | .badState => 0x11
  | .noTree => 0x12
  | .noCodes => 0x13
  | .badSymbol => 0x14
  | .badIndex => 0x15
  | .countOverflow => 0x16
  | .invalidPath => 0x17
  | .busyWrite => 0x18
  | .inOverflow => 0x19

/-- Recording in `ERROR`: the first error is kept, a later one sets `MULTI` (rules R255, R259). -/
def ErrorReg.record (r : ErrorReg) (e : ErrorKind) (src : BitVec 8) (info : BitVec 10) : ErrorReg :=
  if r.code = 0 then { r with code := e.code, src := src, info := info } else { r with multi := true }

/-! ### The pending command -/

/-- `PEND.OP` (rules R37, R107); 0 while nothing is pending. -/
def State.pendOp (s : State) : BitVec 8 :=
  match s.pend with
  | some p => opField p.word
  | none => 0

/-- `PHASE`; `VALIDATE` while nothing is pending. -/
def State.phase (s : State) : Phase :=
  match s.pend with
  | some p => p.phase
  | none => .validate

/-- `IDX`; 0 while nothing is pending. -/
def State.idx (s : State) : Nat :=
  match s.pend with
  | some p => p.idx
  | none => 0

/-- Issue: `PEND` takes the word, in phase `VALIDATE` with `IDX = 0`, and `BUSY` becomes 1; nothing is checked (rule R107). -/
def State.issue (w : Word) (s : State) : State := { s with pend := some { word := w, phase := .validate, idx := 0 } }

/-- `complete`: `BUSY <- 0` (rule R9). -/
def State.complete (s : State) : State := { s with pend := none }

/-- The end of a streaming command's validation: `PHASE <- RUN`, `IDX <- 0` (rules R193, R194, R213). -/
def State.beginRun (s : State) : State := { s with pend := s.pend.map (fun p => { p with phase := .run, idx := 0 }) }

/-- `IDX <- IDX + 1` (rules R193, R194). -/
def State.nextBit (s : State) : State := { s with pend := s.pend.map (fun p => { p with idx := p.idx + 1 }) }

/-- `PHASE <- PAD` (rule R194). -/
def State.beginPad (s : State) : State := { s with pend := s.pend.map (fun p => { p with phase := .pad }) }

/-! ### Raising an error, and clearing it -/

/-- Which unit a command error fails (rule R257). -/
inductive FailedUnit where
  | noUnit
  | encoder
  | decoder
deriving DecidableEq, Repr

/-- The unit state change of rule R257. -/
def State.fail : FailedUnit → State → State
  | .noUnit, s => s
  | .encoder, s => { s with encState := .failed }
  | .decoder, s => { s with decState := .failed }

/-- `raise E(info)` by an engine step: recorded with `SRC = PEND.OP`, then the unit state change of rule R257, then `complete`
(rule R255).  Nothing else changes, and no control is transferred (rule R250). -/
def State.raiseCmd (u : FailedUnit) (e : ErrorKind) (info : BitVec 10) (s : State) : State :=
  (({ s with error := s.error.record e s.pendOp info } : State).fail u).complete

/-- `raise E(info)` by a host access: recorded with `SRC = 0xFF`; it neither ends nor alters a running command (rules R254, R255). -/
def State.raiseAccess (e : ErrorKind) (info : BitVec 10) (s : State) : State :=
  { s with error := s.error.record e 0xFF info }

/-- Clearing: `ERROR <- 0`, and nothing else is restored (rule R258). -/
def State.clearError (s : State) : State := { s with error := .clear }

/-! ### Derived state -/

/-- `INVALIDATE()` (rule R62). -/
def State.invalidate (s : State) : State :=
  { s with treeValid := false, codeValid := false, encState := .idle, decState := .idle }

/-! ### The FIFOs -/

/-- `OUT_LEVEL = OUT_FIFO_DEPTH`. -/
abbrev State.OutFull (s : State) : Prop := s.outFifo.length = s.params.outDepth

/-- `push_out(b)` (rule R80); its callers hold instead where the FIFO is full. -/
def State.pushOut (b : Byte) (s : State) : State := { s with outFifo := s.outFifo ++ [b] }

/-! ### Reset -/

/-- The reset event: every piece of the block's state takes its reset value; the parameters, the host and the model's own fields
are no state of the block (rules R280, R281; log 2). -/
def State.resetEvent (s : State) : State :=
  { State.resetWith s.params with host := s.host, sched := s.sched, draws := s.draws }

end Sys2Proof.Machine
end

