-- ==== Sys2Proof/Machine/CodeTable.lean ====
section
/-! DEFINITION. The code-table commands and what the generation stage computes (42_codetable.md). -/

namespace Sys2Proof.Machine

/-! ### The generation stage (rules R170, R171) -/

/-- The leaves below node `i`, each with its symbol and `p` followed by the branch choices that lead to it: `0` for the zero branch,
`1` for the one branch (rule R170).  The order of the visits is that of the rule's stack.  The first argument bounds the nodes on
a path: no code is longer than `MAX_CODE_LEN` (rules R29, R30; log 12). -/
def leafPaths (ns : List Node) : Nat → NodeIdx → List Bool → List (SymField × List Bool)
  | 0, _, _ => []
  | depth + 1, i, p =>
    if (nodeOf ns i).isLeaf then [((nodeOf ns i).sym, p)]
    else
      leafPaths ns depth (nodeOf ns i).zero (p ++ [false]) ++
        (if (nodeOf ns i).one = Config.nil then [] else leafPaths ns depth (nodeOf ns i).one (p ++ [true]))

/-- `code[sym] <- p` for each leaf found, over a table in which every `len` is 0 (rule R170). -/
def recordCodes (found : List (SymField × List Bool)) : Table (List Bool) :=
  found.foldl (fun t e => Table.set [] t e.1.toNat e.2) []

/-- The code table of a stored tree (rule R170). -/
def buildCodes (ns : List Node) (root : NodeIdx) : Table (List Bool) :=
  recordCodes (leafPaths ns (Config.maxCodeLen + 1) root [])

/-- What one record adds to `TOTAL_BITS` (rule R171). -/
def bitsOfNode (codes : Table (List Bool)) (n : Node) : Nat :=
  if n.isLeaf then n.weight.toNat * (codeOf codes n.sym.toNat).length else 0

/-- `TOTAL_BITS` of the records of a tree and its codes (rule R171). -/
def totalBitsOf (codes : Table (List Bool)) (records : List Node) : Nat := (records.map (bitsOfNode codes)).sum

/-! ### The commands -/

/-- `CODE_BUILD` (rule R172). -/
def execCodeBuild (s : State) : Outcome :=
  if s.treeValid = false then .next (s.raiseCmd .noUnit .noTree 0)
  else .next ({ s with
      codes := buildCodes s.nodes s.root,
      totalBits := BitVec.ofNat 64 (totalBitsOf (buildCodes s.nodes s.root) (s.nodes.take s.nodeCount.toNat)),
      codeValid := true,
      encState := .idle } : State).complete

/-- `CODE_READ s, W` (rule R173); a symbol without a code reads 0 and is no error. -/
def execCodeRead (sym w : Nat) (s : State) : Outcome :=
  if s.codeValid = false then .next (s.raiseCmd .noUnit .noCodes (BitVec.ofNat 10 sym))
  else if ¬ IsStored sym then .next (s.raiseCmd .noUnit .badSymbol (BitVec.ofNat 10 sym))
  else .next ({ s with
      result := BitVec.ofNat 32 (s.code sym).length,
      dataLo := codeWord (s.code sym) w,
      dataHi := 0 } : State).complete

end Sys2Proof.Machine
end

