-- ==== Sys2Proof/Machine/Control.lean ====
section
/-! DEFINITION. The control family: `NOP` (45_control.md). -/

namespace Sys2Proof.Machine

/-- `NOP`: `complete`, and no other state changes (rule R230). -/
def execNop (s : State) : Outcome := .next s.complete

end Sys2Proof.Machine
end

