-- ==== Sys2Proof/Machine/Decoder.lean ====
section
/-! DEFINITION. The decoder's step and commands (44_decoder.md). -/

namespace Sys2Proof.Machine

/-! ### The step (rules R210, R211) -/

/-- What `read_bit()` finds (rule R210). -/
inductive BitRead where
  /-- A bit, and the state after it is taken. -/
  | bit (b : Bool) (s : State)
  /-- No unread bit, no byte, and the host has said that no more come. -/
  | exhausted
  /-- No unread bit and no byte yet. -/
  | hold

/-- Taking the next unread bit, `DEC_SHIFT[7]` (rules R33, R210). -/
def takeBit (s : State) : BitRead :=
  .bit (s.decShift.getLsbD 7)
    { s with decShift := s.decShift <<< 1, decAvail := s.decAvail - 1, decBits := s.decBits + 1 }

/-- `read_bit()` (rule R210), with `pop_in()` (rule R82) where no unread bit is left. -/
def readBit (s : State) : BitRead :=
  if s.decAvail = 0 then
    match s.inFifo with
    | b :: rest => takeBit { s with inFifo := rest, decShift := b, decAvail := 8 }
    | [] => if s.inEnd then .exhausted else .hold
  else takeBit s

/-- The child a bit selects (rule R211). -/
def childOf (n : Node) (b : Bool) : NodeIdx := if b then n.one else n.zero

/-- The move to a child, once the bit is read (rule R211).  `EOF_SYMBOL` is not emitted as output: it ends the stream, and the
cursor stays on its leaf. -/
def moveTo (child : NodeIdx) (s : State) : State :=
  if child = Config.nil then s.raiseCmd .decoder .invalidPath s.cursor
  else if (s.node child).sym = BitVec.ofNat 9 Config.eofSymbol then
    { s with cursor := child, result := BitVec.ofNat 32 Config.eofSymbol, decState := .done }.complete
  else if (s.node child).isLeaf then
    { s with cursor := s.root, result := (s.node child).sym.setWidth 32 }.complete
  else { s with cursor := child }

/-- The walk step (rule R211); a held step changes nothing (rule R210). -/
def walkStep (s : State) : State :=
  match readBit s with
  | .bit b t => moveTo (childOf (s.node s.cursor) b) t
  | .exhausted => s.raiseCmd .decoder .truncatedStream s.cursor
  | .hold => s

/-! ### The commands (rules R212, R213) -/

/-- `DEC_START` (rule R212): the input FIFO and `IN_END` are not changed. -/
def execDecStart (s : State) : Outcome :=
  if s.treeValid = false then .next (s.raiseCmd .noUnit .noTree 0)
  else .next { s with cursor := s.root, decShift := 0, decAvail := 0, decBits := 0, decState := .active }.complete

/-- The validation step of `DEC_SYM` (rule R213). -/
def decSymValidate (s : State) : State :=
  if s.decState ≠ .active then s.raiseCmd .noUnit .badState 0 else s.beginRun

/-- `DEC_SYM`: one engine step, by phase (rules R109, R213).  The command has no phase `PAD` (log 7). -/
def execDecSym (s : State) : Outcome :=
  match s.phase with
  | .validate => .next (decSymValidate s)
  | .run => .next (walkStep s)
  | .pad => .next (walkStep s)

end Sys2Proof.Machine
end

