-- ==== Sys2Proof/Machine/Encoder.lean ====
section
/-! DEFINITION. The encoder's steps and commands (43_encoder.md). -/

namespace Sys2Proof.Machine

/-! ### The steps (rules R190, R191) -/

/-- `emit_bit(b)` (rule R190); `none` is the hold, which changes nothing. -/
def emitBit (b : Bool) (s : State) : Option State :=
  if s.encN = 7 ∧ s.OutFull then none
  else if s.encN + 1 = 8 then
    some { s with outFifo := s.outFifo ++ [(s.encAcc <<< 1) ||| (BitVec.ofBool b).setWidth 8], encAcc := 0, encN := 0,
                  encBits := s.encBits + 1 }
  else
    some { s with encAcc := (s.encAcc <<< 1) ||| (BitVec.ofBool b).setWidth 8, encN := s.encN + 1, encBits := s.encBits + 1 }

/-- `pad()` (rule R191); `none` is the hold. -/
def padByte (s : State) : Option State :=
  if s.OutFull then none
  else some { s.pushOut (s.encAcc <<< (8 - s.encN.toNat)) with encAcc := 0, encN := 0 }

/-! ### The commands (rules R192 to R194) -/

/-- `ENC_START` (rule R192). -/
def execEncStart (s : State) : Outcome :=
  if s.codeValid = false then .next (s.raiseCmd .noUnit .noCodes 0)
  else .next { s with encState := .active, encAcc := 0, encN := 0, encBits := 0 }.complete

/-- The validation step of `ENC_SYM` (rule R193). -/
def encSymValidate (sym : Nat) (s : State) : State :=
  if s.encState ≠ .active then s.raiseCmd .noUnit .badState (BitVec.ofNat 10 sym)
  else if ¬ IsReal sym then s.raiseCmd .encoder .badSymbol (BitVec.ofNat 10 sym)
  else if s.code sym = [] then s.raiseCmd .encoder .unknownSymbol (BitVec.ofNat 10 sym)
  else s.beginRun

/-- A run step of `ENC_SYM` (rule R193); a held step changes nothing (rule R190). -/
def encSymRun (sym : Nat) (s : State) : State :=
  match emitBit ((s.code sym).getD s.idx false) s with
  | none => s
  | some t => if s.idx + 1 = (s.code sym).length then t.nextBit.complete else t.nextBit

/-- `ENC_SYM s`: one engine step, by phase (rules R109, R193).  The command has no phase `PAD` (log 7). -/
def execEncSym (sym : Nat) (s : State) : Outcome :=
  match s.phase with
  | .validate => .next (encSymValidate sym s)
  | .run => .next (encSymRun sym s)
  | .pad => .next (encSymRun sym s)

/-- The validation step of `ENC_EOF` (rule R194). -/
def encEofValidate (s : State) : State :=
  if s.encState ≠ .active then s.raiseCmd .noUnit .badState 0 else s.beginRun

/-- The end of a stream: `ENC_STATE <- DONE`, `complete` (rule R194). -/
def State.encDone (s : State) : State := { s with encState := .done }.complete

/-- A run step of `ENC_EOF` (rule R194). -/
def encEofRun (s : State) : State :=
  match emitBit ((s.code Config.eofSymbol).getD s.idx false) s with
  | none => s
  | some t =>
    if s.idx + 1 = (s.code Config.eofSymbol).length then
      if t.encN = 0 then t.nextBit.encDone else t.nextBit.beginPad
    else t.nextBit

/-- The padding step of `ENC_EOF` (rules R191, R194). -/
def encEofPad (s : State) : State :=
  match padByte s with
  | none => s
  | some t => t.encDone

/-- `ENC_EOF`: one engine step, by phase (rules R109, R194). -/
def execEncEof (s : State) : Outcome :=
  match s.phase with
  | .validate => .next (encEofValidate s)
  | .run => .next (encEofRun s)
  | .pad => .next (encEofPad s)

end Sys2Proof.Machine
end

