-- ==== Sys2Proof/Machine/Frequency.lean ====
section
/-! DEFINITION. The frequency table commands (40_frequency.md). -/

namespace Sys2Proof.Machine

/-- The largest count `COUNT_BITS` bits hold. -/
def State.maxCount (s : State) : Nat := 2 ^ s.params.countBits - 1

/-- `FREQ_CLEAR` (rule R130): every real symbol's count becomes 0. -/
def execFreqClear (s : State) : Outcome := .next { s with count := [] }.invalidate.complete

/-- `FREQ_INC s` (rule R131). -/
def execFreqInc (sym : Nat) (s : State) : Outcome :=
  if ¬ IsReal sym then .next (s.raiseCmd .noUnit .badSymbol (BitVec.ofNat 10 sym))
  else if (s.countAt sym).toNat = s.maxCount then .next (s.raiseCmd .noUnit .countOverflow (BitVec.ofNat 10 sym))
  else .next { s with count := setCount s.count sym (s.countAt sym + 1) }.invalidate.complete

/-- `FREQ_WRITE s` (rule R132); the entry of `EOF_SYMBOL` is hardwired, so there is nothing to store for it. -/
def execFreqWrite (sym : Nat) (s : State) : Outcome :=
  if ¬ IsStored sym then .next (s.raiseCmd .noUnit .badSymbol (BitVec.ofNat 10 sym))
  else if sym = Config.eofSymbol ∧ s.dataLo ≠ 1 then .next (s.raiseCmd .noUnit .malformedHeader (BitVec.ofNat 10 sym))
  else if IsReal sym ∧ s.maxCount < s.dataLo.toNat then .next (s.raiseCmd .noUnit .countOverflow (BitVec.ofNat 10 sym))
  else if IsReal sym then .next { s with count := setCount s.count sym s.dataLo }.invalidate.complete
  else .next s.invalidate.complete

/-- `FREQ_READ s` (rule R133). -/
def execFreqRead (sym : Nat) (s : State) : Outcome :=
  if ¬ IsStored sym then .next (s.raiseCmd .noUnit .badSymbol (BitVec.ofNat 10 sym))
  else .next { s with dataLo := s.countAt sym, dataHi := 0 }.complete

end Sys2Proof.Machine
end

