-- ==== Sys2Proof/Machine/Tree.lean ====
section
/-! DEFINITION. The tree commands and the algorithm they run (41_tree.md). -/

namespace Sys2Proof.Machine

/-! ### The algorithm (rules R150 to R153) -/

/-- A symbol is present when it is `EOF_SYMBOL`, or real with a positive count (rule R21). -/
def present (c : Table Word) (sym : Nat) : Bool := sym == Config.eofSymbol || (decide (IsReal sym) && countOf c sym != 0)

/-- The present symbols in ascending order, `EOF_SYMBOL` last (rules R21, R150). -/
def presentSymbols (c : Table Word) : List Nat := (List.range (Config.eofSymbol + 1)).filter (present c)

/-- The leaf of a symbol (rules R24, R150). -/
def leafNode (c : Table Word) (sym : Nat) : Node :=
  { sym := BitVec.ofNat 9 sym, weight := (countOf c sym).setWidth 41, zero := Config.nil, one := Config.nil }

/-- The leaves, at consecutive indices from 0 (rule R150). -/
def leaves (c : Table Word) : List Node := (presentSymbols c).map (leafNode c)

/-- A queue element: a node's weight and its index. -/
abbrev QElem := Weight × Nat

/-- The priority order: by weight, then by index, least first (rule R151). -/
def comesBefore (a b : QElem) : Bool := decide (a.1 < b.1) || (a.1 == b.1 && decide (a.2 < b.2))

/-- `Q ∪ {e}`, with the queue held as the list of its elements in the order of rule R151. -/
def enqueue (e : QElem) : List QElem → List QElem
  | [] => [e]
  | x :: xs => if comesBefore e x then e :: x :: xs else x :: enqueue e xs

/-- `Q ← {0, …, L - 1}` (rule R152), for nodes standing from index `k` on. -/
def queueFrom : Nat → List Node → List QElem
  | _, [] => []
  | k, n :: ns => enqueue (n.weight, k) (queueFrom (k + 1) ns)

/-- The internal node of one merge: the first element popped is the `zero` child, the second the `one` child (rule R152). -/
def mergeNode (a b : QElem) : Node :=
  { sym := Config.internal, weight := a.1 + b.1, zero := BitVec.ofNat 10 a.2, one := BitVec.ofNat 10 b.2 }

/-- The merging loop (rule R152): while the queue has two elements, pop two and push their parent, at the next index.  The first
argument bounds the passes; the loop makes `L - 1`. -/
def mergeLoop : Nat → List Node → List QElem → List Node × List QElem
  | k + 1, ns, a :: b :: q => mergeLoop k (ns ++ [mergeNode a b]) (enqueue (a.1 + b.1, ns.length) q)
  | _, ns, q => (ns, q)

/-- The synthetic root of the one-leaf tree (rule R153). -/
def syntheticRoot (leaf : Node) : Node :=
  { sym := Config.internal, weight := leaf.weight, zero := 0, one := Config.nil }

/-- A built tree: its records from index 0, and the index of its root. -/
structure BuiltTree where
  nodes : List Node
  root  : Nat
deriving DecidableEq, Repr

/-- The tree of a frequency table (rules R150 to R153). -/
def buildTree (c : Table Word) : BuiltTree :=
  match leaves c with
  | [leaf] => { nodes := [leaf, syntheticRoot leaf], root := 1 }
  | ls =>
    match mergeLoop (ls.length - 1) ls (queueFrom 0 ls) with
    | (ns, q) => { nodes := ns, root := (q.headD (0, 0)).2 }

/-! ### The commands -/

/-- `TREE_BUILD` (rule R154): the records from 0 are overwritten; those past the new tree keep their stale contents. -/
def execTreeBuild (s : State) : Outcome :=
  .next (({ s.invalidate with
      nodes := (buildTree s.count).nodes ++ s.nodes.drop (buildTree s.count).nodes.length,
      nodeCount := BitVec.ofNat 10 (buildTree s.count).nodes.length,
      root := BitVec.ofNat 10 (buildTree s.count).root,
      cursor := BitVec.ofNat 10 (buildTree s.count).root,
      treeValid := true } : State).complete)

/-- `RESULT` of `NODE_READ`: `[31]` leaf, `[8:0]` symbol (rules R46, R155). -/
def nodeResult (n : Node) : Word := BitVec.ofBool n.isLeaf ++ 0#22 ++ n.sym

/-- `LINK` of `NODE_READ`: `[25:16]` one, `[9:0]` zero (rules R47, R155). -/
def nodeLink (n : Node) : Word := 0#6 ++ n.one ++ 0#6 ++ n.zero

/-- `NODE_READ i` (rule R155). -/
def execNodeRead (i : Nat) (s : State) : Outcome :=
  if s.treeValid = false then .next (s.raiseCmd .noUnit .noTree (BitVec.ofNat 10 i))
  else if s.nodeCount.toNat ≤ i then .next (s.raiseCmd .noUnit .badIndex (BitVec.ofNat 10 i))
  else .next ({ s with
      result := nodeResult (s.node (BitVec.ofNat 10 i)),
      link := nodeLink (s.node (BitVec.ofNat 10 i)),
      dataLo := (s.node (BitVec.ofNat 10 i)).weight.extractLsb' 0 32,
      dataHi := ((s.node (BitVec.ofNat 10 i)).weight.extractLsb' 32 9).setWidth 32 } : State).complete

end Sys2Proof.Machine
end

