-- ==== Sys2Proof/Machine/Dispatch.lean ====
section
/-! DEFINITION. One engine step of each command: one arm a constructor. -/

namespace Sys2Proof.Machine

def exec (i : Instr) (s : State) : Host.Outcome State Fault Refusal :=
  match i with
  | .nop => Sys2Proof.Machine.execNop s
  | .freqClear => Sys2Proof.Machine.execFreqClear s
  | .freqInc sym => Sys2Proof.Machine.execFreqInc sym s
  | .freqWrite sym => Sys2Proof.Machine.execFreqWrite sym s
  | .freqRead sym => Sys2Proof.Machine.execFreqRead sym s
  | .treeBuild => Sys2Proof.Machine.execTreeBuild s
  | .nodeRead k => Sys2Proof.Machine.execNodeRead k s
  | .codeBuild => Sys2Proof.Machine.execCodeBuild s
  | .codeRead sym w => Sys2Proof.Machine.execCodeRead sym w s
  | .encStart => Sys2Proof.Machine.execEncStart s
  | .encSym sym => Sys2Proof.Machine.execEncSym sym s
  | .encEof => Sys2Proof.Machine.execEncEof s
  | .decStart => Sys2Proof.Machine.execDecStart s
  | .decSym => Sys2Proof.Machine.execDecSym s

end Sys2Proof.Machine
end

