-- ==== Sys2Proof/Machine/Flags.lean ====
section
/-! DEFINITION. `STATUS` (rule R42): every flag, computed from the state it names, and the hold conditions behind `WAIT_OUT` and
`WAIT_IN` (rules R85, R190, R191, R210). -/

namespace Sys2Proof.Machine

/-- `STATUS.BUSY`: 1 while a command is pending (rules R37, R42). -/
def State.busy (s : State) : Bool := s.pend.isSome

/-- `STATUS.ERR`: 1 when `ERROR.CODE != 0` (rule R42). -/
def State.err (s : State) : Bool := s.error.code != 0

/-- The two-bit value of a unit's state (rules R32, R33). -/
def UnitState.bits : UnitState → BitVec 2
  | .idle => 0
  | .active => 1
  | .done => 2
  | .failed => 3

/-- A code-bit step would complete a byte that has no room (rule R190). -/
abbrev State.EmitHeld (s : State) : Prop := s.encN = 7 ∧ s.OutFull

/-- A bit read would find no unread bit, no byte and no end of input (rules R85, R210). -/
abbrev State.ReadHeld (s : State) : Prop := s.decAvail = 0 ∧ s.inFifo = [] ∧ s.inEnd = false

/-- Whether the next step of command `i` is held for output space (rules R190, R191, R193, R194). -/
def State.heldOut (s : State) : Instr → Bool
  | .encSym _ => s.phase != .validate && decide s.EmitHeld
  | .encEof => (s.phase == .run && decide s.EmitHeld) || (s.phase == .pad && decide s.OutFull)
  | _ => false

/-- Whether the next step of command `i` is held for input (rules R210, R213). -/
def State.heldIn (s : State) : Instr → Bool
  | .decSym => s.phase != .validate && decide s.ReadHeld
  | _ => false

/-- The command pending, where its word is legal. -/
def State.pendInstr (s : State) : Option Instr :=
  match s.pend with
  | some p =>
    match decode p.word with
    | .ok i => some i
    | .error _ => none
  | none => none

/-- `STATUS.WAIT_OUT` (rule R42). -/
def State.waitOut (s : State) : Bool := s.pendInstr.any s.heldOut

/-- `STATUS.WAIT_IN` (rule R42). -/
def State.waitIn (s : State) : Bool := s.pendInstr.any s.heldIn

/-- The `STATUS` register (rule R42). -/
def State.status (s : State) : Word :=
  0#22 ++ BitVec.ofBool s.waitIn ++ BitVec.ofBool s.waitOut ++ s.decState.bits ++ s.encState.bits ++
    BitVec.ofBool s.codeValid ++ BitVec.ofBool s.treeValid ++ BitVec.ofBool s.err ++ BitVec.ofBool s.busy

end Sys2Proof.Machine
end

