-- ==== Sys2Proof/Machine/Registers.lean ====
section
/-! DEFINITION. The host's register window: which accesses are admitted (rules R70, R72), the registers and their offsets (rule R39),
and what a read and a write of each does, idle and busy (rules R40 to R60, R73 to R83, R231, R232). -/

namespace Sys2Proof.Machine

/-- The host-visible registers (rule R39). -/
inductive Reg where
  | id
  | ctrl
  | status
  | cmd
  | dataLo
  | dataHi
  | result
  | link
  | error
  | encBitsLo
  | encBitsHi
  | decBitsLo
  | decBitsHi
  | decPos
  | encPos
  | fifoLevel
  | outData
  | inData
  | totalLo
  | totalHi
  | treeInfo
  | param0
  | param1
deriving DecidableEq, Repr

/-- The offset of each register (rule R39). -/
def Reg.offset : Reg → Nat
  | .id => 0x00
  | .ctrl => 0x04
  | .status => 0x08
  | .cmd => 0x0C
  | .dataLo => 0x10
  | .dataHi => 0x14
  | .result => 0x18
  | .link => 0x1C
  | .error => 0x20
  | .encBitsLo => 0x24
  | .encBitsHi => 0x28
  | .decBitsLo => 0x2C
  | .decBitsHi => 0x30
  | .decPos => 0x34
  | .encPos => 0x38
  | .fifoLevel => 0x3C
  | .outData => 0x40
  | .inData => 0x44
  | .totalLo => 0x48
  | .totalHi => 0x4C
  | .treeInfo => 0x50
  | .param0 => 0x54
  | .param1 => 0x58

/-- The register at an offset of the window; none at the unmapped offsets (rules R39, R73). -/
def Reg.at? (off : Nat) : Option Reg :=
  match off with
  | 0x00 => some .id
  | 0x04 => some .ctrl
  | 0x08 => some .status
  | 0x0C => some .cmd
  | 0x10 => some .dataLo
  | 0x14 => some .dataHi
  | 0x18 => some .result
  | 0x1C => some .link
  | 0x20 => some .error
  | 0x24 => some .encBitsLo
  | 0x28 => some .encBitsHi
  | 0x2C => some .decBitsLo
  | 0x30 => some .decBitsHi
  | 0x34 => some .decPos
  | 0x38 => some .encPos
  | 0x3C => some .fifoLevel
  | 0x40 => some .outData
  | 0x44 => some .inData
  | 0x48 => some .totalLo
  | 0x4C => some .totalHi
  | 0x50 => some .treeInfo
  | 0x54 => some .param0
  | 0x58 => some .param1
  | _ => none

/-- The offset an admitted access reaches: 32 bits wide, aligned, in the window of 256 bytes (rules R70, R72). -/
def admitted (p : Params) (addr bytes : Nat) : Option Nat :=
  if bytes = 4 ∧ p.base ≤ addr ∧ addr - p.base ≤ 0xFC ∧ (addr - p.base) % 4 = 0 then some (addr - p.base) else none

/-- The byte of a bus word at lane `k` above the lowest address: little-endian lanes (rule R74).  No admitted access sees less than
the whole word, so the machine itself has no use for it. -/
def busByte (w : Word) (k : Nat) : Byte := w.extractLsb' (8 * k) 8

/-! ### Register contents -/

/-- `ERROR` as the host reads it (rule R48). -/
def ErrorReg.word (r : ErrorReg) : Word := BitVec.ofBool r.multi ++ 0#5 ++ r.info ++ r.src ++ r.code

/-- The low and the high half of a 64-bit counter (rules R49, R50, R56). -/
def loHalf (c : Counter) : Word := c.extractLsb' 0 32

/-- The high half. -/
def hiHalf (c : Counter) : Word := c.extractLsb' 32 32

/-- What a register holds, for a read that has no side effect; `OUT_DATA` shows the byte a read of it pops (rules R40 to R59, R81).
`CMD` and `IN_DATA` are write-only and read 0 (rule R39). -/
def State.regValue (s : State) : Reg → Word
  | .id => Config.idValue
  | .ctrl => (BitVec.ofBool s.inEnd).setWidth 32
  | .status => s.status
  | .cmd => 0
  | .dataLo => s.dataLo
  | .dataHi => s.dataHi
  | .result => s.result
  | .link => s.link
  | .error => s.error.word
  | .encBitsLo => loHalf s.encBits
  | .encBitsHi => hiHalf s.encBits
  | .decBitsLo => loHalf s.decBits
  | .decBitsHi => hiHalf s.decBits
  | .decPos => s.decShift ++ 0#4 ++ s.decAvail ++ 0#6 ++ s.cursor
  | .encPos => 0#20 ++ s.encN ++ s.encAcc
  | .fifoLevel => BitVec.ofNat 16 s.inFifo.length ++ BitVec.ofNat 16 s.outFifo.length
  | .outData =>
    match s.outFifo with
    | b :: _ => 0#23 ++ 1#1 ++ b
    | [] => 0
  | .inData => 0
  | .totalLo => loHalf s.totalBits
  | .totalHi => hiHalf s.totalBits
  | .treeInfo => 0#6 ++ s.nodeCount ++ 0#6 ++ s.root
  | .param0 => BitVec.ofNat 16 s.params.inDepth ++ BitVec.ofNat 16 s.params.outDepth
  | .param1 => 0#7 ++ BitVec.ofNat 9 Config.maxCodeLen ++ 0#10 ++ BitVec.ofNat 6 s.params.countBits

/-- The registers a read returns any value of while a command is pending (rules R39, R75). -/
def Reg.openWhileBusy : Reg → Bool
  | .dataLo => true
  | .dataHi => true
  | .result => true
  | .link => true
  | .encBitsLo => true
  | .encBitsHi => true
  | .decBitsLo => true
  | .decBitsHi => true
  | .decPos => true
  | .encPos => true
  | .totalLo => true
  | .totalHi => true
  | .treeInfo => true
  | .id => false
  | .ctrl => false
  | .status => false
  | .cmd => false
  | .error => false
  | .fifoLevel => false
  | .outData => false
  | .inData => false
  | .param0 => false
  | .param1 => false

/-- The registers a write of which is dropped, with `BUSY_WRITE`, while a command is pending (rules R39, R76). -/
def Reg.lockedWhileBusy : Reg → Bool
  | .cmd => true
  | .dataLo => true
  | .dataHi => true
  | .error => true
  | .id => false
  | .ctrl => false
  | .status => false
  | .result => false
  | .link => false
  | .encBitsLo => false
  | .encBitsHi => false
  | .decBitsLo => false
  | .decBitsHi => false
  | .decPos => false
  | .encPos => false
  | .fifoLevel => false
  | .outData => false
  | .inData => false
  | .totalLo => false
  | .totalHi => false
  | .treeInfo => false
  | .param0 => false
  | .param1 => false

/-! ### Reads and writes -/

/-- The side effect of a read: `OUT_DATA` pops its byte, and no other read changes state (rules R77, R81, R231). -/
def State.afterRead (s : State) : Reg → State
  | .outData => { s with outFifo := s.outFifo.drop 1 }
  | _ => s

/-- One host read of a register: the value and the state after (rules R75, R81, R231). -/
def State.readReg (r : Reg) (s : State) : Word × State :=
  if s.busy ∧ r.openWhileBusy then (Config.freeWord s.draws, { s with draws := s.draws + 1 })
  else (s.regValue r, s.afterRead r)

/-- One host read at an offset of the window; an unmapped offset reads 0 (rule R73). -/
def State.readAt (off : Nat) (s : State) : Word × State :=
  match Reg.at? off with
  | some r => s.readReg r
  | none => (0, s)

/-- The host's write of `IN_DATA` (rule R83). -/
def State.pushIn (b : Byte) (s : State) : State :=
  if s.inFifo.length < s.params.inDepth then { s with inFifo := s.inFifo ++ [b] }
  else s.raiseAccess .inOverflow (b.setWidth 10)

/-- What an accepted write of a register does; a read-only register ignores it (rules R41, R43 to R48, R60, R77, R83, R107, R258). -/
def State.storeReg (v : Word) (s : State) : Reg → State
  | .ctrl => { s with inEnd := v.getLsbD 0 }
  | .cmd => s.issue v
  | .dataLo => { s with dataLo := v }
  | .dataHi => { s with dataHi := v }
  | .error => s.clearError
  | .inData => s.pushIn (v.extractLsb' 0 8)
  | .id => s
  | .status => s
  | .result => s
  | .link => s
  | .encBitsLo => s
  | .encBitsHi => s
  | .decBitsLo => s
  | .decBitsHi => s
  | .decPos => s
  | .encPos => s
  | .fifoLevel => s
  | .outData => s
  | .totalLo => s
  | .totalHi => s
  | .treeInfo => s
  | .param0 => s
  | .param1 => s

/-- One host write of a register (rules R76, R232). -/
def State.writeReg (r : Reg) (v : Word) (s : State) : State :=
  if s.busy ∧ r.lockedWhileBusy then s.raiseAccess .busyWrite (BitVec.ofNat 10 r.offset) else s.storeReg v r

/-- One host write at an offset of the window; an unmapped offset ignores it (rule R73). -/
def State.writeAt (off : Nat) (v : Word) (s : State) : State :=
  match Reg.at? off with
  | some r => s.writeReg r v
  | none => s

end Sys2Proof.Machine
end

