-- ==== Sys2Proof/Machine/Engine.lean ====
section
/-! DEFINITION. The steps of the three agents (rule R10): the engine (rules R11, R108), the host (rules R110, R115, R231, R232) and the
reset input (rule R280); who goes next; and the word the engine runs. -/

namespace Sys2Proof.Machine

/-! ### The engine -/

/-- One engine step: an illegal word raises `ILLEGAL_CMD`, a legal one takes a step of its command, and with nothing pending the
engine has no step (rules R11, R108, R268). -/
def engineStep (s : State) : Outcome :=
  match s.pend with
  | none => .next s
  | some p =>
    match decode p.word with
    | .error _ => .next (s.raiseCmd .noUnit .illegalCmd (opndField p.word))
    | .ok i => exec i s

/-- The engine has a step: a command is pending and is not held (rules R10, R11). -/
def State.engineReady (s : State) : Bool := s.busy && !s.waitOut && !s.waitIn

/-! ### The host -/

/-- The host goes on with its next statement. -/
def State.hostNext (s : State) : State := { s with host := { s.host with next := s.host.next + 1 } }

/-- The host has read `v` at offset `off`: `v` is what branches test, and the read is put down for the run's outcome (rules R110,
R115, R235). -/
def State.hostGot (off : Nat) (v : Word) (s : State) : State :=
  { s with host := { s.host with v := some v, reads := s.host.reads ++ [(off, v)] } }

/-- The value a branch tests, and the state after: before the first read there is none, and it is any value (rule R115; log 9). -/
def State.testValue (s : State) : Word × State :=
  match s.host.v with
  | some v => (v, s)
  | none => (Config.freeWord s.draws, { s with draws := s.draws + 1 })

/-- The indices, counting from `k`, of the statements that carry a label. -/
def labelSites (label : Nat) : Nat → List Stmt → List Nat
  | _, [] => []
  | k, st :: rest => if label ∈ st.labels then k :: labelSites label (k + 1) rest else labelSites label (k + 1) rest

/-- Continue at the statement a label names (rule R115; log 15). -/
def hostJump (label : Nat) (s : State) : Outcome :=
  match labelSites label 0 s.host.prog with
  | [k] => .next { s with host := { s.host with next := k } }
  | _ => .fault (.badLabel label)

/-- `RD`: one host read (rules R110, R231); an access the window does not admit is refused (rule R72). -/
def hostRead (addr bytes : Nat) (s : State) : Outcome :=
  match admitted s.params addr bytes with
  | some off => .next (((s.readAt off).2.hostGot off (s.readAt off).1).hostNext)
  | none => .refused .accessNotAdmitted

/-- `WR`: one host write (rules R110, R232). -/
def hostWrite (addr bytes : Nat) (v : Word) (s : State) : Outcome :=
  match admitted s.params addr bytes with
  | some off => .next (s.writeAt off v).hostNext
  | none => .refused .accessNotAdmitted

/-- One statement of the host's program (rules R110, R115); a branch makes no access to the block.  Rule R10 calls each host step one
access, and the spec does not say whether a branch takes a turn of its own: DESIGN CHOICE, it does, one host step a branch, before and
after which the other agents can step (log 23). -/
def hostDo : HostOp → State → Outcome
  | .rd addr bytes, s => hostRead addr bytes s
  | .wr addr bytes v, s => hostWrite addr bytes v s
  | .beq mask want label, s =>
    if s.testValue.1 &&& mask = want then hostJump label s.testValue.2 else .next s.testValue.2.hostNext
  | .bne mask want label, s =>
    if s.testValue.1 &&& mask ≠ want then hostJump label s.testValue.2 else .next s.testValue.2.hostNext

/-- The statement the host is at; none once the program has ended (rule R115). -/
def State.hostStmt (s : State) : Option Stmt := s.host.prog[s.host.next]?

/-- One host step; a host whose program has ended has none. -/
def hostStep (s : State) : Outcome :=
  match s.hostStmt with
  | some st => hostDo st.op s
  | none => .next s

/-! ### Who goes next -/

/-- The agent has a step (rules R10, R11): the engine while a command is pending and not held, the host until its program has ended, the
reset input always. -/
def State.hasStep (s : State) : Agent → Bool
  | .engine => s.engineReady
  | .host => s.hostStmt.isSome
  | .reset => true

/-- An order from the first agent that has a step; the turns of agents that have none are passed over. -/
def State.fromReady (s : State) (turns : List Agent) : List Agent := turns.dropWhile (fun a => !s.hasStep a)

/-- The order after the one in the state has run out: the next free draw and then the engine's turn (rules R10, R12; log 3); where nobody
in it has a step, it is the host's turn, so that the machine goes on while the host has one (rule R299). -/
def State.drawnTurns (s : State) : List Agent :=
  match s.fromReady (Config.freeTurns s.draws ++ [.engine]) with
  | [] => s.fromReady [.host]
  | a :: l => a :: l

/-- The state with the turn of an agent that has a step first in its order; the order is empty where none has one. -/
def State.withTurns (s : State) : State :=
  match s.fromReady s.sched with
  | [] => { s with sched := s.drawnTurns, draws := s.draws + 1 }
  | a :: l => { s with sched := a :: l }

/-- The agent that steps next; none where neither the engine nor the host has a step and the draw names no reset (log 10). -/
def State.nextAgent (s : State) : Option Agent := s.withTurns.sched.head?

/-- The state in which that agent steps: its turn is taken from the order. -/
def State.turnTaken (s : State) : State := { s.withTurns with sched := s.withTurns.sched.tail }

/-- One step of an agent (rule R10). -/
def agentStep : Agent → State → Outcome
  | .host, s => hostStep s
  | .engine, s => engineStep s
  | .reset, s => .next s.resetEvent

/-- The state with a command word pending and the engine's turn next. -/
def State.placeWord (w : Word) (s : State) : State := { s.issue w with sched := .engine :: s.sched }

end Sys2Proof.Machine
end

