-- ==== Sys2Proof/Machine/Step.lean ====
section
/-! DEFINITION. One step of the machine: the next agent takes its step (rule R10). -/

namespace Sys2Proof.Machine

/-- One step: a step of an agent that has one; where none has, only the order goes on (rule R10; log 10). -/
def step (s : State) : Host.Outcome State Fault Refusal :=
  match s.nextAgent with
  | some a => agentStep a s.turnTaken
  | none => .next s.turnTaken

/-- The state whose very next step runs the command of that word: the word is pending, as after a host write of `CMD` (rule R107), and
the engine's turn is next (log 16). -/
def State.withFetchWord (s : State) (nbits w : Nat) : State := s.placeWord (BitVec.ofNat 32 (w % 2 ^ nbits))

end Sys2Proof.Machine
end

