-- ==== Sys2Proof/Machine/Asm.lean ====
section
/-! DEFINITION. The host assembly: the primitive accesses by register name (rule R110), a command standing alone (rule R112), and the
pseudo-instructions with their expansions (rule R113).  Labels are numbers, and symbols are written as numbers (log 15). -/

namespace Sys2Proof.Machine.Asm

/-- `RD reg`: one 32-bit read of `BASE + offset(reg)` (rule R110). -/
def rd (p : Params) (r : Reg) : HostOp := .rd (p.base + r.offset) 4

/-- `WR reg, value` (rule R110). -/
def wr (p : Params) (r : Reg) (v : Word) : HostOp := .wr (p.base + r.offset) 4 v

/-- A statement without a label. -/
def plain (op : HostOp) : Stmt := { labels := [], op := op }

/-- A command standing alone is `WR CMD, <expression>` (rules R112, R113). -/
def command (p : Params) (i : Instr) : Stmt := plain (wr p .cmd (encode i))

/-- `WAIT`, with `l` as its fresh label (rule R113). -/
def wait (p : Params) (l : Nat) : List Stmt := [{ labels := [l], op := rd p .status }, plain (.bne 1 0 l)]

/-- `<command> !` (rule R113). -/
def commandWait (p : Params) (l : Nat) (i : Instr) : List Stmt := command p i :: wait p l

/-- `SETDATA n` (rule R113). -/
def setData (p : Params) (n : Word) : Stmt := plain (wr p .dataLo n)

/-- `PUSH b` (rule R113). -/
def push (p : Params) (b : Word) : Stmt := plain (wr p .inData b)

/-- `POP` (rule R113). -/
def pop (p : Params) : Stmt := plain (rd p .outData)

/-- `ENDIN` (rule R113). -/
def endIn (p : Params) : Stmt := plain (wr p .ctrl 1)

/-- `CLRERR` (rule R113). -/
def clrErr (p : Params) : Stmt := plain (wr p .error 0)

end Sys2Proof.Machine.Asm
end

