-- ==== Sys2Proof/Safety.lean ====
section
/-! DEFINITION. What claims are told in: the invariant of the reachable states (rule R35), the bit streams the FIFOs stand for (rule
R79), paths in the stored tree (rule R170), the running of one command by itself, and the end of a run (rule R235). -/

namespace Sys2Proof.Machine

/-! ### Bit streams (rule R79) -/

/-- The bits of a byte in stream order: the most significant first (rule R79). -/
def byteBits (b : Byte) : List Bool := (List.range 8).map (fun j => b.getLsbD (7 - j))

/-- The bits of a sequence of bytes in stream order. -/
def bytesBits (bs : List Byte) : List Bool := bs.flatMap byteBits

/-- The bits emitted since the last full byte: the oldest is `ENC_ACC[ENC_N - 1]`, the newest `ENC_ACC[0]` (rule R32). -/
def State.pendingBits (s : State) : List Bool :=
  (List.range s.encN.toNat).map (fun j => s.encAcc.getLsbD (s.encN.toNat - 1 - j))

/-- The encoder's output not yet read by the host, as bits in stream order. -/
def State.outStream (s : State) : List Bool := bytesBits s.outFifo ++ s.pendingBits

/-- The unread bits of the last byte taken from the input FIFO: the next is `DEC_SHIFT[7]` (rule R33). -/
def State.unreadBits (s : State) : List Bool :=
  (List.range s.decAvail.toNat).map (fun j => s.decShift.getLsbD (7 - j))

/-- The decoder's input not yet read, as bits in stream order. -/
def State.inStream (s : State) : List Bool := s.unreadBits ++ bytesBits s.inFifo

/-! ### Paths in the stored tree -/

/-- The branch choices `p` lead from node `i` to node `j`, through internal nodes and past no missing child (rule R170). -/
def IsPath (ns : List Node) : NodeIdx → List Bool → NodeIdx → Prop
  | i, [], j => i = j
  | i, b :: p, j =>
    (nodeOf ns i).isLeaf = false ∧ childOf (nodeOf ns i) b ≠ Config.nil ∧ IsPath ns (childOf (nodeOf ns i) b) p j

/-- `p` is the root path of a leaf that holds symbol `sym`. -/
def IsCodePath (ns : List Node) (root : NodeIdx) (sym : Nat) (p : List Bool) : Prop :=
  ∃ j, IsPath ns root p j ∧ (nodeOf ns j).isLeaf = true ∧ (nodeOf ns j).sym.toNat = sym

/-! ### The invariant -/

/-- The node store holds the tree of the current frequency table (rule R25). -/
abbrev State.TreeCurrent (s : State) : Prop :=
  s.nodes.take s.nodeCount.toNat = (buildTree s.count).nodes ∧
    s.nodeCount.toNat = (buildTree s.count).nodes.length ∧ s.root.toNat = (buildTree s.count).root

/-- The code table holds the codes of the stored tree, and `TOTAL_BITS` their bit count (rule R31). -/
abbrev State.CodesCurrent (s : State) : Prop :=
  s.codes = buildCodes s.nodes s.root ∧
    s.totalBits = BitVec.ofNat 64 (totalBitsOf s.codes (s.nodes.take s.nodeCount.toNat))

/-- `CURSOR` is an internal node of the current tree (rule R35). -/
abbrev State.CursorInternal (s : State) : Prop :=
  s.cursor.toNat < s.nodeCount.toNat ∧ (s.node s.cursor).isLeaf = false

/-- The codes `ERROR.CODE` can hold: 0 and those of rule R251 that something raises; not `EMPTY_ALPHABET` (rule R252) and no reserved
code. -/
def recordableCodes : List (BitVec 8) :=
  [0x00, 0x02, 0x03, 0x04, 0x10, 0x11, 0x12, 0x13, 0x14, 0x15, 0x16, 0x17, 0x18, 0x19]

/-- What holds of the pending command in each phase (rules R37, R193, R194, R213). -/
def State.PendOk (s : State) (p : Pend) : Prop :=
  match p.phase with
  | .validate => p.idx = 0
  | .run =>
    match decode p.word with
    | .ok (.encSym sym) => s.encState = .active ∧ IsReal sym ∧ p.idx < (s.code sym).length
    | .ok .encEof => s.encState = .active ∧ p.idx < (s.code Config.eofSymbol).length
    | .ok .decSym => s.decState = .active
    | _ => False
  | .pad => decode p.word = .ok .encEof ∧ s.encState = .active ∧ 0 < s.encN.toNat

/-- The invariant: rule R35, with what the rules that give each register say of it. -/
structure State.Inv (s : State) : Prop where
  /-- The parameters are in the ranges of rule R6. -/
  params : s.params.Wf
  /-- The frequency table is in its canonical form, and every count fits `COUNT_BITS` (rule R22). -/
  counts : Table.Wf 0 Config.nReal s.count ∧ ∀ e ∈ s.count, e.2.toNat ≤ s.maxCount
  /-- The node store has 513 records (rule R23). -/
  store : s.nodes.length ≤ Config.maxNodes
  /-- The code table is in its canonical form, and every code fits its field (rule R30). -/
  table : Table.Wf [] (Config.eofSymbol + 1) s.codes ∧ ∀ e ∈ s.codes, e.2.length ≤ Config.maxCodeLen
  /-- Rule R25. -/
  tree : s.treeValid = true → s.TreeCurrent
  /-- Rules R31 and R35.1. -/
  codes : s.codeValid = true → s.treeValid = true ∧ s.CodesCurrent
  /-- Rule R35.2. -/
  enc : s.encState = .active → s.codeValid = true
  /-- Rule R35.3. -/
  dec : s.decState = .active → s.treeValid = true ∧ s.CursorInternal
  /-- Rules R32 and R35.4. -/
  encPending : s.encN.toNat ≤ 7 ∧ s.encAcc.toNat < 2 ^ s.encN.toNat
  /-- Rules R33 and R35.4. -/
  decPending : s.decAvail.toNat ≤ 8 ∧ 2 ^ (8 - s.decAvail.toNat) ∣ s.decShift.toNat
  /-- Rule R35.5. -/
  fifos : s.outFifo.length ≤ s.params.outDepth ∧ s.inFifo.length ≤ s.params.inDepth
  /-- Rules R48, R251 and R252: a code that can be recorded, and nothing else set while there is none. -/
  error : s.error.code ∈ recordableCodes ∧ (s.error.code = 0 → s.error = .clear)
  /-- Rule R37. -/
  pend : ∀ p, s.pend = some p → s.PendOk p

/-! ### Running a command by itself -/

/-- The state after one engine step (an engine step always answers a next state). -/
def engineNext (s : State) : State :=
  match engineStep s with
  | .next t => t
  | .fault _ => s
  | .refused _ => s

/-- The state after `k` engine steps with no step of another agent between them. -/
def engineRun : Nat → State → State
  | 0, s => s
  | k + 1, s => engineRun k (engineNext s)

/-- A command issued while idle (rule R107), then `k` engine steps. -/
def runCommand (k : Nat) (i : Instr) (s : State) : State := engineRun k (s.issue (encode i))

/-- One stream: `ENC_START`, an `ENC_SYM` for each symbol of `syms`, and `ENC_EOF`, each run by itself for as many engine steps as its
code has bits and one, or two, more (rules R195, R298). -/
def encodeStream (syms : List Nat) (s : State) : State :=
  runCommand (2 + (s.code 256).length) .encEof
    (syms.foldl (fun u k => runCommand (1 + (s.code k).length) (.encSym k) u) (runCommand 1 .encStart s))

/-- `DEC_START`, with the bytes of a stream then in the input FIFO (rule R214). -/
def startDecoding (bytes : List Byte) (s : State) : State := { runCommand 1 .decStart s with inFifo := bytes }

/-- A `DEC_SYM` for each symbol of `syms`, each run by itself for as many engine steps as that symbol's code has bits, and one more
(rules R214, R298). -/
def decodeSymbols (code : Nat → List Bool) (syms : List Nat) (s : State) : State :=
  syms.foldl (fun u k => runCommand (1 + (code k).length) .decSym u) s

/-- The commands that run steps follow (rule R109). -/
def streaming : Instr → Bool
  | .encSym _ => true
  | .encEof => true
  | .decSym => true
  | .nop => false
  | .freqClear => false
  | .freqInc _ => false
  | .freqWrite _ => false
  | .freqRead _ => false
  | .treeBuild => false
  | .nodeRead _ => false
  | .codeBuild => false
  | .codeRead _ _ => false
  | .encStart => false
  | .decStart => false

/-! ### Command words -/

/-- `w` is a word of opcode `op` with operand `k` and nothing else in it (rules R101, R102). -/
def IsOperandWord (op : BitVec 8) (k : Nat) (w : Word) : Prop :=
  opField w = op ∧ (opndField w).toNat = k ∧ rsvField w = 0 ∧ auxField w = 0

/-! ### Other trees over the same symbols (rule R157) -/

/-- A binary tree with symbols at its leaves. -/
inductive PrefixTree where
  | leaf (sym : Nat)
  | node (zero one : PrefixTree)
deriving DecidableEq, Repr

/-- The symbols at the leaves. -/
def PrefixTree.symbols : PrefixTree → List Nat
  | .leaf k => [k]
  | .node z o => z.symbols ++ o.symbols

/-- The weighted depth sum of a tree whose root is at depth `d`: over the leaves, weight times depth (rule R157). -/
def PrefixTree.weightedDepth (weight : Nat → Nat) : PrefixTree → Nat → Nat
  | .leaf k, d => weight k * d
  | .node z o, d => z.weightedDepth weight (d + 1) + o.weightedDepth weight (d + 1)

/-! ### Progress (rule R299) -/

/-- A bound on the engine steps the pending command still takes where it is not held: one for its validation, then one a bit of the code
left to emit, and the padding step; or one a level of the tree below the cursor. -/
def State.stepsLeft (s : State) : Nat :=
  match s.pend with
  | none => 0
  | some p =>
    match p.phase, decode p.word with
    | .validate, _ => 1030
    | .run, .ok (.encSym k) => (s.code k).length + 2 - p.idx
    | .run, .ok .encEof => (s.code Config.eofSymbol).length + 2 - p.idx
    | .run, .ok .decSym => s.cursor.toNat + 1
    | .run, _ => 1
    | .pad, _ => 1

/-! ### Runs -/

/-- The state after `k` steps of the machine, or where it stops before them. -/
def runFrom : Nat → State → State
  | 0, s => s
  | k + 1, s =>
    match step s with
    | .next t => runFrom k t
    | .fault _ => s
    | .refused _ => s

/-- The machine stops here, with a fault or a refusal. -/
def State.Stops (s : State) : Prop := ∀ t, step s ≠ .next t

/-- A run is over when the host has executed its last statement and nothing is pending (rule R235). -/
def State.runOver (s : State) : Bool := s.hostStmt.isNone && !s.busy

/-- A run is failed when `ERROR.CODE != 0` at its end (rule R235). -/
def State.runFailed (s : State) : Bool := s.runOver && s.err

/-- A run that, but for a reset, can never be over: the host has ended, and the engine is held (rules R85, R235). -/
def State.stuck (s : State) : Bool := s.hostStmt.isNone && s.busy && !s.engineReady

end Sys2Proof.Machine
end

