-- ==== Sys2Proof/Certificates/Slice0/Obligations.lean ====
section
/-! DEFINITION. The statements for the provers: what the rules of spec/ say the commands, the engine, the host's window and the whole
machine do. -/

open Sys2Proof Sys2Proof.Machine

/-! ### The command word (30_encoding.md) -/

/-- Rules R101 to R104: decoding the word of a well-formed command gives the command back, whatever its operands. -/
def Obligations.DecodeOfEncode : Prop :=
  ∀ i : Instr, i.WellFormed → decode (encode i) = .ok i

/-- Rules R101 to R105: a word that decodes is the word of a well-formed command, bit for bit. -/
def Obligations.DecodedWordIsItsEncoding : Prop :=
  ∀ (w : Word) (i : Instr), decode w = .ok i → i.WellFormed ∧ encode i = w

/-- Rules R104 and R105: a legal word matches the one row of its command and no other; an illegal word matches no row. -/
def Obligations.LegalWordMatchesOneRow : Prop :=
  ∀ w : Word, (∀ i, decode w = .ok i → rowsMatched w = [(i.rowMask, i.rowMatch)]) ∧
    (∀ e, decode w = .error e → rowsMatched w = [])

/-- Rule R114: the words written out there are those of the commands they stand for, and decode to them. -/
def Obligations.WordsOfRule114Decode : Prop :=
  (encode (.freqInc 0x61) = 0x00006102 ∧ decode 0x00006102 = .ok (.freqInc 0x61)) ∧
    (encode (.freqWrite 256) = 0x00010003 ∧ decode 0x00010003 = .ok (.freqWrite 256)) ∧
    (encode (.nodeRead 6) = 0x00000609 ∧ decode 0x00000609 = .ok (.nodeRead 6)) ∧
    (encode (.codeRead 0 1) = 0x0100000D ∧ decode 0x0100000D = .ok (.codeRead 0 1)) ∧
    (encode (.codeRead 256 0) = 0x0001000D ∧ decode 0x0001000D = .ok (.codeRead 256 0)) ∧
    (encode (.encSym 0x0A) = 0x00000A11 ∧ decode 0x00000A11 = .ok (.encSym 0x0A)) ∧
    (encode .decSym = 0x00000019 ∧ decode 0x00000019 = .ok .decSym)

/-! ### The steps of the machine (00_scope.md section 6, 30_encoding.md section 5) -/

/-- Rules R10, R11, R12 and R108: a step of the machine is a step of the first agent in the order that has one, on the state with that turn
taken from it; on the engine's turn, where the pending word decodes to a command, it is the command's meaning.  The engine has a step
while a command is pending and not held, the host until its program has ended (at a branch too, DESIGN CHOICE, log 23); the turn of an
agent that has none is passed over.  That
the order is a list in the state, which goes on, where it has run out, with a free draw of turns and then the engine's, and, where
nobody in those has a step, with the host's, is the model's form of "any agent that has a step may take it next" and of the engine's
fairness (DESIGN CHOICE, log 3); that the machine answers a next state where no agent steps is DEDUCED (log 10). -/
def Obligations.StepRunsTheDecodedCommand : Prop :=
  ∀ (s : State) (rest : List Agent),
    (∀ (p : Pend) (i : Instr), s.sched = .engine :: rest → s.pend = some p → decode p.word = .ok i →
      s.waitOut = false → s.waitIn = false → step s = exec i { s with sched := rest }) ∧
    (s.sched = .engine :: rest → s.busy = true → s.waitOut = false → s.waitIn = false →
      step s = engineStep { s with sched := rest }) ∧
    (s.sched = .host :: rest → s.hostStmt ≠ none → step s = hostStep { s with sched := rest }) ∧
    (s.sched = .reset :: rest → step s = .next ({ s with sched := rest } : State).resetEvent) ∧
    (s.sched = .engine :: rest → s.busy = false ∨ s.waitOut = true ∨ s.waitIn = true →
      step s = step { s with sched := rest }) ∧
    (s.sched = .host :: rest → s.hostStmt = none → step s = step { s with sched := rest }) ∧
    (s.hasStep .engine = (s.busy && !s.waitOut && !s.waitIn) ∧ s.hasStep .host = s.hostStmt.isSome ∧ s.hasStep .reset = true) ∧
    ∀ turns, s.sched = [] → turns = Config.freeTurns s.draws ++ [.engine] → step s =
      if turns.any s.hasStep then step { s with sched := turns, draws := s.draws + 1 }
      else if s.hostStmt ≠ none then hostStep { s with draws := s.draws + 1 }
      else .next { s with draws := s.draws + 1 }

/-- Rules R105, R108, R255 and R256: an illegal word raises `ILLEGAL_CMD`, with the word's `CMD[17:8]` as `INFO` and its `CMD[7:0]` as
`SRC`, completes, and has no other effect. -/
def Obligations.IllegalWordRaisesOnly : Prop :=
  ∀ (s : State) (p : Pend) (e : Illegal), s.pend = some p → decode p.word = .error e →
    engineStep s = .next { s with
      error := s.error.record .illegalCmd (p.word.extractLsb' 0 8) (p.word.extractLsb' 8 10), pend := none }

/-- Rule R107: a host write of `CMD` while idle makes the word pending, in phase `VALIDATE` with `IDX = 0`, and checks nothing; while
busy it is dropped with `BUSY_WRITE`. -/
def Obligations.CmdWriteIssues : Prop :=
  ∀ (s : State) (w : Word),
    (s.busy = false → s.writeReg .cmd w = { s with pend := some { word := w, phase := .validate, idx := 0 } } ∧
      (s.writeReg .cmd w).busy = true) ∧
    (s.busy = true → s.writeReg .cmd w = { s with error := s.error.record .busyWrite 0xFF 0x0C })

/-- Rules R250 and R268 (60_exceptions.md): an engine step always answers a next state.  Rule R10 gives the engine a step only while
`BUSY = 1`, and no step of the machine takes one elsewhere; that the function answers the same state there is the model's DEDUCED choice
(log 10). -/
def Obligations.EngineNeverStops : Prop :=
  ∀ s : State, (∃ t, engineStep s = .next t) ∧ (s.pend = none → engineStep s = .next s)

/-- Rules R11, R42, R85, R190, R191 and R210: in a state of the invariant, `WAIT_OUT` is 1 exactly where `ENC_SYM` or `ENC_EOF` would
complete a byte that has no room, or pad one; `WAIT_IN` is 1 exactly where `DEC_SYM` finds no bit, no byte and no end of input; and while
a command is pending, an engine step changes nothing exactly where one of the two is 1. -/
def Obligations.HeldExactlyWhereWaitSays : Prop :=
  ∀ s : State, s.Inv →
    (s.waitOut = true ↔ s.outFifo.length = s.params.outDepth ∧ ∃ p, s.pend = some p ∧
      ((p.phase = .run ∧ s.encN = 7 ∧ ((∃ k, decode p.word = .ok (.encSym k)) ∨ decode p.word = .ok .encEof)) ∨
        (p.phase = .pad ∧ decode p.word = .ok .encEof))) ∧
    (s.waitIn = true ↔ (s.decAvail = 0 ∧ s.inFifo = [] ∧ s.inEnd = false) ∧
      ∃ p, s.pend = some p ∧ p.phase = .run ∧ decode p.word = .ok .decSym) ∧
    (s.busy = true → (engineStep s = .next s ↔ (s.waitOut = true ∨ s.waitIn = true)))

/-- Rules R109 and R298: a legal command that is not streaming completes in its first engine step, whatever it answers. -/
def Obligations.SingleStepCommandsComplete : Prop :=
  ∀ (i : Instr) (s : State), streaming i = false → ∃ t, exec i s = .next t ∧ t.busy = false

/-! ### Control and frequency commands (45_control.md, 40_frequency.md) -/

/-- Rule R230: `NOP` completes and changes nothing else; its word is the zero word only, and every other word with `OP = 0x00` is
illegal. -/
def Obligations.NopOnlyCompletes : Prop :=
  (∀ s : State, exec .nop s = .next { s with pend := none }) ∧ (∀ w : Word, decode w = .ok .nop ↔ w = 0) ∧
    ∀ w : Word, opField w = 0 → w ≠ 0 → ∃ e, decode w = .error e

/-- Rules R62 and R130: `FREQ_CLEAR`. -/
def Obligations.FreqClearEmptiesTheTable : Prop :=
  (∀ w : Word, decode w = .ok .freqClear ↔ w = 0x00000001) ∧ ∀ s : State, ∃ t, exec .freqClear s = .next t ∧
    t = { s with count := t.count, treeValid := false, codeValid := false, encState := .idle, decState := .idle, pend := none } ∧
    (∀ k, k < 256 → t.countAt k = 0) ∧ t.countAt 256 = 1

/-- Rules R22, R62 and R131: `FREQ_INC`, its checks in order and its effect. -/
def Obligations.FreqIncCountsOne : Prop :=
  ∀ (k : Nat) (s : State),
    (∀ w : Word, decode w = .ok (.freqInc k) ↔ IsOperandWord 0x02 k w) ∧
    (256 ≤ k → exec (.freqInc k) s =
      .next { s with error := s.error.record .badSymbol s.pendOp (BitVec.ofNat 10 k), pend := none }) ∧
    (k < 256 → (s.countAt k).toNat = 2 ^ s.params.countBits - 1 → exec (.freqInc k) s =
      .next { s with error := s.error.record .countOverflow s.pendOp (BitVec.ofNat 10 k), pend := none }) ∧
    (k < 256 → (s.countAt k).toNat ≠ 2 ^ s.params.countBits - 1 → ∃ t, exec (.freqInc k) s = .next t ∧
      t = { s with count := t.count, treeValid := false, codeValid := false, encState := .idle, decState := .idle, pend := none } ∧
      ∀ j, t.countAt j = if j = k then s.countAt k + 1 else s.countAt j)

/-- Rules R22, R62 and R132: `FREQ_WRITE`, its checks in order and its effect; `FREQ_WRITE EOF` stores nothing and still invalidates. -/
def Obligations.FreqWriteSetsTheCount : Prop :=
  ∀ (k : Nat) (s : State),
    (∀ w : Word, decode w = .ok (.freqWrite k) ↔ IsOperandWord 0x03 k w) ∧
    (256 < k → exec (.freqWrite k) s =
      .next { s with error := s.error.record .badSymbol s.pendOp (BitVec.ofNat 10 k), pend := none }) ∧
    (k = 256 → s.dataLo ≠ 1 → exec (.freqWrite k) s =
      .next { s with error := s.error.record .malformedHeader s.pendOp (BitVec.ofNat 10 k), pend := none }) ∧
    (k < 256 → 2 ^ s.params.countBits ≤ s.dataLo.toNat → exec (.freqWrite k) s =
      .next { s with error := s.error.record .countOverflow s.pendOp (BitVec.ofNat 10 k), pend := none }) ∧
    (k = 256 → s.dataLo = 1 → exec (.freqWrite k) s =
      .next { s with treeValid := false, codeValid := false, encState := .idle, decState := .idle, pend := none }) ∧
    (k < 256 → s.dataLo.toNat < 2 ^ s.params.countBits → ∃ t, exec (.freqWrite k) s = .next t ∧
      t = { s with count := t.count, treeValid := false, codeValid := false, encState := .idle, decState := .idle, pend := none } ∧
      ∀ j, t.countAt j = if j = k then s.dataLo else s.countAt j)

/-- Rules R22 and R133: `FREQ_READ`; `FREQ_READ EOF` reads 1 always. -/
def Obligations.FreqReadReadsTheCount : Prop :=
  ∀ (k : Nat) (s : State),
    (∀ w : Word, decode w = .ok (.freqRead k) ↔ IsOperandWord 0x04 k w) ∧
    (256 < k → exec (.freqRead k) s =
      .next { s with error := s.error.record .badSymbol s.pendOp (BitVec.ofNat 10 k), pend := none }) ∧
    (k ≤ 256 → exec (.freqRead k) s = .next { s with dataLo := s.countAt k, dataHi := 0, pend := none }) ∧
    s.countAt 256 = 1

/-- Rule R134: after `FREQ_CLEAR` and one `FREQ_INC` for each symbol of an input, in any order, none of which overflows, each count is
the number of occurrences, the counts add up to the input's length, and no error has been recorded. -/
def Obligations.FrequencyConservation : Prop :=
  ∀ (s t : State) (input : List Nat), (∀ k ∈ input, k < 256) → (∀ k, input.count k < 2 ^ s.params.countBits) →
    s.params.countBits ≤ 32 →
    t = input.foldl (fun u k => runCommand 1 (.freqInc k) u) (runCommand 1 .freqClear s) →
    (∀ k, k < 256 → (t.countAt k).toNat = input.count k) ∧
    ((List.range 256).map (fun k => (t.countAt k).toNat)).sum = input.length ∧ t.error = s.error

/-! ### Tree commands (41_tree.md) -/

/-- Rule R154: `TREE_BUILD` always completes; it validates the tree, invalidates what was derived from the old one, and sets the cursor
to the root, which is the last record and an internal node; records past the new tree keep their contents. -/
def Obligations.TreeBuildEffect : Prop :=
  (∀ w : Word, decode w = .ok .treeBuild ↔ w = 0x00000008) ∧ ∀ s : State, ∃ t, exec .treeBuild s = .next t ∧
    t = { s with nodes := t.nodes, nodeCount := t.nodeCount, root := t.root, cursor := t.root, treeValid := true,
                 codeValid := false, encState := .idle, decState := .idle, pend := none } ∧
    t.root.toNat + 1 = t.nodeCount.toNat ∧ t.nodeCount.toNat ≤ t.nodes.length ∧ (t.node t.root).isLeaf = false ∧
    ∀ i, t.nodeCount.toNat ≤ i → t.nodes[i]? = s.nodes[i]?

/-- Rules R21, R26 and R150: the leaves are the present symbols in ascending order, `EOF_SYMBOL` last, at the indices from 0; the tree has
`2L - 1` records, or 2 where only `EOF_SYMBOL` is present. -/
def Obligations.LeavesInSymbolOrder : Prop :=
  ∀ (s t : State) (syms : List Nat), exec .treeBuild s = .next t →
    syms = (List.range 257).filter (fun k => k = 256 ∨ s.countAt k ≠ 0) →
    1 ≤ syms.length ∧ syms.length ≤ 257 ∧
    t.nodeCount.toNat = (if syms.length = 1 then 2 else 2 * syms.length - 1) ∧ t.nodeCount.toNat ≤ 513 ∧
    ∀ (i : NodeIdx) (h : i.toNat < syms.length),
      t.node i = { sym := BitVec.ofNat 9 syms[i.toNat], weight := (s.countAt syms[i.toNat]).setWidth 41,
                   zero := Config.nil, one := Config.nil }

/-- Rules R24, R152 and R154: where two symbols or more are present, every record past the leaves is an internal node whose two children
stand before it, whose weight is the exact sum of theirs, and whose zero child is no heavier than its one child. -/
def Obligations.InternalNodesJoinEarlierNodes : Prop :=
  ∀ (s t : State), exec .treeBuild s = .next t → 2 ≤ (presentSymbols s.count).length →
    ∀ i : NodeIdx, (presentSymbols s.count).length ≤ i.toNat → i.toNat < t.nodeCount.toNat →
      (t.node i).sym = Config.internal ∧ (t.node i).zero.toNat < i.toNat ∧ (t.node i).one.toNat < i.toNat ∧
      (t.node i).weight.toNat = (t.node (t.node i).zero).weight.toNat + (t.node (t.node i).one).weight.toNat ∧
      (t.node (t.node i).zero).weight.toNat ≤ (t.node (t.node i).one).weight.toNat

/-- Rules R151 and R152: at each merge the zero child and the one child are two nodes that no earlier merge has taken and, in this order,
the first two of those: a node comes before another where its weight is less, or the weights are equal and its index is smaller. -/
def Obligations.EachMergeTakesTheTwoFirst : Prop :=
  ∀ (s t : State), exec .treeBuild s = .next t → 2 ≤ (presentSymbols s.count).length →
    ∀ m : NodeIdx, (presentSymbols s.count).length ≤ m.toNat → m.toNat < t.nodeCount.toNat →
      ((t.node (t.node m).zero).weight.toNat < (t.node (t.node m).one).weight.toNat ∨
        ((t.node (t.node m).zero).weight.toNat = (t.node (t.node m).one).weight.toNat ∧
          (t.node m).zero.toNat < (t.node m).one.toNat)) ∧
      (∀ m' : NodeIdx, (presentSymbols s.count).length ≤ m'.toNat → m'.toNat < m.toNat →
        (t.node m').zero ≠ (t.node m).zero ∧ (t.node m').one ≠ (t.node m).zero ∧
          (t.node m').zero ≠ (t.node m).one ∧ (t.node m').one ≠ (t.node m).one) ∧
      ∀ j : NodeIdx, j.toNat < m.toNat → j ≠ (t.node m).zero → j ≠ (t.node m).one →
        (∀ m' : NodeIdx, (presentSymbols s.count).length ≤ m'.toNat → m'.toNat < m.toNat →
          (t.node m').zero ≠ j ∧ (t.node m').one ≠ j) →
        (t.node (t.node m).one).weight.toNat < (t.node j).weight.toNat ∨
          ((t.node (t.node m).one).weight.toNat = (t.node j).weight.toNat ∧ (t.node m).one.toNat < j.toNat)

/-- Rule R153: the tree of a table in which no real symbol is present. -/
def Obligations.OneLeafTree : Prop :=
  ∀ (s t : State), exec .treeBuild s = .next t → (∀ k, k < 256 → s.countAt k = 0) →
    t.nodeCount = 2 ∧ t.root = 1 ∧
    t.node 0 = { sym := 256, weight := 1, zero := Config.nil, one := Config.nil } ∧
    t.node 1 = { sym := Config.internal, weight := 1, zero := 0, one := Config.nil }

/-- Rule R28: the root's weight is the sum of all the counts and the 1 of `EOF_SYMBOL`; no weight sum overflows. -/
def Obligations.RootWeighsAllCounts : Prop :=
  ∀ (s t : State), exec .treeBuild s = .next t →
    (t.node t.root).weight.toNat = ((List.range 256).map (fun k => (s.countAt k).toNat)).sum + 1

/-- Rule R156: every present symbol has a leaf below the root, by one path only, and no other symbol has one; no leaf lies on the path
to another. -/
def Obligations.LeafPathsAreUniqueAndPrefixFree : Prop :=
  ∀ (s t : State), exec .treeBuild s = .next t →
    (∀ k, (∃ p, IsCodePath t.nodes t.root k p) ↔ (k = 256 ∨ (k < 256 ∧ s.countAt k ≠ 0))) ∧
    (∀ k p q, IsCodePath t.nodes t.root k p → IsCodePath t.nodes t.root k q → p = q) ∧
    (∀ j k p q, IsCodePath t.nodes t.root j p → IsCodePath t.nodes t.root k q → p <+: q → j = k)

/-- Rule R158: the tree depends on the counts alone. -/
def Obligations.TreeDependsOnCountsOnly : Prop :=
  ∀ (s s' t t' : State), (∀ k, k < 256 → s.countAt k = s'.countAt k) →
    exec .treeBuild s = .next t → exec .treeBuild s' = .next t' →
    t.nodeCount = t'.nodeCount ∧ t.root = t'.root ∧ ∀ i : NodeIdx, i.toNat < t.nodeCount.toNat → t.node i = t'.node i

/-- Rule R157: where two symbols or more are present, no binary tree over the present symbols has a smaller weighted depth sum than the
codes of the tree built. -/
def Obligations.BuiltTreeIsOptimal : Prop :=
  ∀ (s t u : State) (other : PrefixTree), 2 ≤ (presentSymbols s.count).length → exec .treeBuild s = .next t →
    exec .codeBuild t = .next u → other.symbols.Perm (presentSymbols s.count) →
    ((presentSymbols s.count).map (fun k => (s.countAt k).toNat * (u.code k).length)).sum ≤
      other.weightedDepth (fun k => (s.countAt k).toNat) 0

/-- Rules R46, R47 and R155: `NODE_READ`, its checks in order and its effect, field by field. -/
def Obligations.NodeReadShowsTheRecord : Prop :=
  ∀ (i : Nat) (s : State),
    (∀ w : Word, decode w = .ok (.nodeRead i) ↔ IsOperandWord 0x09 i w) ∧
    (s.treeValid = false → exec (.nodeRead i) s =
      .next { s with error := s.error.record .noTree s.pendOp (BitVec.ofNat 10 i), pend := none }) ∧
    (s.treeValid = true → s.nodeCount.toNat ≤ i → exec (.nodeRead i) s =
      .next { s with error := s.error.record .badIndex s.pendOp (BitVec.ofNat 10 i), pend := none }) ∧
    (s.treeValid = true → i < s.nodeCount.toNat → ∃ t, exec (.nodeRead i) s = .next t ∧
      t = { s with result := t.result, link := t.link, dataLo := t.dataLo, dataHi := t.dataHi, pend := none } ∧
      t.result = BitVec.ofBool (s.node (BitVec.ofNat 10 i)).isLeaf ++ 0#22 ++ (s.node (BitVec.ofNat 10 i)).sym ∧
      t.link = 0#6 ++ (s.node (BitVec.ofNat 10 i)).one ++ 0#6 ++ (s.node (BitVec.ofNat 10 i)).zero ∧
      t.dataHi.toNat * 2 ^ 32 + t.dataLo.toNat = (s.node (BitVec.ofNat 10 i)).weight.toNat)

/-! ### Code-table commands (42_codetable.md) -/

/-- Rule R172: `CODE_BUILD`, its check and its effect on the registers; the node store and the decoder are unchanged. -/
def Obligations.CodeBuildEffect : Prop :=
  ∀ s : State,
    (∀ w : Word, decode w = .ok .codeBuild ↔ w = 0x0000000C) ∧
    (s.treeValid = false → exec .codeBuild s = .next { s with error := s.error.record .noTree s.pendOp 0, pend := none }) ∧
    (s.treeValid = true → ∃ t, exec .codeBuild s = .next t ∧
      t = { s with codes := t.codes, totalBits := t.totalBits, codeValid := true, encState := .idle, pend := none })

/-- Rule R170: in a state of the invariant, `CODE_BUILD` gives every present symbol the root path of its leaf as its code, and every
other symbol `len = 0`. -/
def Obligations.CodesAreRootPaths : Prop :=
  ∀ (s t : State), s.Inv → s.treeValid = true → exec .codeBuild s = .next t →
    ∀ k, (present s.count k = true → IsCodePath s.nodes s.root k (t.code k)) ∧ (present s.count k = false → t.code k = [])

/-- Rule R174: no code is a prefix of another. -/
def Obligations.CodesArePrefixFree : Prop :=
  ∀ s : State, s.Inv → s.codeValid = true →
    ∀ j k, s.code j ≠ [] → s.code k ≠ [] → s.code j <+: s.code k → j = k

/-- Rules R29, R30 and R175: a symbol has a code of at least one bit exactly where it is present, `EOF_SYMBOL` always, and no code is
longer than 256 bits. -/
def Obligations.PresentSymbolsHaveCodes : Prop :=
  ∀ s : State, s.Inv → s.codeValid = true →
    (∀ k, 1 ≤ (s.code k).length ↔ (k = 256 ∨ (k < 256 ∧ s.countAt k ≠ 0))) ∧ 1 ≤ (s.code 256).length ∧
    ∀ k, (s.code k).length ≤ 256

/-- Rule R171: `TOTAL_BITS` is the weighted sum of the code lengths, and it does not wrap. -/
def Obligations.TotalBitsIsTheWeightedSum : Prop :=
  ∀ s : State, s.Inv → s.codeValid = true →
    s.totalBits.toNat = ((List.range 257).map (fun k => (s.countAt k).toNat * (s.code k).length)).sum ∧
    s.totalBits.toNat < 2 ^ 48

/-- Rules R46, R103 and R173: `CODE_READ`, its checks in order and its effect, bit by bit. -/
def Obligations.CodeReadShowsTheCode : Prop :=
  ∀ (k w : Nat) (s : State),
    (∀ cmd : Word, decode cmd = .ok (.codeRead k w) ↔ (opField cmd = 0x0D ∧ (opndField cmd).toNat = k ∧ rsvField cmd = 0 ∧
      (cmd.extractLsb' 24 3).toNat = w ∧ cmd.extractLsb' 27 5 = 0)) ∧
    (s.codeValid = false → exec (.codeRead k w) s =
      .next { s with error := s.error.record .noCodes s.pendOp (BitVec.ofNat 10 k), pend := none }) ∧
    (s.codeValid = true → 256 < k → exec (.codeRead k w) s =
      .next { s with error := s.error.record .badSymbol s.pendOp (BitVec.ofNat 10 k), pend := none }) ∧
    (s.codeValid = true → k ≤ 256 → ∃ t, exec (.codeRead k w) s = .next t ∧
      t = { s with result := BitVec.ofNat 32 (s.code k).length, dataLo := t.dataLo, dataHi := 0, pend := none } ∧
      ∀ j, j < 32 → t.dataLo.getLsbD (31 - j) =
        if 32 * w + j < (s.code k).length then (s.code k).getD (32 * w + j) false else false)

/-! ### Encoder commands (43_encoder.md) -/

/-- Rule R192: `ENC_START`. -/
def Obligations.EncStartBegins : Prop :=
  ∀ s : State,
    (∀ w : Word, decode w = .ok .encStart ↔ w = 0x00000010) ∧
    (s.codeValid = false → exec .encStart s = .next { s with error := s.error.record .noCodes s.pendOp 0, pend := none }) ∧
    (s.codeValid = true → exec .encStart s =
      .next { s with encState := .active, encAcc := 0, encN := 0, encBits := 0, pend := none })

/-- Rules R193, R194, R213 and R257: the validation steps of the streaming commands, their checks in order; a word that passes them goes
to phase `RUN` and nothing else changes. -/
def Obligations.StreamingValidation : Prop :=
  ∀ (s : State) (p : Pend), s.pend = some p → p.phase = .validate →
    (∀ k, s.encState ≠ .active → exec (.encSym k) s =
      .next { s with error := s.error.record .badState s.pendOp (BitVec.ofNat 10 k), pend := none }) ∧
    (∀ k, s.encState = .active → 256 ≤ k → exec (.encSym k) s =
      .next { s with error := s.error.record .badSymbol s.pendOp (BitVec.ofNat 10 k), encState := .failed, pend := none }) ∧
    (∀ k, s.encState = .active → k < 256 → s.code k = [] → exec (.encSym k) s =
      .next { s with error := s.error.record .unknownSymbol s.pendOp (BitVec.ofNat 10 k), encState := .failed, pend := none }) ∧
    (∀ k, s.encState = .active → k < 256 → s.code k ≠ [] → exec (.encSym k) s =
      .next { s with pend := some { word := p.word, phase := .run, idx := 0 } }) ∧
    (s.encState ≠ .active → exec .encEof s = .next { s with error := s.error.record .badState s.pendOp 0, pend := none }) ∧
    (s.encState = .active → exec .encEof s = .next { s with pend := some { word := p.word, phase := .run, idx := 0 } }) ∧
    (s.decState ≠ .active → exec .decSym s = .next { s with error := s.error.record .badState s.pendOp 0, pend := none }) ∧
    (s.decState = .active → exec .decSym s = .next { s with pend := some { word := p.word, phase := .run, idx := 0 } })

/-- Rules R79, R190, R193 and R194: a run step of `ENC_SYM` or `ENC_EOF` is held, and changes nothing, where it would complete a byte that
has no room in the FIFO; elsewhere it appends one code bit to the stream and counts it, and `ENC_SYM` completes after its last bit, and
`ENC_EOF` then ends the stream or goes to phase `PAD`. -/
def Obligations.RunStepEmitsOneBit : Prop :=
  ∀ (s : State) (p : Pend), s.pend = some p → p.phase = .run → s.encN.toNat ≤ 7 → s.encAcc.toNat < 2 ^ s.encN.toNat →
    (s.encN = 7 ∧ s.outFifo.length = s.params.outDepth →
      (∀ k, exec (.encSym k) s = .next s) ∧ exec .encEof s = .next s) ∧
    (¬ (s.encN = 7 ∧ s.outFifo.length = s.params.outDepth) →
      (∀ k, ∃ t, exec (.encSym k) s = .next t ∧
        t = { s with outFifo := t.outFifo, encAcc := t.encAcc, encN := t.encN, encBits := s.encBits + 1,
                     pend := if p.idx + 1 = (s.code k).length then none else some { p with idx := p.idx + 1 } } ∧
        t.outStream = s.outStream ++ [(s.code k).getD p.idx false] ∧
        t.encN.toNat ≤ 7 ∧ t.encAcc.toNat < 2 ^ t.encN.toNat) ∧
      (∃ t, exec .encEof s = .next t ∧
        t = { s with outFifo := t.outFifo, encAcc := t.encAcc, encN := t.encN, encBits := s.encBits + 1,
                     encState := t.encState, pend := t.pend } ∧
        t.outStream = s.outStream ++ [(s.code 256).getD p.idx false] ∧
        t.encN.toNat ≤ 7 ∧ t.encAcc.toNat < 2 ^ t.encN.toNat ∧
        (p.idx + 1 ≠ (s.code 256).length → t.encState = s.encState ∧ t.pend = some { p with idx := p.idx + 1 }) ∧
        (p.idx + 1 = (s.code 256).length → t.encN = 0 → t.encState = .done ∧ t.pend = none) ∧
        (p.idx + 1 = (s.code 256).length → t.encN ≠ 0 →
          t.encState = s.encState ∧ t.pend = some { word := p.word, phase := .pad, idx := p.idx + 1 })))

/-- Rules R191 and R194: the padding step pushes the pending bits followed by zeros up to the byte, does not count them, and ends the
stream; it is held where the FIFO is full. -/
def Obligations.PaddingStep : Prop :=
  ∀ (s : State) (p : Pend), s.pend = some p → p.phase = .pad → 0 < s.encN.toNat → s.encN.toNat ≤ 7 →
    s.encAcc.toNat < 2 ^ s.encN.toNat →
    (s.outFifo.length = s.params.outDepth → exec .encEof s = .next s) ∧
    (s.outFifo.length ≠ s.params.outDepth → ∃ t, exec .encEof s = .next t ∧
      t = { s with outFifo := t.outFifo, encAcc := 0, encN := 0, encState := .done, pend := none } ∧
      t.outStream = s.outStream ++ List.replicate (8 - s.encN.toNat) false ∧ t.outFifo.length = s.outFifo.length + 1)

/-- Rules R193 and R298: `ENC_SYM` of a symbol with a code, issued while the encoder is `ACTIVE`, completes after `1 + len` engine steps
where the FIFO has room, having appended the symbol's code to the stream and counted its bits, and changed nothing else. -/
def Obligations.EncSymAppendsTheCode : Prop :=
  ∀ (s t : State) (k : Nat), s.Inv → s.busy = false → s.encState = .active → k < 256 → s.code k ≠ [] →
    8 * s.outFifo.length + s.encN.toNat + (s.code k).length ≤ 8 * s.params.outDepth →
    t = runCommand (1 + (s.code k).length) (.encSym k) s →
    t.busy = false ∧ t.outStream = s.outStream ++ s.code k ∧ t.encBits = s.encBits + BitVec.ofNat 64 (s.code k).length ∧
    t = { s with outFifo := t.outFifo, encAcc := t.encAcc, encN := t.encN, encBits := t.encBits }

/-- Rules R194 and R195: a stream.  The symbols of `syms`, each with a code, encoded one after the other from `ENC_START` on an empty
FIFO with room for the stream, and then `ENC_EOF`, each run to its end, leave in the FIFO exactly the codes in order, the code of
`EOF_SYMBOL`, and zero bits up to the byte. -/
def Obligations.EncodedStreamContent : Prop :=
  ∀ (s t : State) (syms : List Nat), s.Inv → s.busy = false → s.codeValid = true → s.outFifo = [] →
    (∀ k ∈ syms, k < 256 ∧ s.code k ≠ []) →
    (syms.flatMap s.code ++ s.code 256).length ≤ 8 * s.params.outDepth → t = encodeStream syms s →
    t.busy = false ∧ t.encState = .done ∧ t.error = s.error ∧
    t.encBits = BitVec.ofNat 64 (syms.flatMap s.code ++ s.code 256).length ∧
    ∃ z, z < 8 ∧ bytesBits t.outFifo = syms.flatMap s.code ++ s.code 256 ++ List.replicate z false

/-- Rules R171 and R196: where the symbols encoded are the input that was counted, the code bits of the stream are `TOTAL_BITS`. -/
def Obligations.BitCountAgreement : Prop :=
  ∀ (s : State) (input : List Nat), s.Inv → s.codeValid = true → (∀ k ∈ input, k < 256) →
    (∀ k, k < 256 → input.count k = (s.countAt k).toNat) →
    (input.flatMap s.code ++ s.code 256).length = s.totalBits.toNat

/-! ### Decoder commands (44_decoder.md) -/

/-- Rule R212: `DEC_START`. -/
def Obligations.DecStartBegins : Prop :=
  ∀ s : State,
    (∀ w : Word, decode w = .ok .decStart ↔ w = 0x00000018) ∧
    (s.treeValid = false → exec .decStart s = .next { s with error := s.error.record .noTree s.pendOp 0, pend := none }) ∧
    (s.treeValid = true → exec .decStart s =
      .next { s with cursor := s.root, decShift := 0, decAvail := 0, decBits := 0, decState := .active, pend := none })

/-- Rules R79, R84, R210 and R211: a walk step of `DEC_SYM`.  With a bit in the input stream it takes that bit, counts it, and goes to the
child it selects: a missing child raises `INVALID_PATH`, the `EOF_SYMBOL` leaf ends the stream, another leaf is the command's result and
the cursor goes back to the root, and an internal node is walked on from.  With no bit, it raises `TRUNCATED_STREAM` where `IN_END` is
set, and is held where it is not. -/
def Obligations.WalkStepFollowsTheBit : Prop :=
  ∀ (s : State) (p : Pend), s.pend = some p → p.phase = .run → s.decAvail.toNat ≤ 8 →
    (s.inStream = [] → s.inEnd = true → exec .decSym s =
      .next { s with error := s.error.record .truncatedStream s.pendOp s.cursor, decState := .failed, pend := none }) ∧
    (s.inStream = [] → s.inEnd = false → exec .decSym s = .next s) ∧
    (∀ b rest child, s.inStream = b :: rest →
      child = (if b then (s.node s.cursor).one else (s.node s.cursor).zero) →
      ∃ t, exec .decSym s = .next t ∧ t.inStream = rest ∧ t.decBits = s.decBits + 1 ∧ t.decAvail.toNat ≤ 7 ∧
        t = { s with inFifo := t.inFifo, decShift := t.decShift, decAvail := t.decAvail, decBits := t.decBits,
                     cursor := t.cursor, result := t.result, decState := t.decState, error := t.error, pend := t.pend } ∧
        (child = Config.nil → t.error = s.error.record .invalidPath s.pendOp s.cursor ∧ t.decState = .failed ∧
          t.cursor = s.cursor ∧ t.result = s.result ∧ t.pend = none) ∧
        (child ≠ Config.nil → (s.node child).sym = 256 → t.error = s.error ∧ t.decState = .done ∧
          t.cursor = child ∧ t.result = 256 ∧ t.pend = none) ∧
        (child ≠ Config.nil → (s.node child).sym ≠ 256 → (s.node child).isLeaf = true → t.error = s.error ∧
          t.decState = s.decState ∧ t.cursor = s.root ∧ t.result = (s.node child).sym.setWidth 32 ∧ t.pend = none) ∧
        (child ≠ Config.nil → (s.node child).isLeaf = false → t.error = s.error ∧ t.decState = s.decState ∧
          t.cursor = child ∧ t.result = s.result ∧ t.pend = s.pend))

/-- Rules R213 and R298: `DEC_SYM`, issued while the decoder is `ACTIVE` with its cursor at the root and the root path of a symbol's leaf
at the head of its input, completes after `1 + k` engine steps, having read exactly those `k` bits: the symbol is its result, or, for
`EOF_SYMBOL`, the stream is done. -/
def Obligations.DecSymReadsOneCode : Prop :=
  ∀ (s t : State) (k : Nat) (path rest : List Bool), s.Inv → s.busy = false → s.decState = .active → s.cursor = s.root →
    IsCodePath s.nodes s.root k path → s.inStream = path ++ rest → t = runCommand (1 + path.length) .decSym s →
    t.busy = false ∧ t.inStream = rest ∧ t.result = BitVec.ofNat 32 k ∧ t.error = s.error ∧
    t.decBits = s.decBits + BitVec.ofNat 64 path.length ∧
    (k ≠ 256 → t.decState = .active ∧ t.cursor = s.root) ∧
    (k = 256 → t.decState = .done ∧ (t.node t.cursor).sym = 256)

/-- Rules R158, R214 and R215: the round trip.  A block `e` encodes the symbols of `syms` and then `EOF_SYMBOL`; a block `d` (another, or
the same) with a tree of the same frequency table is given exactly the bytes of that stream after its `DEC_START`, and decodes: its
results are the symbols in order, and then `EOF_SYMBOL`; it ends `DONE` without an error, has read as many bits as the encoder has
counted, and leaves less than a byte of padding unread. -/
def Obligations.RoundTrip : Prop :=
  ∀ (e d u : State) (syms : List Nat) (bytes : List Byte),
    e.Inv → e.busy = false → e.codeValid = true → e.outFifo = [] → (∀ k ∈ syms, k < 256 ∧ e.code k ≠ []) →
    (syms.flatMap e.code ++ e.code 256).length ≤ 8 * e.params.outDepth → bytes = (encodeStream syms e).outFifo →
    d.Inv → d.busy = false → d.treeValid = true → (∀ k, k < 256 → d.countAt k = e.countAt k) → d.inFifo = [] →
    bytes.length ≤ d.params.inDepth →
    u = decodeSymbols e.code [256] (decodeSymbols e.code syms (startDecoding bytes d)) →
    (∀ (pre : List Nat) (k : Nat), pre ++ [k] <+: syms →
      (decodeSymbols e.code (pre ++ [k]) (startDecoding bytes d)).result = BitVec.ofNat 32 k) ∧
    u.result = 256 ∧ u.decState = .done ∧ u.error = d.error ∧ u.decBits = (encodeStream syms e).encBits ∧
    u.inFifo = [] ∧ u.decAvail.toNat < 8 ∧ (u.decAvail.toNat + u.decBits.toNat) % 8 = 0

/-! ### Errors (60_exceptions.md) -/

/-- Rules R251, R255, R257 and R259: raising an error.  The first since `ERROR` was cleared is recorded with its code, its source and
`INFO`; a later one sets `MULTI` and nothing else; the source is `PEND.OP`, the opcode of the pending command, for a command error,
which also fails its unit and completes, and `0xFF` for an access error, which does neither. -/
def Obligations.RaisingAnError : Prop :=
  (∀ e : ErrorKind, e.code = match e with
    | .emptyAlphabet => 0x01
    | .unknownSymbol => 0x02
    | .truncatedStream => 0x03
    | .malformedHeader => 0x04
    | .illegalCmd => 0x10
    | .badState => 0x11
    | .noTree => 0x12
    | .noCodes => 0x13
    | .badSymbol => 0x14
    | .badIndex => 0x15
    | .countOverflow => 0x16
    | .invalidPath => 0x17
    | .busyWrite => 0x18
    | .inOverflow => 0x19) ∧
  (∀ (r : ErrorReg) (e : ErrorKind) (src : BitVec 8) (info : BitVec 10),
    (r.code = 0 → r.record e src info = { code := e.code, src := src, info := info, multi := r.multi }) ∧
    (r.code ≠ 0 → r.record e src info = { code := r.code, src := r.src, info := r.info, multi := true })) ∧
  (∀ (s : State) (u : FailedUnit) (e : ErrorKind) (info : BitVec 10),
    s.raiseCmd u e info = { s with
      error := s.error.record e s.pendOp info, pend := none,
      encState := if u = .encoder then .failed else s.encState, decState := if u = .decoder then .failed else s.decState } ∧
    s.raiseAccess e info = { s with error := s.error.record e 0xFF info }) ∧
  ∀ (s : State) (p : Pend) (i : Instr), s.pend = some p → decode p.word = .ok i → s.pendOp = i.opcode

/-- Rules R255 and R260: a step of a command in its validation phase that raises an error has made no change but in `ERROR`, in the state
of the unit it fails, and in that it has completed. -/
def Obligations.ValidationErrorsArePrecise : Prop :=
  ∀ (i : Instr) (s t : State), s.phase = .validate → exec i s = .next t → t.error ≠ s.error →
    t = { s with error := t.error, encState := t.encState, decState := s.decState, pend := none } ∧
    (t.encState ≠ s.encState → t.encState = .failed ∧ s.encState = .active ∧ ∃ k, i = .encSym k)

/-! ### The register window (10_state.md section 10, 20_memory.md) -/

/-- Rules R72, R110, R231 and R232: a host access that is 32 bits wide, aligned and in the window makes the access of the register
at its offset, hands a read's value to the host as `v`, and goes on with the next statement; every other access is refused. -/
def Obligations.OnlyAlignedWordsAreAdmitted : Prop :=
  ∀ (s : State) (v : Word),
    (∀ off, off ≤ 0xFC → off % 4 = 0 →
      (∃ t, hostDo (.rd (s.params.base + off) 4) s = .next t ∧ { t with host := s.host } = (s.readAt off).2 ∧
        t.host.v = some (s.readAt off).1 ∧ t.host.prog = s.host.prog ∧ t.host.next = s.host.next + 1) ∧
      hostDo (.wr (s.params.base + off) 4 v) s =
        .next { s.writeAt off v with host := { s.host with next := s.host.next + 1 } }) ∧
    ∀ addr bytes, ¬ (bytes = 4 ∧ ∃ off, addr = s.params.base + off ∧ off ≤ 0xFC ∧ off % 4 = 0) →
      hostDo (.rd addr bytes) s = .refused .accessNotAdmitted ∧ hostDo (.wr addr bytes v) s = .refused .accessNotAdmitted

/-- Rules R39 and R73: the 23 registers, each at its offset, where an access reaches it; every other admitted offset reads 0 and ignores
a write, busy or not. -/
def Obligations.UnmappedOffsetsReadZero : Prop :=
  (Reg.id.offset = 0x00 ∧ Reg.ctrl.offset = 0x04 ∧ Reg.status.offset = 0x08 ∧ Reg.cmd.offset = 0x0C ∧
    Reg.dataLo.offset = 0x10 ∧ Reg.dataHi.offset = 0x14 ∧ Reg.result.offset = 0x18 ∧ Reg.link.offset = 0x1C ∧
    Reg.error.offset = 0x20 ∧ Reg.encBitsLo.offset = 0x24 ∧ Reg.encBitsHi.offset = 0x28 ∧ Reg.decBitsLo.offset = 0x2C ∧
    Reg.decBitsHi.offset = 0x30 ∧ Reg.decPos.offset = 0x34 ∧ Reg.encPos.offset = 0x38 ∧ Reg.fifoLevel.offset = 0x3C ∧
    Reg.outData.offset = 0x40 ∧ Reg.inData.offset = 0x44 ∧ Reg.totalLo.offset = 0x48 ∧ Reg.totalHi.offset = 0x4C ∧
    Reg.treeInfo.offset = 0x50 ∧ Reg.param0.offset = 0x54 ∧ Reg.param1.offset = 0x58) ∧
    (∀ (s : State) (r : Reg) (v : Word), Reg.at? r.offset = some r ∧
      s.readAt r.offset = s.readReg r ∧ s.writeAt r.offset v = s.writeReg r v) ∧
    ∀ (s : State) (off : Nat) (v : Word), 0x5C ≤ off → s.readAt off = (0, s) ∧ s.writeAt off v = s

/-- Rules R75, R77 and R231: a read has no side effect, but that a read of `OUT_DATA` pops; while busy, the registers rule R75 names read
a free value (drawn by the model's counter, log 8), and the others what they hold. -/
def Obligations.ReadsHaveNoSideEffect : Prop :=
  ∀ (s : State) (r : Reg),
    (s.busy = false → r ≠ .outData → s.readReg r = (s.regValue r, s)) ∧
    (s.busy = true → r ∈ [Reg.id, .ctrl, .status, .error, .fifoLevel, .param0, .param1] → s.readReg r = (s.regValue r, s)) ∧
    (s.busy = true → r ∈ [Reg.dataLo, .dataHi, .result, .link, .encBitsLo, .encBitsHi, .decBitsLo, .decBitsHi, .decPos, .encPos,
      .totalLo, .totalHi, .treeInfo] → s.readReg r = (Config.freeWord s.draws, { s with draws := s.draws + 1 })) ∧
    (r = .cmd ∨ r = .inData → s.readReg r = (0, s))

/-- Rules R81 and R83: a read of `OUT_DATA` pops the oldest byte, or reads 0 from an empty FIFO; a write of `IN_DATA` queues its byte, or
drops it with `IN_OVERFLOW` where the FIFO is full; busy or not. -/
def Obligations.FifoAccesses : Prop :=
  ∀ (s : State) (v : Word),
    (∀ b rest, s.outFifo = b :: rest → s.readReg .outData = (0#23 ++ 1#1 ++ b, { s with outFifo := rest })) ∧
    (s.outFifo = [] → s.readReg .outData = (0, s)) ∧
    (s.inFifo.length < s.params.inDepth → s.writeReg .inData v = { s with inFifo := s.inFifo ++ [v.extractLsb' 0 8] }) ∧
    (s.params.inDepth ≤ s.inFifo.length → s.writeReg .inData v =
      { s with error := s.error.record .inOverflow 0xFF ((v.extractLsb' 0 8).setWidth 10) })

/-- Rules R76 and R254: while busy, a write of `CMD`, `DATA_LO`, `DATA_HI` or `ERROR` is dropped and raises `BUSY_WRITE` with the offset as
`INFO` and `0xFF` as source; writes of `CTRL` and `IN_DATA` act as while idle; a write of a read-only register or an unmapped offset
changes nothing.  The command goes on. -/
def Obligations.BusyWritesAreDropped : Prop :=
  ∀ (s : State) (r : Reg) (v : Word), s.busy = true →
    (r = .cmd ∨ r = .dataLo ∨ r = .dataHi ∨ r = .error →
      s.writeReg r v = { s with error := s.error.record .busyWrite 0xFF (BitVec.ofNat 10 r.offset) }) ∧
    (r = .ctrl → s.writeReg r v = { s with inEnd := v.getLsbD 0 }) ∧
    (r = .inData → s.inFifo.length < s.params.inDepth →
      s.writeReg r v = { s with inFifo := s.inFifo ++ [v.extractLsb' 0 8] }) ∧
    (r = .inData → s.params.inDepth ≤ s.inFifo.length →
      s.writeReg r v = { s with error := s.error.record .inOverflow 0xFF ((v.extractLsb' 0 8).setWidth 10) }) ∧
    (r ≠ .cmd → r ≠ .dataLo → r ≠ .dataHi → r ≠ .error → r ≠ .ctrl → r ≠ .inData → s.writeReg r v = s) ∧
    ∀ off, 0x5C ≤ off → s.writeAt off v = s

/-- Rules R41, R44, R45, R60 and R258: the writes while idle that start no command: each changes its own register and nothing else, a write
of `ERROR` clears it, and a read-only register ignores its write. -/
def Obligations.IdleWritesStore : Prop :=
  ∀ (s : State) (r : Reg) (v : Word), s.busy = false →
    (r = .dataLo → s.writeReg r v = { s with dataLo := v }) ∧
    (r = .dataHi → s.writeReg r v = { s with dataHi := v }) ∧
    (r = .ctrl → s.writeReg r v = { s with inEnd := v.getLsbD 0 }) ∧
    (r = .error → s.writeReg r v = { s with error := { code := 0, src := 0, info := 0, multi := false } }) ∧
    (r ≠ .cmd → r ≠ .dataLo → r ≠ .dataHi → r ≠ .error → r ≠ .ctrl → r ≠ .inData → s.writeReg r v = s)

/-- Rules R32, R33, R40 to R42, R44 to R53 and R56 to R59: what a read of each register shows, bit for bit (`OUT_DATA`, `CMD` and
`IN_DATA` apart, which `FifoAccesses` and `ReadsHaveNoSideEffect` give). -/
def Obligations.PackedRegisterFields : Prop :=
  ∀ s : State,
    (s.regValue .id = 0x48554631 ∧ s.regValue .status = s.status ∧
      (s.regValue .ctrl).getLsbD 0 = s.inEnd ∧ (s.regValue .ctrl).extractLsb' 1 31 = 0 ∧
      s.regValue .dataLo = s.dataLo ∧ s.regValue .dataHi = s.dataHi ∧ s.regValue .result = s.result ∧ s.regValue .link = s.link) ∧
    (s.regValue .encBitsLo = s.encBits.extractLsb' 0 32 ∧ s.regValue .encBitsHi = s.encBits.extractLsb' 32 32 ∧
      s.regValue .decBitsLo = s.decBits.extractLsb' 0 32 ∧ s.regValue .decBitsHi = s.decBits.extractLsb' 32 32 ∧
      s.regValue .totalLo = s.totalBits.extractLsb' 0 32 ∧ s.regValue .totalHi = s.totalBits.extractLsb' 32 32) ∧
    (s.status.getLsbD 0 = s.pend.isSome ∧ s.status.getLsbD 1 = (s.error.code != 0) ∧ s.status.getLsbD 2 = s.treeValid ∧
      s.status.getLsbD 3 = s.codeValid ∧
      s.status.extractLsb' 4 2 = (match s.encState with | .idle => 0 | .active => 1 | .done => 2 | .failed => 3) ∧
      s.status.extractLsb' 6 2 = (match s.decState with | .idle => 0 | .active => 1 | .done => 2 | .failed => 3) ∧
      s.status.getLsbD 8 = s.waitOut ∧ s.status.getLsbD 9 = s.waitIn ∧
      s.status.extractLsb' 10 22 = 0) ∧
    ((s.regValue .error).extractLsb' 0 8 = s.error.code ∧ (s.regValue .error).extractLsb' 8 8 = s.error.src ∧
      (s.regValue .error).extractLsb' 16 10 = s.error.info ∧ (s.regValue .error).extractLsb' 26 5 = 0 ∧
      (s.regValue .error).getLsbD 31 = s.error.multi) ∧
    ((s.regValue .decPos).extractLsb' 0 10 = s.cursor ∧ (s.regValue .decPos).extractLsb' 10 6 = 0 ∧
      (s.regValue .decPos).extractLsb' 16 4 = s.decAvail ∧ (s.regValue .decPos).extractLsb' 20 4 = 0 ∧
      (s.regValue .decPos).extractLsb' 24 8 = s.decShift) ∧
    ((s.regValue .encPos).extractLsb' 0 8 = s.encAcc ∧ (s.regValue .encPos).extractLsb' 8 4 = s.encN ∧
      (s.regValue .encPos).extractLsb' 12 20 = 0) ∧
    ((s.regValue .fifoLevel).extractLsb' 0 16 = BitVec.ofNat 16 s.outFifo.length ∧
      (s.regValue .fifoLevel).extractLsb' 16 16 = BitVec.ofNat 16 s.inFifo.length) ∧
    ((s.regValue .treeInfo).extractLsb' 0 10 = s.root ∧ (s.regValue .treeInfo).extractLsb' 10 6 = 0 ∧
      (s.regValue .treeInfo).extractLsb' 16 10 = s.nodeCount ∧ (s.regValue .treeInfo).extractLsb' 26 6 = 0) ∧
    ((s.regValue .param0).extractLsb' 0 16 = BitVec.ofNat 16 s.params.outDepth ∧
      (s.regValue .param0).extractLsb' 16 16 = BitVec.ofNat 16 s.params.inDepth) ∧
    ((s.regValue .param1).extractLsb' 0 6 = BitVec.ofNat 6 s.params.countBits ∧ (s.regValue .param1).extractLsb' 6 10 = 0 ∧
      (s.regValue .param1).extractLsb' 16 9 = 256 ∧ (s.regValue .param1).extractLsb' 25 7 = 0)

/-- Rule R115: a host branch makes no access to the block, and goes to the one statement its label names exactly where the masked value
read last compares so (that the label stands at exactly one statement is the model's condition, log 15; that a branch is a host step of
its own is the model's DESIGN CHOICE, log 23). -/
def Obligations.HostBranches : Prop :=
  ∀ (s : State) (v mask want : Word) (label k : Nat), s.host.v = some v → labelSites label 0 s.host.prog = [k] →
    (v &&& mask = want →
      hostDo (.beq mask want label) s = .next { s with host := { s.host with next := k } } ∧
      hostDo (.bne mask want label) s = .next { s with host := { s.host with next := s.host.next + 1 } }) ∧
    (v &&& mask ≠ want →
      hostDo (.beq mask want label) s = .next { s with host := { s.host with next := s.host.next + 1 } } ∧
      hostDo (.bne mask want label) s = .next { s with host := { s.host with next := k } })

/-! ### Reset, the invariant and the whole machine (70_reset_and_hazards.md, 10_state.md section 8) -/

/-- Rules R61 and R281: a reset, whatever was pending, gives every register of the block the value of rule R61. -/
def Obligations.ResetGivesTheResetValues : Prop :=
  ∀ s : State, s.nextAgent = some .reset → ∃ t, step s = .next t ∧
    (∀ k, k < 256 → t.countAt k = 0) ∧ t.countAt 256 = 1 ∧
    t.treeValid = false ∧ t.nodeCount = 0 ∧ t.root = 0 ∧ t.codeValid = false ∧ t.totalBits = 0 ∧
    t.encState = .idle ∧ t.encAcc = 0 ∧ t.encN = 0 ∧ t.encBits = 0 ∧
    t.decState = .idle ∧ t.cursor = 0 ∧ t.decShift = 0 ∧ t.decAvail = 0 ∧ t.decBits = 0 ∧
    t.outFifo = [] ∧ t.inFifo = [] ∧ t.inEnd = false ∧ t.dataLo = 0 ∧ t.dataHi = 0 ∧ t.result = 0 ∧ t.link = 0 ∧
    t.error.word = 0 ∧ t.pend = none ∧ t.busy = false ∧ t.status = 0 ∧
    t.regValue .id = 0x48554631 ∧ t.regValue .param0 = s.regValue .param0 ∧ t.regValue .param1 = s.regValue .param1

/-- The invariant holds at reset, for every choice of the parameters in the ranges of rule R6 (that the parameters stand in the state, and
the empty stores after reset, are the model's choices, logs 1, 4 and 5). -/
def Obligations.InvariantAtReset : Prop :=
  State.reset.Inv ∧ ∀ p : Params, p.Wf → (State.resetWith p).Inv

/-- Rule R35, with what rules R22, R25, R30 to R33, R37 and R48 say of their registers: every step of the machine keeps the invariant,
whichever agent takes it. -/
def Obligations.EveryStepKeepsTheInvariant : Prop :=
  ∀ s t : State, s.Inv → step s = .next t → t.Inv

/-- Rule R71: each internal store is written by the commands rule R71 names for it and by no other, and the result registers by the
commands that name them (rule R38). -/
def Obligations.OnlyNamedCommandsWriteAStore : Prop :=
  ∀ (i : Instr) (s t : State), exec i s = .next t →
    (t.count ≠ s.count → i = .freqClear ∨ (∃ k, i = .freqInc k) ∨ ∃ k, i = .freqWrite k) ∧
    (t.nodes ≠ s.nodes ∨ t.nodeCount ≠ s.nodeCount ∨ t.root ≠ s.root → i = .treeBuild) ∧
    (t.codes ≠ s.codes ∨ t.totalBits ≠ s.totalBits → i = .codeBuild) ∧
    (t.outFifo ≠ s.outFifo → (∃ k, i = .encSym k) ∨ i = .encEof) ∧
    (t.inFifo ≠ s.inFifo → i = .decSym) ∧
    (t.dataLo ≠ s.dataLo ∨ t.dataHi ≠ s.dataHi → (∃ k, i = .freqRead k) ∨ (∃ k, i = .nodeRead k) ∨ ∃ k w, i = .codeRead k w) ∧
    (t.link ≠ s.link → ∃ k, i = .nodeRead k) ∧
    (t.result ≠ s.result → (∃ k, i = .nodeRead k) ∨ (∃ k w, i = .codeRead k w) ∨ i = .decSym) ∧
    t.params = s.params ∧ t.inEnd = s.inEnd ∧ t.host = s.host ∧ t.sched = s.sched ∧ t.draws = s.draws

/-- Rules R36, R258 and R259: the first error stays recorded, and `MULTI` stays set, over every step of the machine but a reset and a host
write of `ERROR` while idle, which clear the register. -/
def Obligations.FirstErrorIsKept : Prop :=
  ∀ s t : State, step s = .next t → s.error.code ≠ 0 →
    (t.error.code = s.error.code ∧ t.error.src = s.error.src ∧ t.error.info = s.error.info ∧
      (s.error.multi = true → t.error.multi = true)) ∨
    (t.error = .clear ∧ (s.nextAgent = some .reset ∨ (s.nextAgent = some .host ∧ s.busy = false ∧
      ∃ st v, s.hostStmt = some st ∧ st.op = .wr (s.params.base + 0x20) 4 v)))

/-- Rules R62, R89 and R288: no stale tree or code is left in use: a step that changes the frequency table leaves neither valid, and one
that changes the node store leaves no codes valid. -/
def Obligations.StaleStateIsInvalidated : Prop :=
  ∀ s t : State, step s = .next t →
    (t.count ≠ s.count → t.treeValid = false ∧ t.codeValid = false ∧ t.encState = .idle ∧ t.decState = .idle) ∧
    (t.nodes ≠ s.nodes → t.codeValid = false ∧ t.encState = .idle ∧ t.decState = .idle)

/-- Rules R10, R12, R85, R113, R235 and R299: progress, in every run (the run from a state is one run, for each value of the free draws
of log 3).  Each engine step of a command that is not held brings it nearer its end, by a bound that does not grow; somebody steps while
the engine or the host has a step; the engine takes a step unless it has none; a command completes unless from some time on the engine
takes no step and the command is held again and again; the host has its turn unless its program has ended or resets never end; and a host
at a `WAIT` leaves it unless the command is held or a reset comes.  A branch counts as a host step here (DESIGN CHOICE, log 23). -/
def Obligations.UnheldCommandsProgress : Prop :=
  (∀ s t : State, s.Inv → s.busy = true → s.engineReady = true → engineStep s = .next t → t.stepsLeft < s.stepsLeft) ∧
  (∀ s : State, s.engineReady = true ∨ s.hostStmt ≠ none → ∃ a, s.nextAgent = some a ∧ s.hasStep a = true) ∧
  ∀ s : State, s.Inv →
    (∃ n, (runFrom n s).nextAgent = some .engine ∨ (runFrom n s).engineReady = false ∨ (runFrom n s).Stops) ∧
    ((∃ n, (runFrom n s).busy = false ∨ (runFrom n s).Stops) ∨
      ∃ n, ∀ m, n ≤ m → (runFrom m s).nextAgent ≠ some .engine ∧
        ∃ m', m ≤ m' ∧ ((runFrom m' s).waitOut = true ∨ (runFrom m' s).waitIn = true)) ∧
    ((∃ n, (runFrom n s).nextAgent = some .host ∨ (runFrom n s).hostStmt = none) ∨
      ∀ n, ∃ m, n ≤ m ∧ (runFrom m s).nextAgent = some .reset) ∧
    ∀ label labels, s.host.prog[s.host.next]? = some { labels := labels, op := .rd (s.params.base + 0x08) 4 } →
      (∃ labels', s.host.prog[s.host.next + 1]? = some { labels := labels', op := .bne 1 0 label }) →
      labelSites label 0 s.host.prog = [s.host.next] →
      ∃ n, (runFrom n s).host.next = s.host.next + 2 ∨ (runFrom n s).nextAgent = some .reset ∨
        (runFrom n s).waitOut = true ∨ (runFrom n s).waitIn = true
end

