-- ==== Sys2Proof/Laws/Table.lean ====
section
/-! SUPPORT. The laws of a table in canonical form: read after write, and that every operation keeps the form. -/

namespace Sys2Proof.Machine.Table

variable {α : Type}

theorem get_erase (d : α) (t : Table α) (j k : Nat) : get d (erase t j) k = if j = k then d else get d t k := by
  induction t with
  | nil => simp [get, erase]
  | cons e t ih =>
    obtain ⟨i, x⟩ := e
    by_cases h : i = j
    · subst h
      by_cases hk : i = k
      · subst hk
        simpa [get, erase] using ih
      · simp [get, erase, ih, hk]
    · by_cases hk : i = k
      · subst hk
        simp [get, erase, h, Ne.symm h]
      · simp [get, erase, ih, hk, h]

/-- Reading an entry just inserted, or another one, where the key was not listed. -/
theorem get_insert (d : α) (t : Table α) (j k : Nat) (x : α) (h : ∀ e ∈ t, e.1 ≠ j) :
    get d (insert t j x) k = if j = k then x else get d t k := by
  induction t with
  | nil => simp [get, insert]
  | cons e t ih =>
    obtain ⟨i, y⟩ := e
    have hij : i ≠ j := h (i, y) (by simp)
    have ih := ih (fun e he => h e (by simp [he]))
    by_cases hlt : j < i
    · simp [get, insert, hlt]
    · by_cases hk : i = k
      · subst hk
        simp [get, insert, hlt, hij.symm]
      · simp [get, insert, hlt, ih, hk]

theorem mem_erase {t : Table α} {j : Nat} {e : Nat × α} : e ∈ erase t j ↔ e ∈ t ∧ e.1 ≠ j := by
  induction t with
  | nil => simp [erase]
  | cons f t ih =>
    obtain ⟨i, x⟩ := f
    by_cases h : i = j
    · simp only [erase, h, if_true, ih, List.mem_cons]
      constructor
      · exact fun ⟨a, b⟩ => ⟨.inr a, b⟩
      · rintro ⟨rfl | a, b⟩
        · exact absurd rfl b
        · exact ⟨a, b⟩
    · simp only [erase, h, if_false, List.mem_cons, ih]
      constructor
      · rintro (rfl | ⟨a, b⟩)
        · exact ⟨.inl rfl, h⟩
        · exact ⟨.inr a, b⟩
      · rintro ⟨rfl | a, b⟩
        · exact .inl rfl
        · exact .inr ⟨a, b⟩

theorem mem_insert {t : Table α} {k : Nat} {x : α} {e : Nat × α} : e ∈ insert t k x ↔ e = (k, x) ∨ e ∈ t := by
  induction t with
  | nil => simp [insert]
  | cons f t ih =>
    obtain ⟨i, y⟩ := f
    by_cases h : k < i
    · simp [insert, h]
    · simp only [insert, h, if_false, List.mem_cons, ih]
      tauto

/-- Read after write. -/
@[simp] theorem get_set [DecidableEq α] (d : α) (t : Table α) (j k : Nat) (x : α) :
    get d (set d t j x) k = if j = k then x else get d t k := by
  unfold set
  split
  · next h => rw [get_erase, h]
  · rw [get_insert _ _ _ _ _ (fun e he => (mem_erase.1 he).2), get_erase]
    split <;> simp_all

/-- An entry after a write is the one written or an entry from before. -/
theorem mem_set [DecidableEq α] {d : α} {t : Table α} {k : Nat} {x : α} {e : Nat × α} (h : e ∈ set d t k x) :
    (e = (k, x) ∧ x ≠ d) ∨ e ∈ t := by
  unfold set at h
  split at h
  · exact .inr (mem_erase.1 h).1
  · next hx =>
    rcases mem_insert.1 h with h | h
    · exact .inl ⟨h, hx⟩
    · exact .inr (mem_erase.1 h).1

theorem pairwise_erase {t : Table α} (j : Nat) (h : t.Pairwise (fun a b => a.1 < b.1)) :
    (erase t j).Pairwise (fun a b => a.1 < b.1) := by
  induction t with
  | nil => simp [erase]
  | cons e t ih =>
    obtain ⟨i, x⟩ := e
    rw [List.pairwise_cons] at h
    by_cases hi : i = j
    · simpa [erase, hi] using ih h.2
    · simp only [erase, hi, if_false, List.pairwise_cons]
      exact ⟨fun e he => h.1 e (mem_erase.1 he).1, ih h.2⟩

theorem pairwise_insert {t : Table α} {k : Nat} (x : α) (hk : ∀ e ∈ t, e.1 ≠ k)
    (h : t.Pairwise (fun a b => a.1 < b.1)) : (insert t k x).Pairwise (fun a b => a.1 < b.1) := by
  induction t with
  | nil => simp [insert]
  | cons e t ih =>
    obtain ⟨i, y⟩ := e
    rw [List.pairwise_cons] at h
    have hik : i ≠ k := hk (i, y) (by simp)
    by_cases hlt : k < i
    · simp only [insert, hlt, if_true, List.pairwise_cons]
      refine ⟨?_, h⟩
      intro e he
      rcases List.mem_cons.1 he with rfl | he
      · exact hlt
      · exact hlt.trans (h.1 e he)
    · simp only [insert, hlt, if_false, List.pairwise_cons]
      refine ⟨?_, ih (fun e he => hk e (by simp [he])) h.2⟩
      intro e he
      rcases mem_insert.1 he with rfl | he
      · show i < k
        omega
      · exact h.1 e he

/-- Every write keeps the canonical form. -/
theorem wf_set [DecidableEq α] {d : α} {n : Nat} {t : Table α} {k : Nat} (x : α) (hk : k < n) (h : Wf d n t) :
    Wf d n (set d t k x) := by
  obtain ⟨h1, h2, h3⟩ := h
  refine ⟨?_, ?_, ?_⟩
  · unfold set
    split
    · exact pairwise_erase k h1
    · exact pairwise_insert x (fun e he => (mem_erase.1 he).2) (pairwise_erase k h1)
  · intro e he
    rcases mem_set he with ⟨rfl, -⟩ | he
    · exact hk
    · exact h2 e he
  · intro e he
    rcases mem_set he with ⟨rfl, hx⟩ | he
    · exact hx
    · exact h3 e he

theorem wf_nil (d : α) (n : Nat) : Wf d n [] := by
  refine ⟨List.Pairwise.nil, ?_, ?_⟩ <;> simp

/-- What is listed is what is read. -/
theorem get_of_mem {d : α} {t : Table α} (h : t.Pairwise (fun a b => a.1 < b.1)) {e : Nat × α} (he : e ∈ t) :
    get d t e.1 = e.2 := by
  induction t with
  | nil => cases he
  | cons f t ih =>
    obtain ⟨i, y⟩ := f
    rw [List.pairwise_cons] at h
    rcases List.mem_cons.1 he with rfl | he
    · simp [get]
    · have := h.1 e he
      simp only [get]
      rw [if_neg (by simp only at this; omega)]
      exact ih h.2 he

/-- A value read is the default or is listed. -/
theorem get_eq_or_mem (d : α) (t : Table α) (k : Nat) : get d t k = d ∨ (k, get d t k) ∈ t := by
  induction t with
  | nil => simp [get]
  | cons f t ih =>
    obtain ⟨i, y⟩ := f
    by_cases h : i = k
    · subst h
      simp [get]
    · simp only [get, h, if_false]
      rcases ih with h | h
      · exact .inl h
      · exact .inr (List.mem_cons_of_mem _ h)

end Sys2Proof.Machine.Table
end

