-- ==== Sys2Proof/Laws/Tree.lean ====
section
/-! SUPPORT. What `buildTree` builds (rules R150 to R153, R26, R28): the leaves first, then internal nodes whose children stand before
them and whose weight is the sum of theirs, the root last, and every record reachable from the root. -/

namespace Sys2Proof.Machine

/-! ### The priority order (rule R151) -/

theorem comesBefore_iff (a b : QElem) :
    comesBefore a b = true ↔ a.1.toNat < b.1.toNat ∨ (a.1.toNat = b.1.toNat ∧ a.2 < b.2) := by
  simp [comesBefore, BitVec.lt_def, BitVec.toNat_eq]

theorem comesBefore_false_iff (a b : QElem) :
    comesBefore a b = false ↔ b.1.toNat < a.1.toNat ∨ (a.1.toNat = b.1.toNat ∧ b.2 ≤ a.2) := by
  rw [← Bool.not_eq_true, comesBefore_iff]
  omega

/-- A queue in the order of rule R151. -/
abbrev QSorted (q : List QElem) : Prop := q.Pairwise (fun a b => comesBefore b a = false)

theorem mem_enqueue {e x : QElem} {q : List QElem} : x ∈ enqueue e q ↔ x = e ∨ x ∈ q := by
  induction q with
  | nil => simp [enqueue]
  | cons y ys ih =>
    simp only [enqueue]
    split
    · simp
    · simp only [List.mem_cons, ih]
      tauto

theorem enqueue_sorted (e : QElem) {q : List QElem} (h : QSorted q) : QSorted (enqueue e q) := by
  induction q with
  | nil => simp [enqueue]
  | cons y ys ih =>
    replace h := List.pairwise_cons.1 h
    simp only [enqueue]
    split
    · next hlt =>
      refine List.pairwise_cons.2 ⟨?_, List.pairwise_cons.2 h⟩
      intro z hz
      rw [comesBefore_iff] at hlt
      rw [comesBefore_false_iff]
      rcases List.mem_cons.1 hz with rfl | hz
      · omega
      · have := h.1 z hz
        rw [comesBefore_false_iff] at this
        omega
    · next hlt =>
      refine List.pairwise_cons.2 ⟨?_, ih h.2⟩
      intro z hz
      rcases mem_enqueue.1 hz with rfl | hz
      · simpa using hlt
      · exact h.1 z hz

theorem length_enqueue (e : QElem) (q : List QElem) : (enqueue e q).length = q.length + 1 := by
  induction q with
  | nil => rfl
  | cons y ys ih =>
    simp only [enqueue]
    split <;> simp [ih]

theorem enqueue_perm (e : QElem) (q : List QElem) : (enqueue e q).Perm (e :: q) := by
  induction q with
  | nil => exact List.Perm.refl _
  | cons y ys ih =>
    simp only [enqueue]
    split
    · exact List.Perm.refl _
    · exact (ih.cons y).trans (List.Perm.swap e y ys)

/-- The sum of the weights in a queue, as numbers. -/
def queueWeight (q : List QElem) : Nat := (q.map (fun e => e.1.toNat)).sum

theorem queueWeight_enqueue (e : QElem) (q : List QElem) : queueWeight (enqueue e q) = e.1.toNat + queueWeight q := by
  induction q with
  | nil => rfl
  | cons y ys ih =>
    simp only [enqueue]
    split
    · rfl
    · simp only [queueWeight, List.map_cons, List.sum_cons] at ih ⊢
      omega

theorem queueFrom_sorted (k : Nat) (ns : List Node) : QSorted (queueFrom k ns) := by
  induction ns generalizing k with
  | nil => exact List.Pairwise.nil
  | cons n ns ih => exact enqueue_sorted _ (ih _)

theorem length_queueFrom (k : Nat) (ns : List Node) : (queueFrom k ns).length = ns.length := by
  induction ns generalizing k with
  | nil => rfl
  | cons n ns ih => simp [queueFrom, length_enqueue, ih]

theorem queueWeight_queueFrom (k : Nat) (ns : List Node) :
    queueWeight (queueFrom k ns) = (ns.map (fun n => n.weight.toNat)).sum := by
  induction ns generalizing k with
  | nil => rfl
  | cons n ns ih => simp [queueFrom, queueWeight_enqueue, ih]

theorem queueFrom_indices (k : Nat) (ns : List Node) :
    ((queueFrom k ns).map Prod.snd).Perm (List.range' k ns.length) := by
  induction ns generalizing k with
  | nil => exact List.Perm.refl _
  | cons n ns ih => exact ((enqueue_perm _ _).map Prod.snd).trans ((ih (k + 1)).cons k)

theorem mem_queueFrom {k : Nat} {ns : List Node} {e : QElem} :
    e ∈ queueFrom k ns ↔ k ≤ e.2 ∧ ∃ n, ns[e.2 - k]? = some n ∧ n.weight = e.1 := by
  induction ns generalizing k with
  | nil => simp [queueFrom]
  | cons n ns ih =>
    rw [queueFrom, mem_enqueue, ih]
    constructor
    · rintro (rfl | ⟨hk, m, hm, hw⟩)
      · exact ⟨le_refl _, n, by simp, rfl⟩
      · refine ⟨by omega, m, ?_, hw⟩
        have : e.2 - k = (e.2 - (k + 1)) + 1 := by omega
        rw [this, List.getElem?_cons_succ]
        exact hm
    · rintro ⟨hk, m, hm, hw⟩
      rcases Nat.eq_or_lt_of_le hk with h | h
      · subst h
        simp only [Nat.sub_self, List.getElem?_cons_zero, Option.some.injEq] at hm
        subst hm
        left
        exact Prod.ext hw.symm rfl
      · right
        refine ⟨h, m, ?_, hw⟩
        have : e.2 - k = (e.2 - (k + 1)) + 1 := by omega
        rw [this, List.getElem?_cons_succ] at hm
        exact hm

/-! ### Records by number -/

/-- Record `i` of a node list. -/
abbrev recordAt (ns : List Node) (i : Nat) : Node := ns.getD i Node.unwritten

theorem nodeOf_ofNat (ns : List Node) {i : Nat} (h : i < 1024) : nodeOf ns (BitVec.ofNat 10 i) = recordAt ns i := by
  simp [nodeOf, recordAt, Nat.mod_eq_of_lt h]

theorem nodeOf_eq_recordAt (ns : List Node) (i : NodeIdx) : nodeOf ns i = recordAt ns i.toNat := rfl

theorem recordAt_append_left (ns ms : List Node) {i : Nat} (h : i < ns.length) :
    recordAt (ns ++ ms) i = recordAt ns i := by
  simp [recordAt, List.getD, List.getElem?_append_left h]

theorem recordAt_append_self (ns : List Node) (n : Node) : recordAt (ns ++ [n]) ns.length = n := by
  simp [recordAt, List.getD]

/-- What rules R24 and R152 say of the internal node at `i`, in a list that has two children for it. -/
structure InnerAt (ns : List Node) (i : Nat) : Prop where
  sym : (recordAt ns i).sym = Config.internal
  zero : (recordAt ns i).zero.toNat < i
  one : (recordAt ns i).one.toNat < i
  sum : (recordAt ns i).weight.toNat =
    (nodeOf ns (recordAt ns i).zero).weight.toNat + (nodeOf ns (recordAt ns i).one).weight.toNat
  order : (nodeOf ns (recordAt ns i).zero).weight.toNat ≤ (nodeOf ns (recordAt ns i).one).weight.toNat

theorem InnerAt.append {ns : List Node} {i : Nat} (ms : List Node) (hi : i < ns.length) (h : InnerAt ns i) :
    InnerAt (ns ++ ms) i := by
  have hr : recordAt (ns ++ ms) i = recordAt ns i := recordAt_append_left ns ms hi
  have hz : nodeOf (ns ++ ms) (recordAt ns i).zero = nodeOf ns (recordAt ns i).zero :=
    recordAt_append_left ns ms (h.zero.trans hi)
  have ho : nodeOf (ns ++ ms) (recordAt ns i).one = nodeOf ns (recordAt ns i).one :=
    recordAt_append_left ns ms (h.one.trans hi)
  constructor <;> rw [hr]
  · exact h.sym
  · exact h.zero
  · exact h.one
  · rw [hz, ho]; exact h.sum
  · rw [hz, ho]; exact h.order

theorem isLeaf_false_iff (n : Node) : n.isLeaf = false ↔ n.sym = Config.internal := by simp [Node.isLeaf]

/-! ### Paths -/

/-- Every child that an internal node names, in a list of records, stands before it. -/
def Closed (ns : List Node) : Prop :=
  ∀ i, i < ns.length → (recordAt ns i).isLeaf = false →
    ∀ b, childOf (recordAt ns i) b ≠ Config.nil → (childOf (recordAt ns i) b).toNat < i

theorem IsPath.append {ns : List Node} (hc : Closed ns) (ms : List Node) {i j : NodeIdx} {p : List Bool}
    (hi : i.toNat < ns.length) (h : IsPath ns i p j) : IsPath (ns ++ ms) i p j := by
  induction p generalizing i with
  | nil => exact h
  | cons b p ih =>
    have hr : nodeOf (ns ++ ms) i = nodeOf ns i := recordAt_append_left ns ms hi
    obtain ⟨h1, h2, h3⟩ := h
    refine ⟨by rw [hr]; exact h1, by rw [hr]; exact h2, ?_⟩
    rw [hr]
    exact ih (Nat.lt_trans (hc _ hi h1 b h2) hi) h3

theorem IsPath.of_append {ns : List Node} (hc : Closed ns) (ms : List Node) {i j : NodeIdx} {p : List Bool}
    (hi : i.toNat < ns.length) (h : IsPath (ns ++ ms) i p j) : IsPath ns i p j := by
  induction p generalizing i with
  | nil => exact h
  | cons b p ih =>
    have hr : nodeOf (ns ++ ms) i = nodeOf ns i := recordAt_append_left ns ms hi
    obtain ⟨h1, h2, h3⟩ := h
    rw [hr] at h1 h2 h3
    exact ⟨h1, h2, ih (Nat.lt_trans (hc _ hi h1 b h2) hi) h3⟩

/-- A path goes down: it ends at its start or before it. -/
theorem IsPath.le {ns : List Node} (hc : Closed ns) {i j : NodeIdx} {p : List Bool} (hi : i.toNat < ns.length)
    (h : IsPath ns i p j) : j.toNat ≤ i.toNat := by
  induction p generalizing i with
  | nil => exact (congrArg BitVec.toNat h).ge
  | cons b p ih =>
    obtain ⟨h1, h2, h3⟩ := h
    have := hc _ hi h1 b h2
    exact (ih (Nat.lt_trans this hi) h3).trans this.le

theorem IsPath.trans {ns : List Node} {i j k : NodeIdx} {p q : List Bool} (h : IsPath ns i p j) (h' : IsPath ns j q k) :
    IsPath ns i (p ++ q) k := by
  induction p generalizing i with
  | nil => cases h; exact h'
  | cons b p ih => exact ⟨h.1, h.2.1, ih h.2.2⟩

/-- A path ends where its bits lead: nowhere else. -/
theorem IsPath.unique {ns : List Node} {i j k : NodeIdx} {p : List Bool} (h : IsPath ns i p j) (h' : IsPath ns i p k) :
    j = k := by
  induction p generalizing i with
  | nil => exact h.symm.trans h'
  | cons b p ih => exact ih h.2.2 h'.2.2

/-- No path goes through a leaf: two root paths of leaves, one a prefix of the other, are the same (rule R156). -/
theorem IsPath.prefix_eq {ns : List Node} {i j k : NodeIdx} {p q : List Bool} (h : IsPath ns i p j) (h' : IsPath ns i (p ++ q) k)
    (hj : (nodeOf ns j).isLeaf = true) : q = [] := by
  induction p generalizing i with
  | nil =>
    cases h
    cases q with
    | nil => rfl
    | cons b q => exact absurd hj (by rw [h'.1]; simp)
  | cons b p ih => exact ih h.2.2 h'.2.2

/-! ### The merging loop (rule R152) -/

/-- What holds at every pass of the loop that started from the leaves `ls`. -/
structure MergeInv (ls ns : List Node) (q : List QElem) : Prop where
  pre : ∃ ms, ns = ls ++ ms
  size : ns.length + q.length = 2 * ls.length
  sorted : QSorted q
  elems : ∀ e ∈ q, e.2 < ns.length ∧ (recordAt ns e.2).weight = e.1
  total : queueWeight q = (ls.map (fun n => n.weight.toNat)).sum
  inner : ∀ i, ls.length ≤ i → i < ns.length → InnerAt ns i
  reach : ∀ j, j < ns.length → ∃ e ∈ q, ∃ p, IsPath ns (BitVec.ofNat 10 e.2) p (BitVec.ofNat 10 j)
  last : ls.length < ns.length → ∃ e ∈ q, e.2 + 1 = ns.length
  unique : ∀ j : NodeIdx, ∀ e ∈ q, ∀ e' ∈ q, ∀ p p', IsPath ns (BitVec.ofNat 10 e.2) p j →
    IsPath ns (BitVec.ofNat 10 e'.2) p' j → e.2 = e'.2 ∧ p = p'
  distinct : (q.map Prod.snd).Nodup

theorem MergeInv.start (ls : List Node) (hl : ∀ n ∈ ls, n.isLeaf = true) (hL : ls.length ≤ 257) :
    MergeInv ls ls (queueFrom 0 ls) := by
  refine ⟨⟨[], by simp⟩, by rw [length_queueFrom]; omega, queueFrom_sorted _ _, ?_, queueWeight_queueFrom _ _,
    fun i h h' => absurd h' (by omega), ?_, fun h => absurd h (by omega), ?_,
    (queueFrom_indices 0 ls).nodup_iff.2 (List.nodup_range' (step := 1))⟩
  · intro e he
    obtain ⟨-, n, hn, hw⟩ := mem_queueFrom.1 he
    rw [Nat.sub_zero] at hn
    obtain ⟨h, rfl⟩ := List.getElem?_eq_some_iff.1 hn
    exact ⟨h, by simpa [recordAt, List.getD, h] using hw⟩
  · intro j hj
    refine ⟨(ls[j].weight, j), mem_queueFrom.2 ⟨by omega, ls[j], by simp [hj], rfl⟩, [], rfl⟩
  · have hleaf : ∀ e ∈ queueFrom 0 ls, e.2 < 257 ∧ (nodeOf ls (BitVec.ofNat 10 e.2)).isLeaf = true := by
      intro e he
      obtain ⟨-, n, hn, -⟩ := mem_queueFrom.1 he
      rw [Nat.sub_zero] at hn
      obtain ⟨h, rfl⟩ := List.getElem?_eq_some_iff.1 hn
      refine ⟨by omega, ?_⟩
      rw [nodeOf_ofNat _ (by omega)]
      simpa [recordAt, List.getD, h] using hl _ (List.getElem_mem h)
    have hnil : ∀ e ∈ queueFrom 0 ls, ∀ (p : List Bool) (j : NodeIdx), IsPath ls (BitVec.ofNat 10 e.2) p j →
        p = [] ∧ BitVec.ofNat 10 e.2 = j := by
      intro e he p j hp
      cases p with
      | nil => exact ⟨rfl, hp⟩
      | cons b p => exact absurd (hleaf e he).2 (by rw [hp.1]; simp)
    intro j e he e' he' p p' hp hp'
    obtain ⟨rfl, h1⟩ := hnil e he p j hp
    obtain ⟨rfl, h2⟩ := hnil e' he' p' j hp'
    have h3 := congrArg BitVec.toNat (h1.trans h2.symm)
    have := (hleaf e he).1
    have := (hleaf e' he').1
    rw [BitVec.toNat_ofNat, BitVec.toNat_ofNat] at h3
    exact ⟨by omega, rfl⟩

/-- The leaves are leaves, so children stand before their parents in the whole list. -/
theorem MergeInv.closed {ls ns : List Node} {q : List QElem} (hl : ∀ n ∈ ls, n.isLeaf = true) (h : MergeInv ls ns q) :
    Closed ns := by
  intro i hi hleaf b _
  obtain ⟨ms, rfl⟩ := h.pre
  by_cases hL : ls.length ≤ i
  · have := h.inner i hL hi
    cases b
    · exact this.zero
    · exact this.one
  · exfalso
    have hi' : i < ls.length := by omega
    rw [recordAt_append_left _ _ hi'] at hleaf
    have := hl ls[i] (List.getElem_mem _)
    simp [recordAt, List.getD, hi'] at hleaf
    simp [hleaf] at this

theorem MergeInv.pass {ls ns : List Node} {a b : QElem} {q : List QElem} (hl : ∀ n ∈ ls, n.isLeaf = true)
    (hL : ls.length ≤ 257) (hW : (ls.map (fun n => n.weight.toNat)).sum < 2 ^ 41) (h : MergeInv ls ns (a :: b :: q)) :
    MergeInv ls (ns ++ [mergeNode a b]) (enqueue (a.1 + b.1, ns.length) q) := by
  have hc := h.closed hl
  have hsize := h.size
  simp only [List.length_cons] at hsize
  have ha := h.elems a (by simp)
  have hb := h.elems b (by simp)
  have htot := h.total
  simp only [queueWeight, List.map_cons, List.sum_cons] at htot
  have hsum : (a.1 + b.1).toNat = a.1.toNat + b.1.toNat := by
    rw [BitVec.toNat_add, Nat.mod_eq_of_lt]
    omega
  have hself : recordAt (ns ++ [mergeNode a b]) ns.length = mergeNode a b := recordAt_append_self _ _
  have hz : (mergeNode a b).zero.toNat = a.2 := by simp [mergeNode]; omega
  have ho : (mergeNode a b).one.toNat = b.2 := by simp [mergeNode]; omega
  have hna : nodeOf (ns ++ [mergeNode a b]) (mergeNode a b).zero = recordAt ns a.2 := by
    rw [nodeOf_eq_recordAt, hz, recordAt_append_left _ _ ha.1]
  have hnb : nodeOf (ns ++ [mergeNode a b]) (mergeNode a b).one = recordAt ns b.2 := by
    rw [nodeOf_eq_recordAt, ho, recordAt_append_left _ _ hb.1]
  have hleafNew : (mergeNode a b).isLeaf = false := rfl
  have hnew : (BitVec.ofNat 10 ns.length).toNat = ns.length := by
    rw [BitVec.toNat_ofNat, Nat.mod_eq_of_lt (by omega)]
  have hnode : nodeOf (ns ++ [mergeNode a b]) (BitVec.ofNat 10 ns.length) = mergeNode a b := by
    rw [nodeOf_eq_recordAt, hnew, hself]
  have hidx : ∀ i, i < ns.length → (BitVec.ofNat 10 i).toNat = i := by
    intro i hi
    rw [BitVec.toNat_ofNat, Nat.mod_eq_of_lt (by omega)]
  -- a path from the new list's queue is empty at the new node, or goes on below `a` or `b`, or was there before
  have hpath : ∀ e ∈ enqueue (a.1 + b.1, ns.length) q, ∀ (p : List Bool) (j : NodeIdx),
      IsPath (ns ++ [mergeNode a b]) (BitVec.ofNat 10 e.2) p j →
        (e.2 = ns.length ∧ p = [] ∧ j = BitVec.ofNat 10 ns.length) ∨
        (e.2 = ns.length ∧ ∃ p', p = false :: p' ∧ IsPath ns (BitVec.ofNat 10 a.2) p' j) ∨
        (e.2 = ns.length ∧ ∃ p', p = true :: p' ∧ IsPath ns (BitVec.ofNat 10 b.2) p' j) ∨
        (e ∈ q ∧ IsPath ns (BitVec.ofNat 10 e.2) p j) := by
    intro e he p j hp
    rcases mem_enqueue.1 he with rfl | he
    · cases p with
      | nil => exact .inl ⟨rfl, rfl, hp.symm⟩
      | cons x p =>
        obtain ⟨-, -, hp⟩ := hp
        rw [hnode] at hp
        cases x
        · exact .inr (.inl ⟨rfl, p, rfl, IsPath.of_append hc _ (by rw [hidx _ ha.1]; exact ha.1) hp⟩)
        · exact .inr (.inr (.inl ⟨rfl, p, rfl, IsPath.of_append hc _ (by rw [hidx _ hb.1]; exact hb.1) hp⟩))
    · have hel := (h.elems e (by simp [he])).1
      exact .inr (.inr (.inr ⟨he, IsPath.of_append hc _ (by rw [hidx _ hel]; exact hel) hp⟩))
  have hlow : ∀ e ∈ a :: b :: q, ∀ (p : List Bool), ¬ IsPath ns (BitVec.ofNat 10 e.2) p (BitVec.ofNat 10 ns.length) := by
    intro e he p hp
    have hel := (h.elems e he).1
    have := hp.le hc (by rw [hidx _ hel]; exact hel)
    rw [hidx _ hel, hnew] at this
    omega
  have hne : ∀ e ∈ q, e.2 ≠ ns.length := fun e he => Nat.ne_of_lt (h.elems e (by simp [he])).1
  have hdis : ∀ e ∈ a :: b :: q, ∀ e' ∈ a :: b :: q, ∀ (p p' : List Bool) (j : NodeIdx), IsPath ns (BitVec.ofNat 10 e.2) p j →
      IsPath ns (BitVec.ofNat 10 e'.2) p' j → e.2 = e'.2 ∧ p = p' :=
    fun e he e' he' p p' j hp hp' => h.unique j e he e' he' p p' hp hp'
  have hnd := h.distinct
  simp only [List.map_cons, List.nodup_cons, List.mem_cons, List.mem_map, not_or, not_exists, not_and] at hnd
  refine ⟨?_, ?_, ?_, ?_, ?_, ?_, ?_, ?_, ?_, ?_⟩
  · obtain ⟨ms, rfl⟩ := h.pre
    exact ⟨ms ++ [mergeNode a b], by simp⟩
  · simp only [List.length_append, List.length_cons, List.length_nil, length_enqueue]
    omega
  · exact enqueue_sorted _ (List.pairwise_cons.1 (List.pairwise_cons.1 h.sorted).2).2
  · intro e he
    rcases mem_enqueue.1 he with rfl | he
    · exact ⟨by simp, by rw [hself]; rfl⟩
    · have := h.elems e (by simp [he])
      exact ⟨by simp; omega, by rw [recordAt_append_left _ _ this.1]; exact this.2⟩
  · rw [queueWeight_enqueue, hsum]
    simp only [queueWeight]
    omega
  · intro i hi hi'
    simp only [List.length_append, List.length_cons, List.length_nil] at hi'
    by_cases hlt : i < ns.length
    · exact (h.inner i hi hlt).append _ hlt
    · obtain rfl : i = ns.length := by omega
      constructor <;> rw [hself]
      · rfl
      · rw [hz]; exact ha.1
      · rw [ho]; exact hb.1
      · rw [hna, hnb, ha.2, hb.2]
        exact hsum
      · rw [hna, hnb, ha.2, hb.2]
        have := (List.pairwise_cons.1 h.sorted).1 b (by simp)
        rw [comesBefore_false_iff] at this
        omega
  · intro j hj
    simp only [List.length_append, List.length_cons, List.length_nil] at hj
    by_cases hlt : j < ns.length
    · obtain ⟨e, he, p, hp⟩ := h.reach j hlt
      have hel := (h.elems e he).1
      have hi : (BitVec.ofNat 10 e.2).toNat < ns.length := by
        rw [BitVec.toNat_ofNat]
        exact Nat.lt_of_le_of_lt (Nat.mod_le _ _) hel
      have hp := hp.append hc [mergeNode a b] hi
      rcases List.mem_cons.1 he with rfl | he
      · refine ⟨_, mem_enqueue.2 (.inl rfl), false :: p, ?_⟩
        refine ⟨by rw [hnode]; exact hleafNew, ?_, ?_⟩
        · rw [hnode]
          intro hn
          have := congrArg BitVec.toNat hn
          rw [show (childOf (mergeNode e b) false) = (mergeNode e b).zero from rfl, hz] at this
          simp [Config.nil] at this
          omega
        · rw [hnode]
          exact hp
      · rcases List.mem_cons.1 he with rfl | he
        · refine ⟨_, mem_enqueue.2 (.inl rfl), true :: p, ?_⟩
          refine ⟨by rw [hnode]; exact hleafNew, ?_, ?_⟩
          · rw [hnode]
            intro hn
            have := congrArg BitVec.toNat hn
            rw [show (childOf (mergeNode a e) true) = (mergeNode a e).one from rfl, ho] at this
            simp [Config.nil] at this
            omega
          · rw [hnode]
            exact hp
        · exact ⟨e, mem_enqueue.2 (.inr he), p, hp⟩
    · obtain rfl : j = ns.length := by omega
      exact ⟨_, mem_enqueue.2 (.inl rfl), [], rfl⟩
  · intro _
    exact ⟨_, mem_enqueue.2 (.inl rfl), by simp⟩
  · intro j e he e' he' p p' hp hp'
    rcases hpath e he p j hp with ⟨x, rfl, rfl⟩ | ⟨x, r, rfl, hr⟩ | ⟨x, r, rfl, hr⟩ | ⟨x, hr⟩ <;>
      rcases hpath e' he' p' _ hp' with ⟨x', rfl, hj⟩ | ⟨x', r', rfl, hr'⟩ | ⟨x', r', rfl, hr'⟩ | ⟨x', hr'⟩
    · exact ⟨x.trans x'.symm, rfl⟩
    · exact absurd hr' (hlow a (by simp) r')
    · exact absurd hr' (hlow b (by simp) r')
    · exact absurd hr' (hlow e' (by simp [x']) p')
    · subst hj
      exact absurd hr (hlow a (by simp) r)
    · exact ⟨x.trans x'.symm, by rw [(hdis a (by simp) a (by simp) r r' j hr hr').2]⟩
    · exact absurd (hdis a (by simp) b (by simp) r r' j hr hr').1 hnd.1.1
    · exact absurd (hdis a (by simp) e' (by simp [x']) r p' j hr hr').1.symm (hnd.1.2 e' x')
    · subst hj
      exact absurd hr (hlow b (by simp) r)
    · exact absurd (hdis b (by simp) a (by simp) r r' j hr hr').1.symm hnd.1.1
    · exact ⟨x.trans x'.symm, by rw [(hdis b (by simp) b (by simp) r r' j hr hr').2]⟩
    · exact absurd (hdis b (by simp) e' (by simp [x']) r p' j hr hr').1.symm (hnd.2.1 e' x')
    · subst hj
      exact absurd hr (hlow e (by simp [x]) p)
    · exact absurd (hdis e (by simp [x]) a (by simp) p r' j hr hr').1 (hnd.1.2 e x)
    · exact absurd (hdis e (by simp [x]) b (by simp) p r' j hr hr').1 (hnd.2.1 e x)
    · exact hdis e (by simp [x]) e' (by simp [x']) p p' j hr hr'
  · rw [(enqueue_perm _ _).map _ |>.nodup_iff]
    simp only [List.map_cons, List.nodup_cons, List.mem_map, not_exists, not_and]
    exact ⟨fun e he => hne e he, hnd.2.2⟩

theorem MergeInv.loop {ls ns : List Node} {q : List QElem} (hl : ∀ n ∈ ls, n.isLeaf = true) (hL : ls.length ≤ 257)
    (hW : (ls.map (fun n => n.weight.toNat)).sum < 2 ^ 41) (k : Nat) (h : MergeInv ls ns q) (hk : q.length = k + 1) :
    ∃ e, (mergeLoop k ns q).2 = [e] ∧ MergeInv ls (mergeLoop k ns q).1 [e] := by
  induction k generalizing ns q with
  | zero =>
    obtain ⟨e, rfl⟩ := List.length_eq_one_iff.1 hk
    exact ⟨e, rfl, h⟩
  | succ k ih =>
    match q, h, hk with
    | a :: b :: q, h, hk =>
      have := ih (h.pass hl hL hW) (by rw [length_enqueue]; simpa using hk)
      simpa [mergeLoop] using this

/-! ### The leaves (rules R21, R150) -/

theorem mem_presentSymbols {c : Table Word} {sym : Nat} : sym ∈ presentSymbols c ↔ sym ≤ 256 ∧ present c sym = true := by
  simp [presentSymbols, Config.eofSymbol, Nat.lt_succ_iff]

theorem presentSymbols_le {c : Table Word} {sym : Nat} (h : sym ∈ presentSymbols c) : sym ≤ 256 := (mem_presentSymbols.1 h).1

theorem presentSymbols_ascending (c : Table Word) : (presentSymbols c).Pairwise (· < ·) :=
  List.Pairwise.filter _ List.pairwise_lt_range

theorem presentSymbols_nodup (c : Table Word) : (presentSymbols c).Nodup :=
  (presentSymbols_ascending c).imp (fun h => Nat.ne_of_lt h)

theorem eof_mem_presentSymbols (c : Table Word) : 256 ∈ presentSymbols c :=
  mem_presentSymbols.2 ⟨le_refl _, by simp [present, Config.eofSymbol]⟩

theorem presentSymbols_length_le (c : Table Word) : (presentSymbols c).length ≤ 257 := by
  refine (List.length_filter_le _ _).trans ?_
  simp [Config.eofSymbol]

theorem presentSymbols_length_pos (c : Table Word) : 0 < (presentSymbols c).length :=
  List.length_pos_of_mem (eof_mem_presentSymbols c)

theorem leafNode_isLeaf (c : Table Word) {sym : Nat} (h : sym ≤ 256) : (leafNode c sym).isLeaf = true := by
  simp only [Node.isLeaf, leafNode, Config.internal, bne_iff_ne, ne_eq]
  intro h'
  have := congrArg BitVec.toNat h'
  simp at this
  omega

theorem leafNode_sym (c : Table Word) {sym : Nat} (h : sym ≤ 256) : (leafNode c sym).sym.toNat = sym := by
  simp [leafNode]
  omega

theorem leafNode_weight (c : Table Word) (sym : Nat) : (leafNode c sym).weight.toNat = (countOf c sym).toNat := by
  simp only [leafNode, BitVec.toNat_setWidth]
  exact Nat.mod_eq_of_lt (Nat.lt_trans (countOf c sym).isLt (by decide))

theorem leaves_isLeaf (c : Table Word) : ∀ n ∈ leaves c, n.isLeaf = true := by
  intro n hn
  obtain ⟨sym, hsym, rfl⟩ := List.mem_map.1 hn
  exact leafNode_isLeaf c (presentSymbols_le hsym)

theorem leaves_length (c : Table Word) : (leaves c).length = (presentSymbols c).length := by simp [leaves]

/-- The sum of the leaves' weights is the sum of the present symbols' counts (rule R28). -/
theorem leaves_weight (c : Table Word) :
    ((leaves c).map (fun n => n.weight.toNat)).sum = ((presentSymbols c).map (fun s => (countOf c s).toNat)).sum := by
  rw [leaves, List.map_map]
  exact congrArg List.sum (List.map_congr_left fun s _ => leafNode_weight c s)

/-- No weight sum overflows (rule R28). -/
theorem leaves_weight_lt (c : Table Word) : ((leaves c).map (fun n => n.weight.toNat)).sum < 2 ^ 41 := by
  have h : ∀ x ∈ (leaves c).map (fun n => n.weight.toNat), x ≤ 2 ^ 32 := by
    intro x hx
    rw [List.mem_map] at hx
    obtain ⟨n, hn, rfl⟩ := hx
    obtain ⟨sym, -, rfl⟩ := List.mem_map.1 hn
    rw [leafNode_weight]
    exact (countOf c sym).isLt.le
  have := List.sum_le_card_nsmul _ _ h
  have hl := presentSymbols_length_le c
  simp only [List.length_map, leaves_length, smul_eq_mul] at this
  nlinarith

/-! ### The built tree -/

/-- What rules R150 to R154, R26 and R28 say of the tree of a table. -/
structure TreeShape (c : Table Word) : Prop where
  /-- The leaves stand first, in ascending symbol order (rule R150). -/
  leaves : ∃ ms, (buildTree c).nodes = Machine.leaves c ++ ms
  /-- `2L - 1` records, or 2 for the one-leaf tree (rule R26). -/
  length : (buildTree c).nodes.length =
    if (presentSymbols c).length = 1 then 2 else 2 * (presentSymbols c).length - 1
  /-- The root is the last record (rule R154). -/
  root : (buildTree c).root + 1 = (buildTree c).nodes.length
  /-- Every record past the leaves is an internal node over two records before it (rules R24, R152), where there are two leaves. -/
  inner : 2 ≤ (presentSymbols c).length →
    ∀ i, (presentSymbols c).length ≤ i → i < (buildTree c).nodes.length → InnerAt (buildTree c).nodes i
  /-- The root of the one-leaf tree (rule R153). -/
  single : (presentSymbols c).length = 1 →
    (buildTree c).nodes = [leafNode c 256, syntheticRoot (leafNode c 256)]
  /-- Every record is below the root. -/
  reach : ∀ j, j < (buildTree c).nodes.length →
    ∃ p, IsPath (buildTree c).nodes (BitVec.ofNat 10 (buildTree c).root) p (BitVec.ofNat 10 j)
  /-- By one path only (rule R156). -/
  unique : ∀ (j : NodeIdx) (p p' : List Bool), IsPath (buildTree c).nodes (BitVec.ofNat 10 (buildTree c).root) p j →
    IsPath (buildTree c).nodes (BitVec.ofNat 10 (buildTree c).root) p' j → p = p'
  /-- The root's weight is the sum of the counts (rule R28). -/
  weight : (recordAt (buildTree c).nodes (buildTree c).root).weight.toNat =
    ((presentSymbols c).map (fun s => (countOf c s).toNat)).sum

theorem presentSymbols_single {c : Table Word} (h : (presentSymbols c).length = 1) : presentSymbols c = [256] := by
  obtain ⟨x, hx⟩ := List.length_eq_one_iff.1 h
  have := eof_mem_presentSymbols c
  rw [hx, List.mem_singleton] at this
  rw [hx, this]

theorem buildTree_single {c : Table Word} (h : (presentSymbols c).length = 1) :
    buildTree c = { nodes := [leafNode c 256, syntheticRoot (leafNode c 256)], root := 1 } := by
  simp [buildTree, leaves, presentSymbols_single h]

theorem buildTree_merge {c : Table Word} (h : 2 ≤ (presentSymbols c).length) :
    ∃ e, buildTree c = { nodes := (mergeLoop ((leaves c).length - 1) (leaves c) (queueFrom 0 (leaves c))).1, root := e.2 } ∧
      MergeInv (leaves c) (buildTree c).nodes [e] := by
  have hlen := leaves_length c
  obtain ⟨e, he, hi⟩ := MergeInv.loop (leaves_isLeaf c) (by rw [hlen]; exact presentSymbols_length_le c)
    (leaves_weight_lt c) ((leaves c).length - 1) (MergeInv.start _ (leaves_isLeaf c) (by rw [hlen]; exact presentSymbols_length_le c))
    (by rw [length_queueFrom]; omega)
  have hb : buildTree c =
      { nodes := (mergeLoop ((leaves c).length - 1) (leaves c) (queueFrom 0 (leaves c))).1, root := e.2 } := by
    unfold buildTree
    split
    · next leaf hleaf =>
      rw [hleaf] at hlen
      simp at hlen
      omega
    · simp [he]
  exact ⟨e, hb, by rw [hb]; exact hi⟩

theorem buildTree_shape (c : Table Word) : TreeShape c := by
  have hpos := presentSymbols_length_pos c
  have hle := presentSymbols_length_le c
  have hlen := leaves_length c
  by_cases h1 : (presentSymbols c).length = 1
  · have hb := buildTree_single h1
    have hnil : (BitVec.ofNat 10 0) ≠ Config.nil := by decide
    refine ⟨?_, ?_, ?_, fun h => absurd h1 (by omega), fun _ => by rw [hb], ?_, ?_, ?_⟩
    · refine ⟨[syntheticRoot (leafNode c 256)], ?_⟩
      rw [hb]
      simp [leaves, presentSymbols_single h1]
    · simp [hb, h1]
    · simp [hb]
    · intro j hj
      rw [hb] at hj ⊢
      simp at hj
      match j, hj with
      | 0, _ => exact ⟨[false], rfl, (by decide : (0 : NodeIdx) ≠ Config.nil), rfl⟩
      | 1, _ => exact ⟨[], rfl⟩
    · have key : ∀ (j : NodeIdx) (p : List Bool), IsPath (buildTree c).nodes (BitVec.ofNat 10 (buildTree c).root) p j →
          (p = [] ∧ j = 1) ∨ (p = [false] ∧ j = 0) := by
        intro j p hp
        rw [hb] at hp
        match p, hp with
        | [], hp => exact .inl ⟨rfl, hp.symm⟩
        | true :: p, hp => exact absurd rfl hp.2.1
        | [false], hp => exact .inr ⟨rfl, hp.2.2.symm⟩
        | false :: _ :: _, hp =>
          have := hp.2.2.1
          rw [show childOf _ false = (0 : NodeIdx) from rfl] at this
          exact absurd this (by rw [show nodeOf _ (0 : NodeIdx) = leafNode c 256 from rfl, leafNode_isLeaf c (by omega)]; simp)
      intro j p p' hp hp'
      rcases key j p hp with ⟨rfl, rfl⟩ | ⟨rfl, rfl⟩ <;> rcases key _ p' hp' with ⟨rfl, h⟩ | ⟨rfl, h⟩
      · rfl
      · exact absurd h (by decide)
      · exact absurd h (by decide)
      · rfl
    · rw [hb]
      simp [presentSymbols_single h1, syntheticRoot, leafNode_weight]
  · obtain ⟨e, hb, hi⟩ := buildTree_merge (show 2 ≤ (presentSymbols c).length by omega)
    have hroot : (buildTree c).root = e.2 := by rw [hb]
    have hsize := hi.size
    simp only [List.length_cons, List.length_nil] at hsize
    obtain ⟨e', he', hlast⟩ := hi.last (by omega)
    rw [List.mem_singleton] at he'
    subst he'
    refine ⟨hi.pre, ?_, by rw [hroot]; exact hlast, ?_, fun h => absurd h h1, ?_, ?_, ?_⟩
    · rw [if_neg h1]
      omega
    · intro _ i h h'
      exact hi.inner i (by omega) h'
    · intro j hj
      obtain ⟨e'', he'', p, hp⟩ := hi.reach j hj
      rw [List.mem_singleton] at he''
      subst he''
      exact ⟨p, by rw [hroot]; exact hp⟩
    · intro j p p' hp hp'
      rw [hroot] at hp hp'
      exact (hi.unique j e' (by simp) e' (by simp) p p' hp hp').2
    · rw [hroot, (hi.elems e' (by simp)).2, ← leaves_weight, ← hi.total]
      simp [queueWeight]

end Sys2Proof.Machine
end

