-- ==== Sys2Proof/Laws/CodeTable.lean ====
section
/-! SUPPORT. What `buildCodes` records (rules R170, R174, R175, R29): root paths of leaves, for every leaf; and, on the tree of a table,
a code of 1 to 256 bits for exactly the present symbols. -/

namespace Sys2Proof.Machine

/-! ### The visit of the tree -/

/-- No internal node among the first records lacks its zero branch, and children stand before their parents. -/
structure WalkOk (ns : List Node) (n : Nat) : Prop where
  zero : ∀ i : NodeIdx, i.toNat < n → (nodeOf ns i).isLeaf = false → (nodeOf ns i).zero.toNat < i.toNat
  one : ∀ i : NodeIdx, i.toNat < n → (nodeOf ns i).isLeaf = false → (nodeOf ns i).one ≠ Config.nil →
    (nodeOf ns i).one.toNat < i.toNat
  size : n ≤ 513

theorem ne_nil_of_lt {i : NodeIdx} {n : Nat} (h : i.toNat < n) (hn : n ≤ 513) : i ≠ Config.nil := by
  rintro rfl
  have : Config.nil.toNat = 1023 := rfl
  omega

/-- What is found below a node is the path of a leaf. -/
theorem leafPaths_sound {ns : List Node} {n : Nat} (hw : WalkOk ns n) {d : Nat} {i : NodeIdx} {p : List Bool} (hi : i.toNat < n)
    {e : SymField × List Bool} (he : e ∈ leafPaths ns d i p) :
    ∃ r j, e.2 = p ++ r ∧ IsPath ns i r j ∧ (nodeOf ns j).isLeaf = true ∧ (nodeOf ns j).sym = e.1 ∧ r.length < d := by
  induction d generalizing i p with
  | zero => simp [leafPaths] at he
  | succ d ih =>
    rw [leafPaths] at he
    by_cases hl : (nodeOf ns i).isLeaf = true
    · rw [if_pos hl, List.mem_singleton] at he
      subst he
      exact ⟨[], i, by simp, rfl, hl, rfl, by simp⟩
    · rw [if_neg hl, List.mem_append] at he
      rw [Bool.not_eq_true] at hl
      have hz := hw.zero i hi hl
      rcases he with he | he
      · obtain ⟨r, j, h1, h2, h3, h4, h5⟩ := ih (hz.trans hi) he
        exact ⟨false :: r, j, by simp [h1], ⟨hl, ne_nil_of_lt (hz.trans hi) hw.size, h2⟩, h3, h4, by simpa using h5⟩
      · by_cases ho : (nodeOf ns i).one = Config.nil
        · simp [ho] at he
        · rw [if_neg ho] at he
          obtain ⟨r, j, h1, h2, h3, h4, h5⟩ := ih ((hw.one i hi hl ho).trans hi) he
          exact ⟨true :: r, j, by simp [h1], ⟨hl, ho, h2⟩, h3, h4, by simpa using h5⟩

/-- Every leaf below a node, no deeper than the bound, is found. -/
theorem leafPaths_complete {ns : List Node} {d : Nat} {i j : NodeIdx} {r : List Bool} (p : List Bool) (h : IsPath ns i r j)
    (hj : (nodeOf ns j).isLeaf = true) (hd : r.length < d) : ((nodeOf ns j).sym, p ++ r) ∈ leafPaths ns d i p := by
  induction r generalizing d i p with
  | nil =>
    obtain ⟨d, rfl⟩ : ∃ e, d = e + 1 := ⟨d - 1, by simp at hd; omega⟩
    cases h
    simp [leafPaths, hj]
  | cons b r ih =>
    obtain ⟨d, rfl⟩ : ∃ e, d = e + 1 := ⟨d - 1, by simp at hd; omega⟩
    obtain ⟨h1, h2, h3⟩ := h
    have := ih (p ++ [b]) h3 (by simpa using hd)
    rw [leafPaths, if_neg (by simp [h1]), List.mem_append]
    rw [List.append_assoc, List.singleton_append] at this
    cases b
    · exact .inl this
    · right
      rw [if_neg (show (nodeOf ns i).one ≠ Config.nil from h2)]
      exact this

/-! ### The table recorded -/

theorem codeOf_recordCodes_aux (found : List (SymField × List Bool)) (t : Table (List Bool)) (s : Nat) :
    (codeOf (found.foldl (fun t e => Table.set [] t e.1.toNat e.2) t) s = codeOf t s ∧ ∀ e ∈ found, e.1.toNat ≠ s) ∨
      ∃ e ∈ found, e.1.toNat = s ∧ codeOf (found.foldl (fun t e => Table.set [] t e.1.toNat e.2) t) s = e.2 := by
  induction found generalizing t with
  | nil => simp
  | cons e found ih =>
    rw [List.foldl_cons]
    rcases ih (Table.set [] t e.1.toNat e.2) with ⟨h1, h2⟩ | ⟨f, hf, h1, h2⟩
    · by_cases he : e.1.toNat = s
      · right
        refine ⟨e, by simp, he, ?_⟩
        rw [h1, codeOf, Table.get_set, if_pos he]
      · left
        refine ⟨?_, ?_⟩
        · rw [h1, codeOf, Table.get_set, if_neg he]
          rfl
        · intro f hf
          rcases List.mem_cons.1 hf with rfl | hf
          · exact he
          · exact h2 f hf
    · exact .inr ⟨f, by simp [hf], h1, h2⟩

/-- A code recorded is one that was found, and only a symbol that was not found has none. -/
theorem codeOf_recordCodes (found : List (SymField × List Bool)) (s : Nat) :
    (codeOf (recordCodes found) s = [] ∧ ∀ e ∈ found, e.1.toNat ≠ s) ∨
      ∃ e ∈ found, e.1.toNat = s ∧ codeOf (recordCodes found) s = e.2 := by
  exact codeOf_recordCodes_aux found [] s

theorem mem_recordCodes {found : List (SymField × List Bool)} {t : Table (List Bool)} {f : Nat × List Bool}
    (h : f ∈ found.foldl (fun t e => Table.set [] t e.1.toNat e.2) t) :
    f ∈ t ∨ ∃ e ∈ found, f = (e.1.toNat, e.2) := by
  induction found generalizing t with
  | nil => exact .inl h
  | cons e found ih =>
    rw [List.foldl_cons] at h
    rcases ih h with h | ⟨g, hg, rfl⟩
    · rcases Table.mem_set h with ⟨rfl, -⟩ | h
      · exact .inr ⟨e, by simp, rfl⟩
      · exact .inl h
    · exact .inr ⟨g, by simp [hg], rfl⟩

theorem wf_recordCodes {found : List (SymField × List Bool)} {n : Nat} (h : ∀ e ∈ found, e.1.toNat < n) :
    Table.Wf [] n (recordCodes found) := by
  have : ∀ t, Table.Wf [] n t → Table.Wf [] n (found.foldl (fun t e => Table.set [] t e.1.toNat e.2) t) := by
    induction found with
    | nil => exact fun t ht => ht
    | cons e found ih =>
      intro t ht
      rw [List.foldl_cons]
      exact ih (fun e he => h e (by simp [he])) _ (Table.wf_set _ (h e (by simp)) ht)
  exact this [] (Table.wf_nil _ _)

/-! ### The codes of a table's tree -/

/-- A node store whose first records are the tree of a table, with the root the tree's. -/
structure HoldsTree (c : Table Word) (ns : List Node) (root : NodeIdx) : Prop where
  nodes : ∃ ms, ns = (buildTree c).nodes ++ ms
  root : root = BitVec.ofNat 10 (buildTree c).root

theorem buildTree_length_le (c : Table Word) : (buildTree c).nodes.length ≤ 513 := by
  have := (buildTree_shape c).length
  have := presentSymbols_length_le c
  split at * <;> omega

/-- The tree has at least a root over the leaves. -/
theorem length_lt_buildTree (c : Table Word) : (presentSymbols c).length < (buildTree c).nodes.length := by
  have := (buildTree_shape c).length
  have := presentSymbols_length_pos c
  split at * <;> omega

theorem recordAt_leaf {c : Table Word} {i : Nat} (h : i < (presentSymbols c).length) :
    recordAt (buildTree c).nodes i = leafNode c ((presentSymbols c)[i]) := by
  obtain ⟨ms, hms⟩ := (buildTree_shape c).leaves
  rw [hms, recordAt_append_left _ _ (by rw [leaves_length]; exact h)]
  simp [recordAt, List.getD, leaves, h]

theorem recordAt_inner {c : Table Word} {i : Nat} (h : (presentSymbols c).length ≤ i) (h' : i < (buildTree c).nodes.length) :
    (recordAt (buildTree c).nodes i).sym = Config.internal ∧ (recordAt (buildTree c).nodes i).zero.toNat < i ∧
      ((recordAt (buildTree c).nodes i).one ≠ Config.nil → (recordAt (buildTree c).nodes i).one.toNat < i) := by
  have hs := buildTree_shape c
  by_cases h1 : (presentSymbols c).length = 1
  · have hb := buildTree_single h1
    rw [hb] at h' ⊢
    simp at h'
    obtain rfl : i = 1 := by omega
    exact ⟨rfl, (by decide : (0 : NodeIdx).toNat < 1), fun h => absurd rfl h⟩
  · have := presentSymbols_length_pos c
    have hi := hs.inner (by omega) i h h'
    exact ⟨hi.sym, hi.zero, fun _ => hi.one⟩

theorem isLeaf_recordAt {c : Table Word} {i : Nat} (h : i < (buildTree c).nodes.length) :
    (recordAt (buildTree c).nodes i).isLeaf = true ↔ i < (presentSymbols c).length := by
  constructor
  · intro hl
    by_contra hi
    have := (recordAt_inner (by omega) h).1
    rw [← isLeaf_false_iff] at this
    rw [this] at hl
    cases hl
  · intro hi
    rw [recordAt_leaf hi]
    exact leafNode_isLeaf _ (presentSymbols_le (List.getElem_mem hi))

theorem buildTree_closed (c : Table Word) : Closed (buildTree c).nodes := by
  intro i hi hl b hb
  have h : (presentSymbols c).length ≤ i := by
    by_contra hlt
    rw [(isLeaf_recordAt hi).2 (by omega)] at hl
    cases hl
  have := recordAt_inner h hi
  cases b
  · exact this.2.1
  · exact this.2.2 hb

namespace HoldsTree

variable {c : Table Word} {ns : List Node} {root : NodeIdx}

theorem recordAt_eq (h : HoldsTree c ns root) {i : Nat} (hi : i < (buildTree c).nodes.length) :
    recordAt ns i = recordAt (buildTree c).nodes i := by
  obtain ⟨ms, rfl⟩ := h.nodes
  exact recordAt_append_left _ _ hi

theorem root_toNat (h : HoldsTree c ns root) : root.toNat = (buildTree c).root := by
  have := (buildTree_shape c).root
  have := buildTree_length_le c
  rw [h.root, BitVec.toNat_ofNat, Nat.mod_eq_of_lt (by omega)]

theorem root_lt (h : HoldsTree c ns root) : root.toNat < (buildTree c).nodes.length := by
  have := (buildTree_shape c).root
  rw [h.root_toNat]
  omega

/-- A node below the tree's length is a leaf exactly when it stands among the leaves. -/
theorem isLeaf_iff (h : HoldsTree c ns root) {i : NodeIdx} (hi : i.toNat < (buildTree c).nodes.length) :
    (nodeOf ns i).isLeaf = true ↔ i.toNat < (presentSymbols c).length := by
  rw [nodeOf_eq_recordAt, h.recordAt_eq hi]
  exact isLeaf_recordAt hi

theorem walkOk (h : HoldsTree c ns root) : WalkOk ns (buildTree c).nodes.length := by
  have key : ∀ i : NodeIdx, i.toNat < (buildTree c).nodes.length → (nodeOf ns i).isLeaf = false →
      (presentSymbols c).length ≤ i.toNat := by
    intro i hi hl
    by_contra hlt
    rw [(h.isLeaf_iff hi).2 (by omega)] at hl
    cases hl
  refine ⟨?_, ?_, buildTree_length_le c⟩
  · intro i hi hl
    rw [nodeOf_eq_recordAt, h.recordAt_eq hi]
    exact (recordAt_inner (key i hi hl) hi).2.1
  · intro i hi hl ho
    rw [nodeOf_eq_recordAt, h.recordAt_eq hi] at ho ⊢
    exact (recordAt_inner (key i hi hl) hi).2.2 ho

/-- A child of an internal node of the tree is a record of the tree. -/
theorem child_lt (h : HoldsTree c ns root) {i : NodeIdx} (hi : i.toNat < (buildTree c).nodes.length)
    (hl : (nodeOf ns i).isLeaf = false) {b : Bool} (hb : childOf (nodeOf ns i) b ≠ Config.nil) :
    (childOf (nodeOf ns i) b).toNat < i.toNat := by
  cases b
  · exact h.walkOk.zero i hi hl
  · exact h.walkOk.one i hi hl hb

theorem path_iff (h : HoldsTree c ns root) {i j : NodeIdx} {p : List Bool} (hi : i.toNat < (buildTree c).nodes.length) :
    IsPath ns i p j ↔ IsPath (buildTree c).nodes i p j := by
  obtain ⟨ms, rfl⟩ := h.nodes
  exact ⟨IsPath.of_append (buildTree_closed c) ms hi, IsPath.append (buildTree_closed c) ms hi⟩

theorem path_le (h : HoldsTree c ns root) {i j : NodeIdx} {p : List Bool} (hi : i.toNat < (buildTree c).nodes.length)
    (hp : IsPath ns i p j) : j.toNat ≤ i.toNat :=
  ((h.path_iff hi).1 hp).le (buildTree_closed c) hi

/-- The root is an internal node (rule R154). -/
theorem root_internal (h : HoldsTree c ns root) : (nodeOf ns root).isLeaf = false := by
  have := (buildTree_shape c).root
  have := length_lt_buildTree c
  have hroot := h.root_toNat
  rw [← Bool.not_eq_true, h.isLeaf_iff h.root_lt]
  omega

/-- A path is no longer than the internal nodes it passes (rule R29). -/
theorem path_length (h : HoldsTree c ns root) {i j : NodeIdx} {p : List Bool} (hi : i.toNat < (buildTree c).nodes.length)
    (hp : IsPath ns i p j) : p = [] ∨ p.length + (presentSymbols c).length ≤ i.toNat + 1 := by
  induction p generalizing i with
  | nil => exact .inl rfl
  | cons b p ih =>
    obtain ⟨h1, h2, h3⟩ := hp
    have hc := h.child_lt hi h1 h2
    have hL : (presentSymbols c).length ≤ i.toNat := by
      by_contra hlt
      rw [(h.isLeaf_iff hi).2 (by omega)] at h1
      cases h1
    right
    rcases ih (hc.trans hi) h3 with rfl | h4
    · simp only [List.length_cons, List.length_nil]
      omega
    · simp only [List.length_cons]
      omega

/-- Depth bound (rule R29): no root path is longer than 256. -/
theorem root_path_length (h : HoldsTree c ns root) {j : NodeIdx} {p : List Bool} (hp : IsPath ns root p j) : p.length ≤ 256 := by
  have hs := buildTree_shape c
  have hroot := h.root_toNat
  have h1 := hs.root
  have h2 := hs.length
  have h3 := presentSymbols_length_le c
  have h4 := presentSymbols_length_pos c
  rcases h.path_length h.root_lt hp with rfl | h5
  · simp
  · split at h2 <;> omega

/-- A root path of a leaf has at least one bit (rule R175). -/
theorem leaf_path_ne_nil (h : HoldsTree c ns root) {j : NodeIdx} {p : List Bool} (hp : IsPath ns root p j)
    (hj : (nodeOf ns j).isLeaf = true) : p ≠ [] := by
  rintro rfl
  cases hp
  rw [h.root_internal] at hj
  cases hj

/-- A leaf of the tree holds a present symbol (rule R150). -/
theorem leaf_sym (h : HoldsTree c ns root) {j : NodeIdx} (hj : j.toNat < (buildTree c).nodes.length)
    (hl : (nodeOf ns j).isLeaf = true) : (nodeOf ns j).sym.toNat ∈ presentSymbols c := by
  have hlt := (h.isLeaf_iff hj).1 hl
  rw [nodeOf_eq_recordAt, h.recordAt_eq hj, recordAt_leaf hlt]
  rw [leafNode_sym _ (presentSymbols_le (List.getElem_mem hlt))]
  exact List.getElem_mem hlt

theorem codePath_present (h : HoldsTree c ns root) {s : Nat} {p : List Bool} (hp : IsCodePath ns root s p) :
    s ∈ presentSymbols c := by
  obtain ⟨j, hp, hj, rfl⟩ := hp
  exact h.leaf_sym (Nat.lt_of_le_of_lt (h.path_le h.root_lt hp) h.root_lt) hj

/-- Every present symbol has a leaf, below the root (rule R156). -/
theorem present_codePath (h : HoldsTree c ns root) {s : Nat} (hs : s ∈ presentSymbols c) : ∃ p, IsCodePath ns root s p := by
  obtain ⟨i, hi, rfl⟩ := List.getElem_of_mem hs
  have hlen := length_lt_buildTree c
  have hle := buildTree_length_le c
  obtain ⟨p, hp⟩ := (buildTree_shape c).reach i (by omega)
  have hidx : (BitVec.ofNat 10 i).toNat = i := by
    rw [BitVec.toNat_ofNat, Nat.mod_eq_of_lt (by omega)]
  rw [← h.root, ← h.path_iff h.root_lt] at hp
  refine ⟨p, BitVec.ofNat 10 i, hp, ?_, ?_⟩
  · rw [h.isLeaf_iff (by rw [hidx]; omega), hidx]
    exact hi
  · rw [nodeOf_eq_recordAt, hidx, h.recordAt_eq (by omega), recordAt_leaf hi]
    exact leafNode_sym _ (presentSymbols_le (List.getElem_mem hi))

/-- Each symbol has one root path only (rule R156). -/
theorem codePath_unique (h : HoldsTree c ns root) {s : Nat} {p q : List Bool} (hp : IsCodePath ns root s p)
    (hq : IsCodePath ns root s q) : p = q := by
  obtain ⟨j, hp, hj, hjs⟩ := hp
  obtain ⟨k, hq, hk, hks⟩ := hq
  have hjlt := Nat.lt_of_le_of_lt (h.path_le h.root_lt hp) h.root_lt
  have hklt := Nat.lt_of_le_of_lt (h.path_le h.root_lt hq) h.root_lt
  have hj' := (h.isLeaf_iff hjlt).1 hj
  have hk' := (h.isLeaf_iff hklt).1 hk
  rw [nodeOf_eq_recordAt, h.recordAt_eq hjlt, recordAt_leaf hj', leafNode_sym _ (presentSymbols_le (List.getElem_mem hj'))] at hjs
  rw [nodeOf_eq_recordAt, h.recordAt_eq hklt, recordAt_leaf hk', leafNode_sym _ (presentSymbols_le (List.getElem_mem hk'))] at hks
  have : j.toNat = k.toNat := by
    have := presentSymbols_nodup c
    exact (List.Nodup.getElem_inj_iff this).1 (hjs.trans hks.symm)
  obtain rfl := BitVec.eq_of_toNat_eq this
  rw [h.path_iff h.root_lt, h.root] at hp hq
  exact (buildTree_shape c).unique j p q hp hq

/-- The code recorded for a present symbol is its root path (rule R170). -/
theorem code_path (h : HoldsTree c ns root) {s : Nat} (hs : s ∈ presentSymbols c) :
    IsCodePath ns root s (codeOf (buildCodes ns root) s) := by
  obtain ⟨p, j, hp, hj, hjs⟩ := h.present_codePath hs
  have hfound := leafPaths_complete (d := Config.maxCodeLen + 1) [] hp hj
    (Nat.lt_succ_of_le (h.root_path_length hp))
  rcases codeOf_recordCodes (leafPaths ns (Config.maxCodeLen + 1) root []) s with ⟨-, h2⟩ | ⟨e, he, h1, h2⟩
  · exact absurd hjs (h2 _ hfound)
  · obtain ⟨r, k, hr, hk, hkl, hks, -⟩ := leafPaths_sound h.walkOk h.root_lt he
    rw [buildCodes, h2, hr, List.nil_append]
    exact ⟨k, hk, hkl, by rw [hks]; exact h1⟩

/-- A symbol that is not present has no code (rule R170). -/
theorem code_absent (h : HoldsTree c ns root) {s : Nat} (hs : s ∉ presentSymbols c) : codeOf (buildCodes ns root) s = [] := by
  rcases codeOf_recordCodes (leafPaths ns (Config.maxCodeLen + 1) root []) s with ⟨h1, -⟩ | ⟨e, he, h1, -⟩
  · exact h1
  · obtain ⟨r, k, -, hk, hkl, hks, -⟩ := leafPaths_sound h.walkOk h.root_lt he
    exact absurd (h.codePath_present ⟨k, hk, hkl, by rw [hks]; exact h1⟩) hs

/-- A code is empty exactly where its symbol is absent (rule R175). -/
theorem code_ne_nil_iff (h : HoldsTree c ns root) (s : Nat) : codeOf (buildCodes ns root) s ≠ [] ↔ s ∈ presentSymbols c := by
  constructor
  · intro h1
    by_contra h2
    exact h1 (h.code_absent h2)
  · intro hs
    obtain ⟨j, hp, hj, -⟩ := h.code_path hs
    exact h.leaf_path_ne_nil hp hj

/-- No code is longer than the field of the code table (rule R29). -/
theorem code_length_le (h : HoldsTree c ns root) (s : Nat) : (codeOf (buildCodes ns root) s).length ≤ 256 := by
  by_cases hs : s ∈ presentSymbols c
  · obtain ⟨j, hp, -, -⟩ := h.code_path hs
    exact h.root_path_length hp
  · rw [h.code_absent hs]
    simp

/-- The code table is in its canonical form, and every code fits its field (rule R30). -/
theorem codes_wf (h : HoldsTree c ns root) :
    Table.Wf [] (Config.eofSymbol + 1) (buildCodes ns root) ∧ ∀ e ∈ buildCodes ns root, e.2.length ≤ Config.maxCodeLen := by
  constructor
  · refine wf_recordCodes ?_
    intro e he
    obtain ⟨r, k, -, hk, hkl, hks, -⟩ := leafPaths_sound h.walkOk h.root_lt he
    exact Nat.lt_succ_of_le (presentSymbols_le (h.codePath_present ⟨k, hk, hkl, by rw [hks]⟩))
  · intro f hf
    rcases mem_recordCodes hf with hf | ⟨e, he, rfl⟩
    · cases hf
    · obtain ⟨r, k, hr, -, -, -, hlt⟩ := leafPaths_sound h.walkOk h.root_lt he
      rw [show (e.1.toNat, e.2).2 = e.2 from rfl, hr, List.nil_append]
      exact Nat.le_of_lt_succ hlt

end HoldsTree

theorem State.TreeCurrent.holds {s : State} (h : s.TreeCurrent) : HoldsTree s.count s.nodes s.root := by
  obtain ⟨h1, h2, h3⟩ := h
  refine ⟨⟨s.nodes.drop s.nodeCount.toNat, ?_⟩, ?_⟩
  · rw [← h1, List.take_append_drop]
  · apply BitVec.eq_of_toNat_eq
    have := (buildTree_shape s.count).root
    have := buildTree_length_le s.count
    rw [h3, BitVec.toNat_ofNat, Nat.mod_eq_of_lt (by omega)]

end Sys2Proof.Machine
end

