-- ==== Sys2Proof/Laws/Exchange.lean ====
section
/-! SUPPORT. The exchange argument behind rule R157, over plain binary trees with distinct symbols: the two lightest symbols can be moved to
a deepest pair of sibling leaves, and that pair then joined, without raising the weighted depth sum. -/

namespace Sys2Proof.Machine.PrefixTree

/-- The tree with every symbol renamed. -/
def rename (f : Nat → Nat) : PrefixTree → PrefixTree
  | .leaf k => .leaf (f k)
  | .node z o => .node (z.rename f) (o.rename f)

/-- The depth of the deepest leaf. -/
def height : PrefixTree → Nat
  | .leaf _ => 0
  | .node z o => max z.height o.height + 1

/-- Each symbol with the depth of its leaf, in a tree whose root is at depth `d`. -/
def depths : PrefixTree → Nat → List (Nat × Nat)
  | .leaf k, d => [(k, d)]
  | .node z o, d => z.depths (d + 1) ++ o.depths (d + 1)

/-- The weighted sum of a list of symbols and depths. -/
def weigh (w : Nat → Nat) (l : List (Nat × Nat)) : Nat := (l.map (fun e => w e.1 * e.2)).sum

theorem weigh_depths (w : Nat → Nat) (t : PrefixTree) (d : Nat) : weigh w (t.depths d) = t.weightedDepth w d := by
  induction t generalizing d with
  | leaf k => simp [depths, weigh, weightedDepth]
  | node z o hz ho =>
    have h1 := hz (d + 1)
    have h2 := ho (d + 1)
    simp only [weigh] at h1 h2
    simp [depths, weigh, weightedDepth, h1, h2]

theorem depths_symbols (t : PrefixTree) (d : Nat) : (t.depths d).map Prod.fst = t.symbols := by
  induction t generalizing d with
  | leaf k => rfl
  | node z o hz ho => simp [depths, symbols, hz, ho]

theorem rename_symbols (f : Nat → Nat) (t : PrefixTree) : (t.rename f).symbols = t.symbols.map f := by
  induction t with
  | leaf k => rfl
  | node z o hz ho => simp [rename, symbols, hz, ho]

theorem rename_weightedDepth (f : Nat → Nat) (w : Nat → Nat) (t : PrefixTree) (d : Nat) :
    (t.rename f).weightedDepth w d = t.weightedDepth (fun k => w (f k)) d := by
  induction t generalizing d with
  | leaf k => rfl
  | node z o hz ho => simp [rename, weightedDepth, hz, ho]

theorem rename_height (f : Nat → Nat) (t : PrefixTree) : (t.rename f).height = t.height := by
  induction t with
  | leaf k => rfl
  | node z o hz ho => simp [rename, height, hz, ho]

theorem depth_le (t : PrefixTree) (d : Nat) : ∀ e ∈ t.depths d, e.2 ≤ d + t.height := by
  induction t generalizing d with
  | leaf k =>
    intro e he
    simp only [depths, List.mem_singleton] at he
    subst he
    simp [height]
  | node z o hz ho =>
    intro e he
    rcases List.mem_append.1 he with he | he
    · have := hz (d + 1) e he
      simp only [height]
      omega
    · have := ho (d + 1) e he
      simp only [height]
      omega

/-- Only the weights of the tree's own symbols matter. -/
theorem weightedDepth_congr {w w' : Nat → Nat} (t : PrefixTree) (h : ∀ k ∈ t.symbols, w k = w' k) (d : Nat) :
    t.weightedDepth w d = t.weightedDepth w' d := by
  induction t generalizing d with
  | leaf k => simp [weightedDepth, h k (by simp [symbols])]
  | node z o hz ho =>
    simp only [symbols, List.mem_append] at h
    simp [weightedDepth, hz (fun k hk => h k (.inl hk)), ho (fun k hk => h k (.inr hk))]

/-- One level further down, each symbol counts once more. -/
theorem weightedDepth_succ (w : Nat → Nat) (t : PrefixTree) (d : Nat) :
    t.weightedDepth w (d + 1) = t.weightedDepth w d + (t.symbols.map w).sum := by
  induction t generalizing d with
  | leaf k => simp [weightedDepth, symbols, Nat.mul_add]
  | node z o hz ho =>
    simp only [weightedDepth, symbols, List.map_append, List.sum_append, hz (d + 1), ho (d + 1)]
    omega

/-- `x` and `y` are the symbols of two sibling leaves, and no leaf is deeper. -/
inductive Deepest : PrefixTree → Nat → Nat → Prop where
  | here (x y : Nat) : Deepest (.node (.leaf x) (.leaf y)) x y
  | zero {z o : PrefixTree} {x y : Nat} (h : Deepest z x y) (ho : o.height ≤ z.height) : Deepest (.node z o) x y
  | one {z o : PrefixTree} {x y : Nat} (h : Deepest o x y) (hz : z.height ≤ o.height) : Deepest (.node z o) x y

theorem exists_deepest (t : PrefixTree) (h : 0 < t.height) : ∃ x y, Deepest t x y := by
  induction t with
  | leaf k => simp [height] at h
  | node z o hz ho =>
    rcases Nat.lt_or_ge 0 z.height with h1 | h1
    · rcases Nat.le_total o.height z.height with h2 | h2
      · obtain ⟨x, y, hd⟩ := hz h1
        exact ⟨x, y, .zero hd h2⟩
      · obtain ⟨x, y, hd⟩ := ho (by omega)
        exact ⟨x, y, .one hd h2⟩
    · rcases Nat.lt_or_ge 0 o.height with h2 | h2
      · obtain ⟨x, y, hd⟩ := ho h2
        exact ⟨x, y, .one hd (by omega)⟩
      · cases z with
        | node _ _ => simp [height] at h1
        | leaf x =>
          cases o with
          | node _ _ => simp [height] at h2
          | leaf y => exact ⟨x, y, .here x y⟩

theorem Deepest.rename {t : PrefixTree} {x y : Nat} (h : Deepest t x y) (f : Nat → Nat) :
    Deepest (t.rename f) (f x) (f y) := by
  induction h with
  | here x y => exact .here _ _
  | zero h ho ih => exact .zero ih (by rw [rename_height, rename_height]; exact ho)
  | one h hz ih => exact .one ih (by rw [rename_height, rename_height]; exact hz)

theorem Deepest.depth {t : PrefixTree} {x y : Nat} (h : Deepest t x y) (d : Nat) :
    (x, d + t.height) ∈ t.depths d ∧ (y, d + t.height) ∈ t.depths d := by
  induction h generalizing d with
  | here x y => simp [depths, height]
  | @zero z o x y h ho ih =>
    obtain ⟨h1, h2⟩ := ih (d + 1)
    have e : d + (PrefixTree.node z o).height = d + 1 + z.height := by
      simp only [height]
      omega
    rw [e]
    exact ⟨List.mem_append_left _ h1, List.mem_append_left _ h2⟩
  | @one z o x y h hz ih =>
    obtain ⟨h1, h2⟩ := ih (d + 1)
    have e : d + (PrefixTree.node z o).height = d + 1 + o.height := by
      simp only [height]
      omega
    rw [e]
    exact ⟨List.mem_append_right _ h1, List.mem_append_right _ h2⟩

/-- Joining a deepest pair into one leaf `n` takes their two weights, once each, off the sum. -/
theorem Deepest.join {t : PrefixTree} {x y : Nat} (h : Deepest t x y) (n : Nat) :
    ∃ (t' : PrefixTree) (rest : List Nat), t.symbols.Perm (x :: y :: rest) ∧ t'.symbols.Perm (n :: rest) ∧
      ∀ (w w' : Nat → Nat) (d : Nat), (∀ k ∈ rest, w' k = w k) → w' n = w x + w y →
        t'.weightedDepth w' d + w x + w y = t.weightedDepth w d := by
  induction h with
  | here x y =>
    refine ⟨.leaf n, [], .refl _, .refl _, ?_⟩
    intro w w' d _ hn
    simp only [weightedDepth, hn]
    ring
  | @zero z o x y h ho ih =>
    obtain ⟨t', rest, h1, h2, h3⟩ := ih
    refine ⟨.node t' o, rest ++ o.symbols, h1.append_right _, h2.append_right _, ?_⟩
    intro w w' d hr hn
    have e1 := h3 w w' (d + 1) (fun k hk => hr k (List.mem_append_left _ hk)) hn
    have e2 := weightedDepth_congr (w := w') (w' := w) o (fun k hk => hr k (List.mem_append_right _ hk)) (d + 1)
    simp only [weightedDepth, e2]
    omega
  | @one z o x y h hz ih =>
    obtain ⟨t', rest, h1, h2, h3⟩ := ih
    refine ⟨.node z t', rest ++ z.symbols, ?_, ?_, ?_⟩
    · exact List.perm_append_comm.trans (h1.append_right _)
    · exact List.perm_append_comm.trans (h2.append_right _)
    · intro w w' d hr hn
      have e1 := h3 w w' (d + 1) (fun k hk => hr k (List.mem_append_left _ hk)) hn
      have e2 := weightedDepth_congr (w := w') (w' := w) z (fun k hk => hr k (List.mem_append_right _ hk)) (d + 1)
      simp only [weightedDepth, e2]
      omega

/-- Renaming by a swap of two symbols. -/
def swap (a x : Nat) (k : Nat) : Nat := if k = a then x else if k = x then a else k

theorem swap_left (a x : Nat) : swap a x a = x := by simp [swap]

theorem swap_right (a x : Nat) : swap a x x = a := by
  unfold swap
  split <;> simp_all

theorem swap_other {a x k : Nat} (h1 : k ≠ a) (h2 : k ≠ x) : swap a x k = k := by simp [swap, h1, h2]

theorem perm_pair {l : List (Nat × Nat)} {e f : Nat × Nat} (he : e ∈ l) (hf : f ∈ l) (h : e ≠ f) :
    ∃ r, l.Perm (e :: f :: r) := by
  obtain ⟨r, hr⟩ : ∃ r, l.Perm (e :: r) := ⟨_, List.perm_cons_erase he⟩
  have hf' : f ∈ r := by
    rcases List.mem_cons.1 (hr.mem_iff.1 hf) with h' | h'
    · exact absurd h'.symm h
    · exact h'
  exact ⟨_, hr.trans ((List.perm_cons_erase hf').cons e)⟩

/-- Moving a lighter symbol to a deeper leaf, and that leaf's symbol to its place, does not raise the sum; the set of symbols stays. -/
theorem swap_le {t : PrefixTree} {w : Nat → Nat} {a x ea ex d : Nat} (hn : t.symbols.Nodup) (ha : (a, ea) ∈ t.depths d)
    (hx : (x, ex) ∈ t.depths d) (hw : w a ≤ w x) (hd : ea ≤ ex) :
    (t.rename (swap a x)).weightedDepth w d ≤ t.weightedDepth w d ∧ (t.rename (swap a x)).symbols.Perm t.symbols := by
  by_cases h : a = x
  · subst h
    have e : ∀ k, swap a a k = k := by
      intro k
      unfold swap
      split <;> simp_all
    rw [rename_weightedDepth, rename_symbols]
    refine ⟨le_of_eq (weightedDepth_congr t (fun k _ => by rw [e]) d), ?_⟩
    rw [List.map_congr_left (fun k _ => e k)]
    simp
  · obtain ⟨r, hr⟩ := perm_pair ha hx (fun e => h (congrArg Prod.fst e))
    have hs : t.symbols.Perm (a :: x :: r.map Prod.fst) := by
      rw [← depths_symbols t d]
      exact hr.map Prod.fst
    have hnd := hs.nodup_iff.1 hn
    rw [List.nodup_cons, List.nodup_cons] at hnd
    obtain ⟨h1, h2, -⟩ := hnd
    have other : ∀ e ∈ r, swap a x e.1 = e.1 := by
      intro e he
      have hm : e.1 ∈ r.map Prod.fst := List.mem_map_of_mem he
      refine swap_other ?_ ?_
      · rintro rfl
        exact h1 (List.mem_cons_of_mem _ hm)
      · rintro rfl
        exact h2 hm
    constructor
    · rw [rename_weightedDepth, ← weigh_depths, ← weigh_depths]
      unfold weigh
      rw [(hr.map _).sum_eq, (hr.map (fun e => w e.1 * e.2)).sum_eq]
      have hrest : r.map (fun e => w (swap a x e.1) * e.2) = r.map (fun e => w e.1 * e.2) :=
        List.map_congr_left (fun e he => by rw [other e he])
      simp only [List.map_cons, List.sum_cons, swap_left, swap_right, hrest]
      have : w x * ea + w a * ex ≤ w a * ea + w x * ex := by
        obtain ⟨c, hc⟩ := Nat.exists_eq_add_of_le hw
        obtain ⟨f, hf⟩ := Nat.exists_eq_add_of_le hd
        rw [hc, hf]
        nlinarith [Nat.zero_le (c * f)]
      omega
    · rw [rename_symbols]
      refine (hs.map _).trans ?_
      simp only [List.map_cons, swap_left, swap_right, List.map_map]
      rw [List.map_congr_left (f := swap a x ∘ Prod.fst) (g := Prod.fst) (fun e he => other e he)]
      exact (List.Perm.swap _ _ _).trans hs.symm

/-- The exchange: where `a` and `b` are the two lightest symbols, some tree in which one leaf `n` of their joint weight stands for them
has a weighted depth sum smaller by that weight. -/
theorem exchange {t : PrefixTree} {w w' : Nat → Nat} {a b n : Nat} {rest : List Nat} (hs : t.symbols.Perm (a :: b :: rest))
    (hn : t.symbols.Nodup) (hab : w a ≤ w b) (hb : ∀ k ∈ rest, w b ≤ w k) (hrest : ∀ k ∈ rest, w' k = w k)
    (hnew : w' n = w a + w b) :
    ∃ t' : PrefixTree, t'.symbols.Perm (n :: rest) ∧ t'.weightedDepth w' 0 + w a + w b ≤ t.weightedDepth w 0 := by
  have hpos : 0 < t.height := by
    cases t with
    | leaf k =>
      have := hs.length_eq
      simp [symbols] at this
    | node z o => simp [height]
  obtain ⟨x, y, hdeep⟩ := exists_deepest t hpos
  have hmem : ∀ k, k ∈ t.symbols → ∃ e, (k, e) ∈ t.depths 0 := by
    intro k hk
    rw [← depths_symbols t 0] at hk
    obtain ⟨⟨k', e⟩, h1, h2⟩ := List.mem_map.1 hk
    simp only at h2
    subst h2
    exact ⟨e, h1⟩
  have hle : ∀ k ∈ t.symbols, w a ≤ w k := by
    intro k hk
    rcases List.mem_cons.1 (hs.mem_iff.1 hk) with rfl | hk
    · exact Nat.le_refl _
    · rcases List.mem_cons.1 hk with rfl | hk
      · exact hab
      · exact hab.trans (hb k hk)
  have hnd := hs.nodup_iff.1 hn
  rw [List.nodup_cons] at hnd
  have hba : b ≠ a := by
    rintro rfl
    exact hnd.1 (by simp)
  -- first `a` to the place of `x`
  obtain ⟨ea, hea⟩ := hmem a (hs.mem_iff.2 (by simp))
  have hx := (hdeep.depth 0).1
  have hxs : x ∈ t.symbols := by
    rw [← depths_symbols t 0]
    exact List.mem_map_of_mem hx
  obtain ⟨c1, p1⟩ := swap_le (w := w) hn hea hx (hle x hxs) (depth_le t 0 _ hea)
  have d1 := hdeep.rename (swap a x)
  rw [swap_right] at d1
  have n1 : (t.rename (swap a x)).symbols.Nodup := p1.nodup_iff.2 hn
  generalize (t.rename (swap a x)) = t1 at c1 p1 d1 n1
  generalize swap a x y = y1 at d1
  -- then `b` to the place of its sibling
  obtain ⟨t1', r1, q1, -⟩ := d1.join n
  have hya : y1 ≠ a := by
    have := q1.nodup_iff.1 n1
    rw [List.nodup_cons] at this
    rintro rfl
    exact this.1 (by simp)
  have hy := (d1.depth 0).2
  have hys : y1 ∈ t1.symbols := by
    rw [← depths_symbols t1 0]
    exact List.mem_map_of_mem hy
  have hbt : b ∈ t1.symbols := p1.mem_iff.2 (hs.mem_iff.2 (by simp))
  have hby : w b ≤ w y1 := by
    rcases List.mem_cons.1 ((p1.trans hs).mem_iff.1 hys) with h | h
    · exact absurd h hya
    · rcases List.mem_cons.1 h with h | h
      · rw [h]
      · exact hb y1 h
  rw [← depths_symbols t1 0] at hbt
  obtain ⟨⟨b', eb⟩, heb, hb'⟩ := List.mem_map.1 hbt
  simp only at hb'
  subst hb'
  obtain ⟨c2, p2⟩ := swap_le (w := w) n1 heb hy hby (depth_le t1 0 _ heb)
  have d2 := d1.rename (swap b' y1)
  rw [swap_right, swap_other (Ne.symm hba) (Ne.symm hya)] at d2
  -- and the pair is joined
  obtain ⟨t', r, q, q', hj⟩ := d2.join n
  have hr : r.Perm rest := by
    have := (q.symm.trans ((p2.trans p1).trans hs))
    exact (List.perm_cons _).1 ((List.perm_cons _).1 this)
  refine ⟨t', q'.trans (hr.cons n), ?_⟩
  have := hj w w' 0 (fun k hk => hrest k (hr.mem_iff.1 hk)) hnew
  omega

end Sys2Proof.Machine.PrefixTree
end

