-- ==== Sys2Proof/Laws/Merge.lean ====
section
/-! SUPPORT. Two things the merging loop keeps (rules R151, R152, R157): which nodes are still in the queue and what each merge took; and,
for every way to go on from a pass, that the loop's way has no larger weighted depth sum. -/

namespace Sys2Proof.Machine

/-! ### What each merge takes (rules R151, R152) -/

/-- Record `j` is a child of a record from `L` on, below `m`. -/
def TakenBelow (ns : List Node) (L m : Nat) (j : Nat) : Prop :=
  ∃ i, L ≤ i ∧ i < m ∧ ((recordAt ns i).zero.toNat = j ∨ (recordAt ns i).one.toNat = j)

/-- An element of the queue order for record `j`. -/
abbrev elemAt (ns : List Node) (j : Nat) : QElem := ((recordAt ns j).weight, j)

/-- The merge that made record `m` took the first and the second of the records not taken yet. -/
structure MergeFirst (ns : List Node) (L m : Nat) : Prop where
  order : comesBefore (elemAt ns (recordAt ns m).zero.toNat) (elemAt ns (recordAt ns m).one.toNat) = true
  first : ∀ j, j < m → j ≠ (recordAt ns m).zero.toNat → j ≠ (recordAt ns m).one.toNat → ¬ TakenBelow ns L m j →
    comesBefore (elemAt ns (recordAt ns m).one.toNat) (elemAt ns j) = true
  fresh : ¬ TakenBelow ns L m (recordAt ns m).zero.toNat ∧ ¬ TakenBelow ns L m (recordAt ns m).one.toNat

/-- What the loop keeps: the records not taken are those of the queue, and every merge so far was in order. -/
structure OrderInv (ls ns : List Node) (q : List QElem) : Prop where
  queued : ∀ j, j < ns.length → ¬ TakenBelow ns ls.length ns.length j → ∃ e ∈ q, e.2 = j
  free : ∀ e ∈ q, ¬ TakenBelow ns ls.length ns.length e.2
  merges : ∀ m, ls.length ≤ m → m < ns.length → MergeFirst ns ls.length m

theorem comesBefore_of_sorted {a b : QElem} (h : comesBefore b a = false) (hne : a.2 ≠ b.2) : comesBefore a b = true := by
  rw [comesBefore_false_iff] at h
  rw [comesBefore_iff]
  omega

theorem TakenBelow.append {ns : List Node} {L m j : Nat} (ms : List Node) (hm : m ≤ ns.length) :
    TakenBelow (ns ++ ms) L m j ↔ TakenBelow ns L m j := by
  constructor
  · rintro ⟨i, h1, h2, h3⟩
    rw [recordAt_append_left _ _ (show i < ns.length by omega)] at h3
    exact ⟨i, h1, h2, h3⟩
  · rintro ⟨i, h1, h2, h3⟩
    refine ⟨i, h1, h2, ?_⟩
    rw [recordAt_append_left _ _ (show i < ns.length by omega)]
    exact h3

theorem OrderInv.start (ls : List Node) : OrderInv ls ls (queueFrom 0 ls) := by
  refine ⟨fun j hj _ => ?_, ?_, fun m h1 h2 => absurd h2 (by omega)⟩
  swap
  · rintro e - ⟨i, h1, h2, -⟩
    omega
  exact ⟨(ls[j].weight, j), mem_queueFrom.2 ⟨by omega, ls[j], by simp [hj], rfl⟩, rfl⟩

theorem OrderInv.pass {ls ns : List Node} {a b : QElem} {q : List QElem} (hm : MergeInv ls ns (a :: b :: q))
    (hL : ls.length ≤ 257) (h : OrderInv ls ns (a :: b :: q)) :
    OrderInv ls (ns ++ [mergeNode a b]) (enqueue (a.1 + b.1, ns.length) q) := by
  have hsize := hm.size
  simp only [List.length_cons] at hsize
  have ha := hm.elems a (by simp)
  have hb := hm.elems b (by simp)
  have hnd := hm.distinct
  simp only [List.map_cons, List.nodup_cons] at hnd
  have hsorted := hm.sorted
  rw [QSorted, List.pairwise_cons, List.pairwise_cons] at hsorted
  have hself : recordAt (ns ++ [mergeNode a b]) ns.length = mergeNode a b := recordAt_append_self _ _
  have hz : (mergeNode a b).zero.toNat = a.2 := by
    simp only [mergeNode, BitVec.toNat_ofNat]
    omega
  have ho : (mergeNode a b).one.toNat = b.2 := by
    simp only [mergeNode, BitVec.toNat_ofNat]
    omega
  have hpre : ls.length ≤ ns.length := by
    obtain ⟨ms, rfl⟩ := hm.pre
    simp
  have hel : ∀ j, j < ns.length → elemAt (ns ++ [mergeNode a b]) j = elemAt ns j := by
    intro j hj
    rw [elemAt, recordAt_append_left _ _ hj]
  have hea : elemAt ns a.2 = a := by rw [elemAt, ha.2]
  have heb : elemAt ns b.2 = b := by rw [elemAt, hb.2]
  constructor
  · intro j hj hnt
    rw [List.length_append, List.length_singleton] at hj hnt
    by_cases hjn : j = ns.length
    · exact ⟨_, mem_enqueue.2 (.inl rfl), hjn.symm⟩
    · have hj' : j < ns.length := by omega
      have hja : j ≠ a.2 := by
        rintro rfl
        exact hnt ⟨ns.length, hpre, by omega, .inl (by rw [hself, hz])⟩
      have hjb : j ≠ b.2 := by
        rintro rfl
        exact hnt ⟨ns.length, hpre, by omega, .inr (by rw [hself, ho])⟩
      obtain ⟨e, he, rfl⟩ := h.queued j hj' (by
        rintro ⟨i, h1, h2, h3⟩
        refine hnt ⟨i, h1, by omega, ?_⟩
        rw [recordAt_append_left _ _ h2]
        exact h3)
      rcases List.mem_cons.1 he with rfl | he
      · exact absurd rfl hja
      · rcases List.mem_cons.1 he with rfl | he
        · exact absurd rfl hjb
        · exact ⟨e, mem_enqueue.2 (.inr he), rfl⟩
  · rintro e he ⟨i, h1, h2, h3⟩
    rw [List.length_append, List.length_singleton] at h2
    by_cases hi : i = ns.length
    · subst hi
      rw [hself, hz, ho] at h3
      rcases mem_enqueue.1 he with rfl | he
      · simp only at h3
        omega
      · rcases h3 with h3 | h3
        · exact hnd.1 (List.mem_cons_of_mem _ (h3 ▸ List.mem_map_of_mem he))
        · exact hnd.2.1 (h3 ▸ List.mem_map_of_mem he)
    · have hi' : i < ns.length := by omega
      rw [recordAt_append_left _ _ hi'] at h3
      rcases mem_enqueue.1 he with rfl | he
      · have hin := hm.inner i h1 hi'
        have h4 := hin.zero
        have h5 := hin.one
        simp only at h3
        omega
      · exact h.free e (by simp [he]) ⟨i, h1, hi', h3⟩
  · intro m h1 h2
    rw [List.length_append, List.length_singleton] at h2
    by_cases hmn : m = ns.length
    · subst hmn
      constructor
      · rw [hself, hz, ho, hel _ ha.1, hel _ hb.1, hea, heb]
        exact comesBefore_of_sorted (hsorted.1 b (by simp)) (fun e => hnd.1 (by simp [e]))
      · intro j hj hja hjb hnt
        rw [hself, hz] at hja
        rw [hself, ho] at hjb
        rw [TakenBelow.append _ (Nat.le_refl _)] at hnt
        obtain ⟨e, he, rfl⟩ := h.queued j hj hnt
        rcases List.mem_cons.1 he with rfl | he
        · exact absurd rfl hja
        · rcases List.mem_cons.1 he with rfl | he
          · exact absurd rfl hjb
          · have hee := hm.elems e (by simp [he])
            rw [hself, ho, hel _ hb.1, hel _ hj, heb, elemAt, hee.2]
            exact comesBefore_of_sorted (hsorted.2.1 e he) (fun e' => hjb e'.symm)
      · rw [hself, hz, ho, TakenBelow.append _ (Nat.le_refl _), TakenBelow.append _ (Nat.le_refl _)]
        exact ⟨h.free a (by simp), h.free b (by simp)⟩
    · have hm' : m < ns.length := by omega
      have hin := hm.inner m h1 hm'
      have hmf := h.merges m h1 hm'
      have hzl := hin.zero.trans hm'
      have hol := hin.one.trans hm'
      constructor
      · rw [recordAt_append_left _ _ hm', hel _ hzl, hel _ hol]
        exact hmf.order
      · intro j hj
        rw [recordAt_append_left _ _ hm', hel _ hol, hel _ (hj.trans hm'), TakenBelow.append _ (by omega)]
        exact hmf.first j hj
      · rw [recordAt_append_left _ _ hm', TakenBelow.append _ (by omega), TakenBelow.append _ (by omega)]
        exact hmf.fresh

theorem OrderInv.loop {ls : List Node} (hl : ∀ n ∈ ls, n.isLeaf = true) (hL : ls.length ≤ 257)
    (hW : (ls.map (fun n => n.weight.toNat)).sum < 2 ^ 41) (k : Nat) {ns : List Node} {q : List QElem}
    (hm : MergeInv ls ns q) (h : OrderInv ls ns q) (hk : q.length = k + 1) :
    OrderInv ls (mergeLoop k ns q).1 (mergeLoop k ns q).2 := by
  induction k generalizing ns q with
  | zero =>
    obtain ⟨e, rfl⟩ := List.length_eq_one_iff.1 hk
    exact h
  | succ k ih =>
    match q, hm, h, hk with
    | a :: b :: q, hm, h, hk =>
      have := ih (hm.pass hl hL hW) (h.pass hm hL) (by rw [length_enqueue]; simpa using hk)
      simpa [mergeLoop] using this

/-- Every merge of the tree of a table took the first two (rules R151, R152). -/
theorem buildTree_merges {c : Table Word} (h : 2 ≤ (presentSymbols c).length) {m : Nat}
    (h1 : (presentSymbols c).length ≤ m) (h2 : m < (buildTree c).nodes.length) :
    MergeFirst (buildTree c).nodes (presentSymbols c).length m := by
  have hlen := leaves_length c
  have hle : (leaves c).length ≤ 257 := by
    rw [hlen]
    exact presentSymbols_length_le c
  obtain ⟨e, hb, -⟩ := buildTree_merge h
  have := OrderInv.loop (leaves_isLeaf c) hle (leaves_weight_lt c) ((leaves c).length - 1)
    (MergeInv.start _ (leaves_isLeaf c) hle) (OrderInv.start _) (by rw [length_queueFrom]; omega)
  rw [hb] at h2 ⊢
  rw [← hlen]
  exact this.merges m (by omega) h2

/-! ### Trees of symbols in the store -/

/-- The records from node `i` down are the tree `t` of symbols. -/
def Represents (ns : List Node) : PrefixTree → NodeIdx → Prop
  | .leaf k, i => (nodeOf ns i).isLeaf = true ∧ (nodeOf ns i).sym.toNat = k
  | .node z o, i => (nodeOf ns i).isLeaf = false ∧ (nodeOf ns i).zero ≠ Config.nil ∧ (nodeOf ns i).one ≠ Config.nil ∧
      Represents ns z (nodeOf ns i).zero ∧ Represents ns o (nodeOf ns i).one

theorem Represents.append {ns : List Node} (hc : Closed ns) (ms : List Node) {t : PrefixTree} {i : NodeIdx}
    (hi : i.toNat < ns.length) (h : Represents ns t i) : Represents (ns ++ ms) t i := by
  have hn : nodeOf (ns ++ ms) i = nodeOf ns i := recordAt_append_left ns ms hi
  induction t generalizing i with
  | leaf k =>
    rw [Represents, hn]
    exact h
  | node z o hz ho =>
    obtain ⟨h1, h2, h3, h4, h5⟩ := h
    have e1 : (nodeOf ns i).zero.toNat < ns.length := (hc i.toNat hi h1 false h2).trans hi
    have e2 : (nodeOf ns i).one.toNat < ns.length := (hc i.toNat hi h1 true h3).trans hi
    rw [Represents, hn]
    exact ⟨h1, h2, h3, hz e1 h4 (recordAt_append_left ns ms e1), ho e2 h5 (recordAt_append_left ns ms e2)⟩

/-- A path to a leaf ends at a symbol of the tree. -/
theorem Represents.codePath {ns : List Node} {t : PrefixTree} {i : NodeIdx} {k : Nat} {p : List Bool} (h : Represents ns t i)
    (hp : IsCodePath ns i k p) : k ∈ t.symbols := by
  induction t generalizing i p with
  | leaf j =>
    obtain ⟨n, hp, hn, hs⟩ := hp
    cases p with
    | nil =>
      obtain rfl : i = n := hp
      rw [h.2] at hs
      simp [PrefixTree.symbols, hs]
    | cons b p => exact absurd hp.1 (by rw [h.1]; simp)
  | node z o hz ho =>
    obtain ⟨n, hp, hn, hs⟩ := hp
    obtain ⟨h1, -, -, h4, h5⟩ := h
    cases p with
    | nil =>
      obtain rfl : i = n := hp
      rw [h1] at hn
      cases hn
    | cons b p =>
      obtain ⟨-, -, hp⟩ := hp
      rw [PrefixTree.symbols, List.mem_append]
      cases b with
      | false => exact .inl (hz h4 ⟨n, hp, hn, hs⟩)
      | true => exact .inr (ho h5 ⟨n, hp, hn, hs⟩)

/-- The weighted depth sum, told by the lengths of the paths. -/
theorem Represents.weightedDepth {ns : List Node} {t : PrefixTree} {i : NodeIdx} (h : Represents ns t i)
    (hn : t.symbols.Nodup) (w : Nat → Nat) (f : Nat → List Bool) (hf : ∀ k ∈ t.symbols, IsCodePath ns i k (f k)) (d : Nat) :
    (t.symbols.map (fun k => w k * (d + (f k).length))).sum = t.weightedDepth w d := by
  induction t generalizing i f d with
  | leaf k =>
    obtain ⟨n, hp, -, -⟩ := hf k (by simp [PrefixTree.symbols])
    have hnil : f k = [] := by
      cases hfk : f k with
      | nil => rfl
      | cons b p =>
        rw [hfk] at hp
        exact absurd hp.1 (by rw [h.1]; simp)
    simp [PrefixTree.symbols, PrefixTree.weightedDepth, hnil]
  | node z o hz ho =>
    obtain ⟨h1, h2, h3, h4, h5⟩ := h
    rw [PrefixTree.symbols, List.nodup_append] at hn
    obtain ⟨n1, n2, n3⟩ := hn
    have step : ∀ k ∈ (PrefixTree.node z o).symbols, ∃ b p, f k = b :: p ∧ IsCodePath ns (childOf (nodeOf ns i) b) k p := by
      intro k hk
      obtain ⟨n, hp, hn, hs⟩ := hf k hk
      cases hfk : f k with
      | nil =>
        rw [hfk] at hp
        obtain rfl : i = n := hp
        rw [h1] at hn
        cases hn
      | cons b p =>
        rw [hfk] at hp
        exact ⟨b, p, rfl, n, hp.2.2, hn, hs⟩
    have hzs : ∀ k ∈ z.symbols, IsCodePath ns (nodeOf ns i).zero k (f k).tail ∧ (f k).length = (f k).tail.length + 1 := by
      intro k hk
      obtain ⟨b, p, e, hp⟩ := step k (by simp [PrefixTree.symbols, hk])
      rw [e]
      cases b with
      | false => exact ⟨hp, rfl⟩
      | true => exact absurd rfl (n3 k hk k (h5.codePath hp))
    have hos : ∀ k ∈ o.symbols, IsCodePath ns (nodeOf ns i).one k (f k).tail ∧ (f k).length = (f k).tail.length + 1 := by
      intro k hk
      obtain ⟨b, p, e, hp⟩ := step k (by simp [PrefixTree.symbols, hk])
      rw [e]
      cases b with
      | true => exact ⟨hp, rfl⟩
      | false => exact absurd rfl (n3 k (h4.codePath hp) k hk)
    have ez := hz h4 n1 (fun k => (f k).tail) (fun k hk => (hzs k hk).1) (d + 1)
    have eo := ho h5 n2 (fun k => (f k).tail) (fun k hk => (hos k hk).1) (d + 1)
    rw [PrefixTree.symbols, List.map_append, List.sum_append, PrefixTree.weightedDepth, ← ez, ← eo]
    congr 2
    · exact List.map_congr_left (fun k hk => by rw [(hzs k hk).2]; ring)
    · exact List.map_congr_left (fun k hk => by rw [(hos k hk).2]; ring)

/-! ### The loop's way is the best (rule R157) -/

/-- From a pass on, with a tree of symbols for each element of the queue: the loop ends with a tree over all their symbols whose weighted
depth sum is the least that any way of joining the elements gives. -/
theorem mergeLoop_best {ls : List Node} (hl : ∀ n ∈ ls, n.isLeaf = true) (hL : ls.length ≤ 257)
    (hW : (ls.map (fun n => n.weight.toNat)).sum < 2 ^ 41) (w : Nat → Nat) (k : Nat) {ns : List Node} {q : List QElem}
    (forest : Nat → PrefixTree) (hm : MergeInv ls ns q) (hk : q.length = k + 1)
    (hf : ∀ e ∈ q, Represents ns (forest e.2) (BitVec.ofNat 10 e.2) ∧ ((forest e.2).symbols.map w).sum = e.1.toNat) :
    ∃ (r : QElem) (best : PrefixTree), (mergeLoop k ns q).2 = [r] ∧
      Represents (mergeLoop k ns q).1 best (BitVec.ofNat 10 r.2) ∧
      best.symbols.Perm (q.flatMap (fun e => (forest e.2).symbols)) ∧
      ∀ (t : PrefixTree) (v : Nat → Nat), t.symbols.Perm (q.map Prod.snd) → (∀ e ∈ q, v e.2 = e.1.toNat) →
        best.weightedDepth w 0 ≤ (q.map (fun e => (forest e.2).weightedDepth w 0)).sum + t.weightedDepth v 0 := by
  induction k generalizing ns q forest with
  | zero =>
    obtain ⟨e, rfl⟩ := List.length_eq_one_iff.1 hk
    refine ⟨e, forest e.2, rfl, (hf e (by simp)).1, by simp, ?_⟩
    intro t v _ _
    simp
  | succ k ih =>
    match q, hm, hk, hf with
    | a :: b :: q, hm, hk, hf =>
      have hpass := hm.pass hl hL hW
      have hsize := hm.size
      simp only [List.length_cons] at hsize hk
      have ha := hm.elems a (by simp)
      have hb := hm.elems b (by simp)
      have hnd := hm.distinct
      have hsorted := hm.sorted
      rw [QSorted, List.pairwise_cons, List.pairwise_cons] at hsorted
      have htot := hm.total
      simp only [queueWeight, List.map_cons, List.sum_cons] at htot
      have hsum : (a.1 + b.1).toNat = a.1.toNat + b.1.toNat := by
        rw [BitVec.toNat_add, Nat.mod_eq_of_lt]
        omega
      have hold : ∀ e ∈ q, e.2 ≠ ns.length := by
        intro e he
        have := (hm.elems e (by simp [he])).1
        omega
      have hc := hm.closed hl
      -- the forest with the joined tree
      obtain ⟨forest', hnew, hsame⟩ : ∃ g : Nat → PrefixTree, g ns.length = .node (forest a.2) (forest b.2) ∧
          ∀ e ∈ q, g e.2 = forest e.2 :=
        ⟨fun j => if j = ns.length then .node (forest a.2) (forest b.2) else forest j, if_pos rfl,
          fun e he => if_neg (hold e he)⟩
      have hidx : ∀ i, i < 1024 → (BitVec.ofNat 10 i).toNat = i := by
        intro i hi
        rw [BitVec.toNat_ofNat, Nat.mod_eq_of_lt (by omega)]
      have hnode : nodeOf (ns ++ [mergeNode a b]) (BitVec.ofNat 10 ns.length) = mergeNode a b := by
        rw [nodeOf_eq_recordAt, hidx _ (by omega), recordAt_append_self]
      have hfa := hf a (by simp)
      have hfb := hf b (by simp)
      have hf' : ∀ e ∈ enqueue (a.1 + b.1, ns.length) q,
          Represents (ns ++ [mergeNode a b]) (forest' e.2) (BitVec.ofNat 10 e.2) ∧
            ((forest' e.2).symbols.map w).sum = e.1.toNat := by
        intro e he
        rcases mem_enqueue.1 he with rfl | he
        · refine ⟨?_, ?_⟩
          · simp only [hnew]
            rw [Represents, hnode]
            refine ⟨rfl, ne_nil_of_lt (n := 513) ?_ (by omega), ne_nil_of_lt (n := 513) ?_ (by omega),
              hfa.1.append hc _ ?_, hfb.1.append hc _ ?_⟩
            · show (BitVec.ofNat 10 a.2).toNat < 513
              rw [hidx _ (by omega)]
              omega
            · show (BitVec.ofNat 10 b.2).toNat < 513
              rw [hidx _ (by omega)]
              omega
            · rw [hidx _ (by omega)]
              exact ha.1
            · rw [hidx _ (by omega)]
              exact hb.1
          · simp only [hnew, PrefixTree.symbols, List.map_append, List.sum_append, hsum]
            rw [hfa.2, hfb.2]
        · rw [hsame e he]
          have hfe := hf e (by simp [he])
          refine ⟨hfe.1.append hc _ ?_, hfe.2⟩
          have := (hm.elems e (by simp [he])).1
          rw [hidx _ (by omega)]
          exact this
      obtain ⟨r, best, h1, h2, h3, h4⟩ := ih forest' hpass (by rw [length_enqueue]; omega) hf'
      have hloop : mergeLoop (k + 1) ns (a :: b :: q) =
          mergeLoop k (ns ++ [mergeNode a b]) (enqueue (a.1 + b.1, ns.length) q) := rfl
      have hperm := enqueue_perm (a.1 + b.1, ns.length) q
      refine ⟨r, best, by rw [hloop]; exact h1, by rw [hloop]; exact h2, ?_, ?_⟩
      · refine h3.trans ((hperm.flatMap_right _).trans ?_)
        simp only [List.flatMap_cons, hnew, PrefixTree.symbols, List.append_assoc]
        rw [List.flatMap_congr (fun e he => congrArg PrefixTree.symbols (hsame e he))]
      · intro t v ht hv
        have hva := hv a (by simp)
        have hvb := hv b (by simp)
        have hab : v a.2 ≤ v b.2 := by
          have := hsorted.1 b (by simp)
          rw [comesBefore_false_iff] at this
          omega
        have hbq : ∀ j ∈ q.map Prod.snd, v b.2 ≤ v j := by
          intro j hj
          obtain ⟨e, he, rfl⟩ := List.mem_map.1 hj
          have h5 := hsorted.2.1 e he
          have h6 := hv e (by simp [he])
          rw [comesBefore_false_iff] at h5
          omega
        obtain ⟨v', hv'n, hv's⟩ : ∃ g : Nat → Nat, g ns.length = v a.2 + v b.2 ∧ ∀ e ∈ q, g e.2 = v e.2 :=
          ⟨fun j => if j = ns.length then v a.2 + v b.2 else v j, if_pos rfl, fun e he => if_neg (hold e he)⟩
        obtain ⟨t', ht', hle⟩ := PrefixTree.exchange (w := v) (w' := v') (n := ns.length) ht (ht.nodup_iff.2 hnd) hab hbq
          (fun j hj => by obtain ⟨e, he, rfl⟩ := List.mem_map.1 hj; exact hv's e he) hv'n
        have h5 := h4 t' v' (ht'.trans (hperm.map Prod.snd).symm) (by
          intro e he
          rcases mem_enqueue.1 he with rfl | he
          · rw [hv'n, hva, hvb, hsum]
          · rw [hv's e he, hv e (by simp [he])])
        rw [((hperm.map _).sum_eq)] at h5
        simp only [List.map_cons, List.sum_cons, hnew, PrefixTree.weightedDepth] at h5
        rw [List.map_congr_left (fun e he => congrArg (fun x => PrefixTree.weightedDepth w x 0) (hsame e he)),
          PrefixTree.weightedDepth_succ, PrefixTree.weightedDepth_succ, hfa.2, hfb.2] at h5
        simp only [List.map_cons, List.sum_cons]
        omega

/-- The tree of a table of two present symbols or more, as a tree of symbols, has the least weighted depth sum of all. -/
theorem buildTree_best {c : Table Word} (h : 2 ≤ (presentSymbols c).length) :
    ∃ best : PrefixTree, Represents (buildTree c).nodes best (BitVec.ofNat 10 (buildTree c).root) ∧
      best.symbols.Perm (presentSymbols c) ∧
      ∀ other : PrefixTree, other.symbols.Perm (presentSymbols c) →
        best.weightedDepth (fun k => (countOf c k).toNat) 0 ≤ other.weightedDepth (fun k => (countOf c k).toNat) 0 := by
  have hlen := leaves_length c
  have hle := presentSymbols_length_le c
  have hget : ∀ e ∈ queueFrom 0 (leaves c), ∃ h : e.2 < (presentSymbols c).length,
      e.1 = (leafNode c (presentSymbols c)[e.2]).weight := by
    intro e he
    obtain ⟨-, n, hn, hw⟩ := mem_queueFrom.1 he
    rw [Nat.sub_zero, leaves, List.getElem?_map] at hn
    obtain ⟨k, hk, rfl⟩ := Option.map_eq_some_iff.1 hn
    obtain ⟨hlt, rfl⟩ := List.getElem?_eq_some_iff.1 hk
    exact ⟨hlt, hw.symm⟩
  have hidx : (queueFrom 0 (leaves c)).map Prod.snd |>.Perm (List.range (presentSymbols c).length) := by
    have := queueFrom_indices 0 (leaves c)
    rw [hlen] at this
    rw [List.range_eq_range']
    exact this
  obtain ⟨e, hb, -⟩ := buildTree_merge h
  obtain ⟨r, best, h1, h2, h3, h4⟩ := mergeLoop_best (leaves_isLeaf c) (by rw [hlen]; exact hle) (leaves_weight_lt c)
    (fun k => (countOf c k).toNat) ((leaves c).length - 1) (ns := leaves c) (q := queueFrom 0 (leaves c))
    (fun j => .leaf ((presentSymbols c).getD j 0)) (MergeInv.start _ (leaves_isLeaf c) (by rw [hlen]; exact hle))
    (by rw [length_queueFrom]; omega) (by
      intro e he
      obtain ⟨hlt, hw⟩ := hget e he
      have hk := presentSymbols_le (List.getElem_mem hlt)
      have hrec : nodeOf (leaves c) (BitVec.ofNat 10 e.2) = leafNode c (presentSymbols c)[e.2] := by
        rw [nodeOf_ofNat _ (by omega)]
        simp [recordAt, leaves, hlt]
      rw [List.getD_eq_getElem _ _ hlt]
      refine ⟨?_, ?_⟩
      · rw [Represents, hrec]
        exact ⟨leafNode_isLeaf c hk, leafNode_sym c hk⟩
      · simp [PrefixTree.symbols, hw, leafNode_weight])
  have hroot : (buildTree c).root = r.2 := by
    rw [buildTree]
    split
    · next leaf hleaf =>
      rw [hleaf] at hlen
      simp at hlen
      omega
    · simp [h1]
  have hnodes : (buildTree c).nodes = (mergeLoop ((leaves c).length - 1) (leaves c) (queueFrom 0 (leaves c))).1 := by rw [hb]
  have hflat : ((queueFrom 0 (leaves c)).flatMap (fun e => (PrefixTree.leaf ((presentSymbols c).getD e.2 0)).symbols)).Perm
      (presentSymbols c) := by
    have e1 : (queueFrom 0 (leaves c)).flatMap (fun e => (PrefixTree.leaf ((presentSymbols c).getD e.2 0)).symbols) =
        ((queueFrom 0 (leaves c)).map Prod.snd).map (fun j => (presentSymbols c).getD j 0) := by
      rw [List.map_map, List.map_eq_flatMap]
      rfl
    rw [e1]
    refine (hidx.map _).trans (List.Perm.of_eq ?_)
    apply List.ext_getElem
    · simp
    · intro i h1 h2
      simp [h2]
  refine ⟨best, by rw [hnodes, hroot]; exact h2, h3.trans hflat, ?_⟩
  intro other ho
  have hz : ((queueFrom 0 (leaves c)).map (fun e => (PrefixTree.leaf ((presentSymbols c).getD e.2 0)).weightedDepth
      (fun k => (countOf c k).toNat) 0)).sum = 0 := by
    rw [List.sum_eq_zero]
    intro x hx
    obtain ⟨e, -, rfl⟩ := List.mem_map.1 hx
    simp [PrefixTree.weightedDepth]
  have := h4 (other.rename (fun k => (presentSymbols c).idxOf k)) (fun j => (countOf c ((presentSymbols c).getD j 0)).toNat)
    (by
      rw [PrefixTree.rename_symbols]
      refine (ho.map _).trans ?_
      refine (List.Perm.of_eq ?_).trans hidx.symm
      apply List.ext_getElem
      · simp
      · intro i h1 h2
        simp only [List.length_map] at h1
        simp [List.Nodup.idxOf_getElem (presentSymbols_nodup c)])
    (by
      intro e he
      obtain ⟨hlt, hw⟩ := hget e he
      rw [List.getD_eq_getElem _ _ hlt, hw, leafNode_weight])
  rw [hz, Nat.zero_add, PrefixTree.rename_weightedDepth] at this
  refine this.trans (le_of_eq (PrefixTree.weightedDepth_congr other ?_ 0))
  intro k hk
  have hlt := List.idxOf_lt_length_iff.2 (ho.mem_iff.1 hk)
  simp only [List.getD_eq_getElem _ _ hlt, List.getElem_idxOf]

end Sys2Proof.Machine
end

