-- ==== Sys2Proof/Laws/State.lean ====
section
/-! SUPPORT. One lemma for each field of State under each named update, so that no proof unfolds a record update. -/

namespace Sys2Proof.Machine.State

variable (s : State)

/-! ### `complete` -/

@[simp] theorem complete_params : (s.complete).params = s.params := rfl
@[simp] theorem complete_count : (s.complete).count = s.count := rfl
@[simp] theorem complete_nodes : (s.complete).nodes = s.nodes := rfl
@[simp] theorem complete_treeValid : (s.complete).treeValid = s.treeValid := rfl
@[simp] theorem complete_nodeCount : (s.complete).nodeCount = s.nodeCount := rfl
@[simp] theorem complete_root : (s.complete).root = s.root := rfl
@[simp] theorem complete_codes : (s.complete).codes = s.codes := rfl
@[simp] theorem complete_codeValid : (s.complete).codeValid = s.codeValid := rfl
@[simp] theorem complete_totalBits : (s.complete).totalBits = s.totalBits := rfl
@[simp] theorem complete_encState : (s.complete).encState = s.encState := rfl
@[simp] theorem complete_encAcc : (s.complete).encAcc = s.encAcc := rfl
@[simp] theorem complete_encN : (s.complete).encN = s.encN := rfl
@[simp] theorem complete_encBits : (s.complete).encBits = s.encBits := rfl
@[simp] theorem complete_decState : (s.complete).decState = s.decState := rfl
@[simp] theorem complete_cursor : (s.complete).cursor = s.cursor := rfl
@[simp] theorem complete_decShift : (s.complete).decShift = s.decShift := rfl
@[simp] theorem complete_decAvail : (s.complete).decAvail = s.decAvail := rfl
@[simp] theorem complete_decBits : (s.complete).decBits = s.decBits := rfl
@[simp] theorem complete_outFifo : (s.complete).outFifo = s.outFifo := rfl
@[simp] theorem complete_inFifo : (s.complete).inFifo = s.inFifo := rfl
@[simp] theorem complete_inEnd : (s.complete).inEnd = s.inEnd := rfl
@[simp] theorem complete_dataLo : (s.complete).dataLo = s.dataLo := rfl
@[simp] theorem complete_dataHi : (s.complete).dataHi = s.dataHi := rfl
@[simp] theorem complete_result : (s.complete).result = s.result := rfl
@[simp] theorem complete_link : (s.complete).link = s.link := rfl
@[simp] theorem complete_error : (s.complete).error = s.error := rfl
@[simp] theorem complete_pend : (s.complete).pend = none := rfl
@[simp] theorem complete_host : (s.complete).host = s.host := rfl
@[simp] theorem complete_sched : (s.complete).sched = s.sched := rfl
@[simp] theorem complete_draws : (s.complete).draws = s.draws := rfl

/-! ### `issue` -/

@[simp] theorem issue_params (w : Word) : (State.issue w s).params = s.params := rfl
@[simp] theorem issue_count (w : Word) : (State.issue w s).count = s.count := rfl
@[simp] theorem issue_nodes (w : Word) : (State.issue w s).nodes = s.nodes := rfl
@[simp] theorem issue_treeValid (w : Word) : (State.issue w s).treeValid = s.treeValid := rfl
@[simp] theorem issue_nodeCount (w : Word) : (State.issue w s).nodeCount = s.nodeCount := rfl
@[simp] theorem issue_root (w : Word) : (State.issue w s).root = s.root := rfl
@[simp] theorem issue_codes (w : Word) : (State.issue w s).codes = s.codes := rfl
@[simp] theorem issue_codeValid (w : Word) : (State.issue w s).codeValid = s.codeValid := rfl
@[simp] theorem issue_totalBits (w : Word) : (State.issue w s).totalBits = s.totalBits := rfl
@[simp] theorem issue_encState (w : Word) : (State.issue w s).encState = s.encState := rfl
@[simp] theorem issue_encAcc (w : Word) : (State.issue w s).encAcc = s.encAcc := rfl
@[simp] theorem issue_encN (w : Word) : (State.issue w s).encN = s.encN := rfl
@[simp] theorem issue_encBits (w : Word) : (State.issue w s).encBits = s.encBits := rfl
@[simp] theorem issue_decState (w : Word) : (State.issue w s).decState = s.decState := rfl
@[simp] theorem issue_cursor (w : Word) : (State.issue w s).cursor = s.cursor := rfl
@[simp] theorem issue_decShift (w : Word) : (State.issue w s).decShift = s.decShift := rfl
@[simp] theorem issue_decAvail (w : Word) : (State.issue w s).decAvail = s.decAvail := rfl
@[simp] theorem issue_decBits (w : Word) : (State.issue w s).decBits = s.decBits := rfl
@[simp] theorem issue_outFifo (w : Word) : (State.issue w s).outFifo = s.outFifo := rfl
@[simp] theorem issue_inFifo (w : Word) : (State.issue w s).inFifo = s.inFifo := rfl
@[simp] theorem issue_inEnd (w : Word) : (State.issue w s).inEnd = s.inEnd := rfl
@[simp] theorem issue_dataLo (w : Word) : (State.issue w s).dataLo = s.dataLo := rfl
@[simp] theorem issue_dataHi (w : Word) : (State.issue w s).dataHi = s.dataHi := rfl
@[simp] theorem issue_result (w : Word) : (State.issue w s).result = s.result := rfl
@[simp] theorem issue_link (w : Word) : (State.issue w s).link = s.link := rfl
@[simp] theorem issue_error (w : Word) : (State.issue w s).error = s.error := rfl
@[simp] theorem issue_pend (w : Word) : (State.issue w s).pend = some { word := w, phase := .validate, idx := 0 } := rfl
@[simp] theorem issue_host (w : Word) : (State.issue w s).host = s.host := rfl
@[simp] theorem issue_sched (w : Word) : (State.issue w s).sched = s.sched := rfl
@[simp] theorem issue_draws (w : Word) : (State.issue w s).draws = s.draws := rfl

/-! ### `beginRun` -/

@[simp] theorem beginRun_params : (s.beginRun).params = s.params := rfl
@[simp] theorem beginRun_count : (s.beginRun).count = s.count := rfl
@[simp] theorem beginRun_nodes : (s.beginRun).nodes = s.nodes := rfl
@[simp] theorem beginRun_treeValid : (s.beginRun).treeValid = s.treeValid := rfl
@[simp] theorem beginRun_nodeCount : (s.beginRun).nodeCount = s.nodeCount := rfl
@[simp] theorem beginRun_root : (s.beginRun).root = s.root := rfl
@[simp] theorem beginRun_codes : (s.beginRun).codes = s.codes := rfl
@[simp] theorem beginRun_codeValid : (s.beginRun).codeValid = s.codeValid := rfl
@[simp] theorem beginRun_totalBits : (s.beginRun).totalBits = s.totalBits := rfl
@[simp] theorem beginRun_encState : (s.beginRun).encState = s.encState := rfl
@[simp] theorem beginRun_encAcc : (s.beginRun).encAcc = s.encAcc := rfl
@[simp] theorem beginRun_encN : (s.beginRun).encN = s.encN := rfl
@[simp] theorem beginRun_encBits : (s.beginRun).encBits = s.encBits := rfl
@[simp] theorem beginRun_decState : (s.beginRun).decState = s.decState := rfl
@[simp] theorem beginRun_cursor : (s.beginRun).cursor = s.cursor := rfl
@[simp] theorem beginRun_decShift : (s.beginRun).decShift = s.decShift := rfl
@[simp] theorem beginRun_decAvail : (s.beginRun).decAvail = s.decAvail := rfl
@[simp] theorem beginRun_decBits : (s.beginRun).decBits = s.decBits := rfl
@[simp] theorem beginRun_outFifo : (s.beginRun).outFifo = s.outFifo := rfl
@[simp] theorem beginRun_inFifo : (s.beginRun).inFifo = s.inFifo := rfl
@[simp] theorem beginRun_inEnd : (s.beginRun).inEnd = s.inEnd := rfl
@[simp] theorem beginRun_dataLo : (s.beginRun).dataLo = s.dataLo := rfl
@[simp] theorem beginRun_dataHi : (s.beginRun).dataHi = s.dataHi := rfl
@[simp] theorem beginRun_result : (s.beginRun).result = s.result := rfl
@[simp] theorem beginRun_link : (s.beginRun).link = s.link := rfl
@[simp] theorem beginRun_error : (s.beginRun).error = s.error := rfl
@[simp] theorem beginRun_pend : (s.beginRun).pend = s.pend.map (fun p => { p with phase := .run, idx := 0 }) := rfl
@[simp] theorem beginRun_host : (s.beginRun).host = s.host := rfl
@[simp] theorem beginRun_sched : (s.beginRun).sched = s.sched := rfl
@[simp] theorem beginRun_draws : (s.beginRun).draws = s.draws := rfl

/-! ### `nextBit` -/

@[simp] theorem nextBit_params : (s.nextBit).params = s.params := rfl
@[simp] theorem nextBit_count : (s.nextBit).count = s.count := rfl
@[simp] theorem nextBit_nodes : (s.nextBit).nodes = s.nodes := rfl
@[simp] theorem nextBit_treeValid : (s.nextBit).treeValid = s.treeValid := rfl
@[simp] theorem nextBit_nodeCount : (s.nextBit).nodeCount = s.nodeCount := rfl
@[simp] theorem nextBit_root : (s.nextBit).root = s.root := rfl
@[simp] theorem nextBit_codes : (s.nextBit).codes = s.codes := rfl
@[simp] theorem nextBit_codeValid : (s.nextBit).codeValid = s.codeValid := rfl
@[simp] theorem nextBit_totalBits : (s.nextBit).totalBits = s.totalBits := rfl
@[simp] theorem nextBit_encState : (s.nextBit).encState = s.encState := rfl
@[simp] theorem nextBit_encAcc : (s.nextBit).encAcc = s.encAcc := rfl
@[simp] theorem nextBit_encN : (s.nextBit).encN = s.encN := rfl
@[simp] theorem nextBit_encBits : (s.nextBit).encBits = s.encBits := rfl
@[simp] theorem nextBit_decState : (s.nextBit).decState = s.decState := rfl
@[simp] theorem nextBit_cursor : (s.nextBit).cursor = s.cursor := rfl
@[simp] theorem nextBit_decShift : (s.nextBit).decShift = s.decShift := rfl
@[simp] theorem nextBit_decAvail : (s.nextBit).decAvail = s.decAvail := rfl
@[simp] theorem nextBit_decBits : (s.nextBit).decBits = s.decBits := rfl
@[simp] theorem nextBit_outFifo : (s.nextBit).outFifo = s.outFifo := rfl
@[simp] theorem nextBit_inFifo : (s.nextBit).inFifo = s.inFifo := rfl
@[simp] theorem nextBit_inEnd : (s.nextBit).inEnd = s.inEnd := rfl
@[simp] theorem nextBit_dataLo : (s.nextBit).dataLo = s.dataLo := rfl
@[simp] theorem nextBit_dataHi : (s.nextBit).dataHi = s.dataHi := rfl
@[simp] theorem nextBit_result : (s.nextBit).result = s.result := rfl
@[simp] theorem nextBit_link : (s.nextBit).link = s.link := rfl
@[simp] theorem nextBit_error : (s.nextBit).error = s.error := rfl
@[simp] theorem nextBit_pend : (s.nextBit).pend = s.pend.map (fun p => { p with idx := p.idx + 1 }) := rfl
@[simp] theorem nextBit_host : (s.nextBit).host = s.host := rfl
@[simp] theorem nextBit_sched : (s.nextBit).sched = s.sched := rfl
@[simp] theorem nextBit_draws : (s.nextBit).draws = s.draws := rfl

/-! ### `beginPad` -/

@[simp] theorem beginPad_params : (s.beginPad).params = s.params := rfl
@[simp] theorem beginPad_count : (s.beginPad).count = s.count := rfl
@[simp] theorem beginPad_nodes : (s.beginPad).nodes = s.nodes := rfl
@[simp] theorem beginPad_treeValid : (s.beginPad).treeValid = s.treeValid := rfl
@[simp] theorem beginPad_nodeCount : (s.beginPad).nodeCount = s.nodeCount := rfl
@[simp] theorem beginPad_root : (s.beginPad).root = s.root := rfl
@[simp] theorem beginPad_codes : (s.beginPad).codes = s.codes := rfl
@[simp] theorem beginPad_codeValid : (s.beginPad).codeValid = s.codeValid := rfl
@[simp] theorem beginPad_totalBits : (s.beginPad).totalBits = s.totalBits := rfl
@[simp] theorem beginPad_encState : (s.beginPad).encState = s.encState := rfl
@[simp] theorem beginPad_encAcc : (s.beginPad).encAcc = s.encAcc := rfl
@[simp] theorem beginPad_encN : (s.beginPad).encN = s.encN := rfl
@[simp] theorem beginPad_encBits : (s.beginPad).encBits = s.encBits := rfl
@[simp] theorem beginPad_decState : (s.beginPad).decState = s.decState := rfl
@[simp] theorem beginPad_cursor : (s.beginPad).cursor = s.cursor := rfl
@[simp] theorem beginPad_decShift : (s.beginPad).decShift = s.decShift := rfl
@[simp] theorem beginPad_decAvail : (s.beginPad).decAvail = s.decAvail := rfl
@[simp] theorem beginPad_decBits : (s.beginPad).decBits = s.decBits := rfl
@[simp] theorem beginPad_outFifo : (s.beginPad).outFifo = s.outFifo := rfl
@[simp] theorem beginPad_inFifo : (s.beginPad).inFifo = s.inFifo := rfl
@[simp] theorem beginPad_inEnd : (s.beginPad).inEnd = s.inEnd := rfl
@[simp] theorem beginPad_dataLo : (s.beginPad).dataLo = s.dataLo := rfl
@[simp] theorem beginPad_dataHi : (s.beginPad).dataHi = s.dataHi := rfl
@[simp] theorem beginPad_result : (s.beginPad).result = s.result := rfl
@[simp] theorem beginPad_link : (s.beginPad).link = s.link := rfl
@[simp] theorem beginPad_error : (s.beginPad).error = s.error := rfl
@[simp] theorem beginPad_pend : (s.beginPad).pend = s.pend.map (fun p => { p with phase := .pad }) := rfl
@[simp] theorem beginPad_host : (s.beginPad).host = s.host := rfl
@[simp] theorem beginPad_sched : (s.beginPad).sched = s.sched := rfl
@[simp] theorem beginPad_draws : (s.beginPad).draws = s.draws := rfl

/-! ### `invalidate` -/

@[simp] theorem invalidate_params : (s.invalidate).params = s.params := rfl
@[simp] theorem invalidate_count : (s.invalidate).count = s.count := rfl
@[simp] theorem invalidate_nodes : (s.invalidate).nodes = s.nodes := rfl
@[simp] theorem invalidate_treeValid : (s.invalidate).treeValid = false := rfl
@[simp] theorem invalidate_nodeCount : (s.invalidate).nodeCount = s.nodeCount := rfl
@[simp] theorem invalidate_root : (s.invalidate).root = s.root := rfl
@[simp] theorem invalidate_codes : (s.invalidate).codes = s.codes := rfl
@[simp] theorem invalidate_codeValid : (s.invalidate).codeValid = false := rfl
@[simp] theorem invalidate_totalBits : (s.invalidate).totalBits = s.totalBits := rfl
@[simp] theorem invalidate_encState : (s.invalidate).encState = .idle := rfl
@[simp] theorem invalidate_encAcc : (s.invalidate).encAcc = s.encAcc := rfl
@[simp] theorem invalidate_encN : (s.invalidate).encN = s.encN := rfl
@[simp] theorem invalidate_encBits : (s.invalidate).encBits = s.encBits := rfl
@[simp] theorem invalidate_decState : (s.invalidate).decState = .idle := rfl
@[simp] theorem invalidate_cursor : (s.invalidate).cursor = s.cursor := rfl
@[simp] theorem invalidate_decShift : (s.invalidate).decShift = s.decShift := rfl
@[simp] theorem invalidate_decAvail : (s.invalidate).decAvail = s.decAvail := rfl
@[simp] theorem invalidate_decBits : (s.invalidate).decBits = s.decBits := rfl
@[simp] theorem invalidate_outFifo : (s.invalidate).outFifo = s.outFifo := rfl
@[simp] theorem invalidate_inFifo : (s.invalidate).inFifo = s.inFifo := rfl
@[simp] theorem invalidate_inEnd : (s.invalidate).inEnd = s.inEnd := rfl
@[simp] theorem invalidate_dataLo : (s.invalidate).dataLo = s.dataLo := rfl
@[simp] theorem invalidate_dataHi : (s.invalidate).dataHi = s.dataHi := rfl
@[simp] theorem invalidate_result : (s.invalidate).result = s.result := rfl
@[simp] theorem invalidate_link : (s.invalidate).link = s.link := rfl
@[simp] theorem invalidate_error : (s.invalidate).error = s.error := rfl
@[simp] theorem invalidate_pend : (s.invalidate).pend = s.pend := rfl
@[simp] theorem invalidate_host : (s.invalidate).host = s.host := rfl
@[simp] theorem invalidate_sched : (s.invalidate).sched = s.sched := rfl
@[simp] theorem invalidate_draws : (s.invalidate).draws = s.draws := rfl

/-! ### `raiseAccess` -/

@[simp] theorem raiseAccess_params (e : ErrorKind) (info : BitVec 10) : (State.raiseAccess e info s).params = s.params := rfl
@[simp] theorem raiseAccess_count (e : ErrorKind) (info : BitVec 10) : (State.raiseAccess e info s).count = s.count := rfl
@[simp] theorem raiseAccess_nodes (e : ErrorKind) (info : BitVec 10) : (State.raiseAccess e info s).nodes = s.nodes := rfl
@[simp] theorem raiseAccess_treeValid (e : ErrorKind) (info : BitVec 10) : (State.raiseAccess e info s).treeValid = s.treeValid := rfl
@[simp] theorem raiseAccess_nodeCount (e : ErrorKind) (info : BitVec 10) : (State.raiseAccess e info s).nodeCount = s.nodeCount := rfl
@[simp] theorem raiseAccess_root (e : ErrorKind) (info : BitVec 10) : (State.raiseAccess e info s).root = s.root := rfl
@[simp] theorem raiseAccess_codes (e : ErrorKind) (info : BitVec 10) : (State.raiseAccess e info s).codes = s.codes := rfl
@[simp] theorem raiseAccess_codeValid (e : ErrorKind) (info : BitVec 10) : (State.raiseAccess e info s).codeValid = s.codeValid := rfl
@[simp] theorem raiseAccess_totalBits (e : ErrorKind) (info : BitVec 10) : (State.raiseAccess e info s).totalBits = s.totalBits := rfl
@[simp] theorem raiseAccess_encState (e : ErrorKind) (info : BitVec 10) : (State.raiseAccess e info s).encState = s.encState := rfl
@[simp] theorem raiseAccess_encAcc (e : ErrorKind) (info : BitVec 10) : (State.raiseAccess e info s).encAcc = s.encAcc := rfl
@[simp] theorem raiseAccess_encN (e : ErrorKind) (info : BitVec 10) : (State.raiseAccess e info s).encN = s.encN := rfl
@[simp] theorem raiseAccess_encBits (e : ErrorKind) (info : BitVec 10) : (State.raiseAccess e info s).encBits = s.encBits := rfl
@[simp] theorem raiseAccess_decState (e : ErrorKind) (info : BitVec 10) : (State.raiseAccess e info s).decState = s.decState := rfl
@[simp] theorem raiseAccess_cursor (e : ErrorKind) (info : BitVec 10) : (State.raiseAccess e info s).cursor = s.cursor := rfl
@[simp] theorem raiseAccess_decShift (e : ErrorKind) (info : BitVec 10) : (State.raiseAccess e info s).decShift = s.decShift := rfl
@[simp] theorem raiseAccess_decAvail (e : ErrorKind) (info : BitVec 10) : (State.raiseAccess e info s).decAvail = s.decAvail := rfl
@[simp] theorem raiseAccess_decBits (e : ErrorKind) (info : BitVec 10) : (State.raiseAccess e info s).decBits = s.decBits := rfl
@[simp] theorem raiseAccess_outFifo (e : ErrorKind) (info : BitVec 10) : (State.raiseAccess e info s).outFifo = s.outFifo := rfl
@[simp] theorem raiseAccess_inFifo (e : ErrorKind) (info : BitVec 10) : (State.raiseAccess e info s).inFifo = s.inFifo := rfl
@[simp] theorem raiseAccess_inEnd (e : ErrorKind) (info : BitVec 10) : (State.raiseAccess e info s).inEnd = s.inEnd := rfl
@[simp] theorem raiseAccess_dataLo (e : ErrorKind) (info : BitVec 10) : (State.raiseAccess e info s).dataLo = s.dataLo := rfl
@[simp] theorem raiseAccess_dataHi (e : ErrorKind) (info : BitVec 10) : (State.raiseAccess e info s).dataHi = s.dataHi := rfl
@[simp] theorem raiseAccess_result (e : ErrorKind) (info : BitVec 10) : (State.raiseAccess e info s).result = s.result := rfl
@[simp] theorem raiseAccess_link (e : ErrorKind) (info : BitVec 10) : (State.raiseAccess e info s).link = s.link := rfl
@[simp] theorem raiseAccess_error (e : ErrorKind) (info : BitVec 10) : (State.raiseAccess e info s).error = s.error.record e 0xFF info := rfl
@[simp] theorem raiseAccess_pend (e : ErrorKind) (info : BitVec 10) : (State.raiseAccess e info s).pend = s.pend := rfl
@[simp] theorem raiseAccess_host (e : ErrorKind) (info : BitVec 10) : (State.raiseAccess e info s).host = s.host := rfl
@[simp] theorem raiseAccess_sched (e : ErrorKind) (info : BitVec 10) : (State.raiseAccess e info s).sched = s.sched := rfl
@[simp] theorem raiseAccess_draws (e : ErrorKind) (info : BitVec 10) : (State.raiseAccess e info s).draws = s.draws := rfl

/-! ### `clearError` -/

@[simp] theorem clearError_params : (s.clearError).params = s.params := rfl
@[simp] theorem clearError_count : (s.clearError).count = s.count := rfl
@[simp] theorem clearError_nodes : (s.clearError).nodes = s.nodes := rfl
@[simp] theorem clearError_treeValid : (s.clearError).treeValid = s.treeValid := rfl
@[simp] theorem clearError_nodeCount : (s.clearError).nodeCount = s.nodeCount := rfl
@[simp] theorem clearError_root : (s.clearError).root = s.root := rfl
@[simp] theorem clearError_codes : (s.clearError).codes = s.codes := rfl
@[simp] theorem clearError_codeValid : (s.clearError).codeValid = s.codeValid := rfl
@[simp] theorem clearError_totalBits : (s.clearError).totalBits = s.totalBits := rfl
@[simp] theorem clearError_encState : (s.clearError).encState = s.encState := rfl
@[simp] theorem clearError_encAcc : (s.clearError).encAcc = s.encAcc := rfl
@[simp] theorem clearError_encN : (s.clearError).encN = s.encN := rfl
@[simp] theorem clearError_encBits : (s.clearError).encBits = s.encBits := rfl
@[simp] theorem clearError_decState : (s.clearError).decState = s.decState := rfl
@[simp] theorem clearError_cursor : (s.clearError).cursor = s.cursor := rfl
@[simp] theorem clearError_decShift : (s.clearError).decShift = s.decShift := rfl
@[simp] theorem clearError_decAvail : (s.clearError).decAvail = s.decAvail := rfl
@[simp] theorem clearError_decBits : (s.clearError).decBits = s.decBits := rfl
@[simp] theorem clearError_outFifo : (s.clearError).outFifo = s.outFifo := rfl
@[simp] theorem clearError_inFifo : (s.clearError).inFifo = s.inFifo := rfl
@[simp] theorem clearError_inEnd : (s.clearError).inEnd = s.inEnd := rfl
@[simp] theorem clearError_dataLo : (s.clearError).dataLo = s.dataLo := rfl
@[simp] theorem clearError_dataHi : (s.clearError).dataHi = s.dataHi := rfl
@[simp] theorem clearError_result : (s.clearError).result = s.result := rfl
@[simp] theorem clearError_link : (s.clearError).link = s.link := rfl
@[simp] theorem clearError_error : (s.clearError).error = .clear := rfl
@[simp] theorem clearError_pend : (s.clearError).pend = s.pend := rfl
@[simp] theorem clearError_host : (s.clearError).host = s.host := rfl
@[simp] theorem clearError_sched : (s.clearError).sched = s.sched := rfl
@[simp] theorem clearError_draws : (s.clearError).draws = s.draws := rfl

/-! ### `pushOut` -/

@[simp] theorem pushOut_params (b : Byte) : (State.pushOut b s).params = s.params := rfl
@[simp] theorem pushOut_count (b : Byte) : (State.pushOut b s).count = s.count := rfl
@[simp] theorem pushOut_nodes (b : Byte) : (State.pushOut b s).nodes = s.nodes := rfl
@[simp] theorem pushOut_treeValid (b : Byte) : (State.pushOut b s).treeValid = s.treeValid := rfl
@[simp] theorem pushOut_nodeCount (b : Byte) : (State.pushOut b s).nodeCount = s.nodeCount := rfl
@[simp] theorem pushOut_root (b : Byte) : (State.pushOut b s).root = s.root := rfl
@[simp] theorem pushOut_codes (b : Byte) : (State.pushOut b s).codes = s.codes := rfl
@[simp] theorem pushOut_codeValid (b : Byte) : (State.pushOut b s).codeValid = s.codeValid := rfl
@[simp] theorem pushOut_totalBits (b : Byte) : (State.pushOut b s).totalBits = s.totalBits := rfl
@[simp] theorem pushOut_encState (b : Byte) : (State.pushOut b s).encState = s.encState := rfl
@[simp] theorem pushOut_encAcc (b : Byte) : (State.pushOut b s).encAcc = s.encAcc := rfl
@[simp] theorem pushOut_encN (b : Byte) : (State.pushOut b s).encN = s.encN := rfl
@[simp] theorem pushOut_encBits (b : Byte) : (State.pushOut b s).encBits = s.encBits := rfl
@[simp] theorem pushOut_decState (b : Byte) : (State.pushOut b s).decState = s.decState := rfl
@[simp] theorem pushOut_cursor (b : Byte) : (State.pushOut b s).cursor = s.cursor := rfl
@[simp] theorem pushOut_decShift (b : Byte) : (State.pushOut b s).decShift = s.decShift := rfl
@[simp] theorem pushOut_decAvail (b : Byte) : (State.pushOut b s).decAvail = s.decAvail := rfl
@[simp] theorem pushOut_decBits (b : Byte) : (State.pushOut b s).decBits = s.decBits := rfl
@[simp] theorem pushOut_outFifo (b : Byte) : (State.pushOut b s).outFifo = s.outFifo ++ [b] := rfl
@[simp] theorem pushOut_inFifo (b : Byte) : (State.pushOut b s).inFifo = s.inFifo := rfl
@[simp] theorem pushOut_inEnd (b : Byte) : (State.pushOut b s).inEnd = s.inEnd := rfl
@[simp] theorem pushOut_dataLo (b : Byte) : (State.pushOut b s).dataLo = s.dataLo := rfl
@[simp] theorem pushOut_dataHi (b : Byte) : (State.pushOut b s).dataHi = s.dataHi := rfl
@[simp] theorem pushOut_result (b : Byte) : (State.pushOut b s).result = s.result := rfl
@[simp] theorem pushOut_link (b : Byte) : (State.pushOut b s).link = s.link := rfl
@[simp] theorem pushOut_error (b : Byte) : (State.pushOut b s).error = s.error := rfl
@[simp] theorem pushOut_pend (b : Byte) : (State.pushOut b s).pend = s.pend := rfl
@[simp] theorem pushOut_host (b : Byte) : (State.pushOut b s).host = s.host := rfl
@[simp] theorem pushOut_sched (b : Byte) : (State.pushOut b s).sched = s.sched := rfl
@[simp] theorem pushOut_draws (b : Byte) : (State.pushOut b s).draws = s.draws := rfl

/-! ### `hostNext` -/

@[simp] theorem hostNext_params : (s.hostNext).params = s.params := rfl
@[simp] theorem hostNext_count : (s.hostNext).count = s.count := rfl
@[simp] theorem hostNext_nodes : (s.hostNext).nodes = s.nodes := rfl
@[simp] theorem hostNext_treeValid : (s.hostNext).treeValid = s.treeValid := rfl
@[simp] theorem hostNext_nodeCount : (s.hostNext).nodeCount = s.nodeCount := rfl
@[simp] theorem hostNext_root : (s.hostNext).root = s.root := rfl
@[simp] theorem hostNext_codes : (s.hostNext).codes = s.codes := rfl
@[simp] theorem hostNext_codeValid : (s.hostNext).codeValid = s.codeValid := rfl
@[simp] theorem hostNext_totalBits : (s.hostNext).totalBits = s.totalBits := rfl
@[simp] theorem hostNext_encState : (s.hostNext).encState = s.encState := rfl
@[simp] theorem hostNext_encAcc : (s.hostNext).encAcc = s.encAcc := rfl
@[simp] theorem hostNext_encN : (s.hostNext).encN = s.encN := rfl
@[simp] theorem hostNext_encBits : (s.hostNext).encBits = s.encBits := rfl
@[simp] theorem hostNext_decState : (s.hostNext).decState = s.decState := rfl
@[simp] theorem hostNext_cursor : (s.hostNext).cursor = s.cursor := rfl
@[simp] theorem hostNext_decShift : (s.hostNext).decShift = s.decShift := rfl
@[simp] theorem hostNext_decAvail : (s.hostNext).decAvail = s.decAvail := rfl
@[simp] theorem hostNext_decBits : (s.hostNext).decBits = s.decBits := rfl
@[simp] theorem hostNext_outFifo : (s.hostNext).outFifo = s.outFifo := rfl
@[simp] theorem hostNext_inFifo : (s.hostNext).inFifo = s.inFifo := rfl
@[simp] theorem hostNext_inEnd : (s.hostNext).inEnd = s.inEnd := rfl
@[simp] theorem hostNext_dataLo : (s.hostNext).dataLo = s.dataLo := rfl
@[simp] theorem hostNext_dataHi : (s.hostNext).dataHi = s.dataHi := rfl
@[simp] theorem hostNext_result : (s.hostNext).result = s.result := rfl
@[simp] theorem hostNext_link : (s.hostNext).link = s.link := rfl
@[simp] theorem hostNext_error : (s.hostNext).error = s.error := rfl
@[simp] theorem hostNext_pend : (s.hostNext).pend = s.pend := rfl
@[simp] theorem hostNext_host : (s.hostNext).host = { s.host with next := s.host.next + 1 } := rfl
@[simp] theorem hostNext_sched : (s.hostNext).sched = s.sched := rfl
@[simp] theorem hostNext_draws : (s.hostNext).draws = s.draws := rfl

/-! ### `hostGot` -/

@[simp] theorem hostGot_params (off : Nat) (v : Word) : (State.hostGot off v s).params = s.params := rfl
@[simp] theorem hostGot_count (off : Nat) (v : Word) : (State.hostGot off v s).count = s.count := rfl
@[simp] theorem hostGot_nodes (off : Nat) (v : Word) : (State.hostGot off v s).nodes = s.nodes := rfl
@[simp] theorem hostGot_treeValid (off : Nat) (v : Word) : (State.hostGot off v s).treeValid = s.treeValid := rfl
@[simp] theorem hostGot_nodeCount (off : Nat) (v : Word) : (State.hostGot off v s).nodeCount = s.nodeCount := rfl
@[simp] theorem hostGot_root (off : Nat) (v : Word) : (State.hostGot off v s).root = s.root := rfl
@[simp] theorem hostGot_codes (off : Nat) (v : Word) : (State.hostGot off v s).codes = s.codes := rfl
@[simp] theorem hostGot_codeValid (off : Nat) (v : Word) : (State.hostGot off v s).codeValid = s.codeValid := rfl
@[simp] theorem hostGot_totalBits (off : Nat) (v : Word) : (State.hostGot off v s).totalBits = s.totalBits := rfl
@[simp] theorem hostGot_encState (off : Nat) (v : Word) : (State.hostGot off v s).encState = s.encState := rfl
@[simp] theorem hostGot_encAcc (off : Nat) (v : Word) : (State.hostGot off v s).encAcc = s.encAcc := rfl
@[simp] theorem hostGot_encN (off : Nat) (v : Word) : (State.hostGot off v s).encN = s.encN := rfl
@[simp] theorem hostGot_encBits (off : Nat) (v : Word) : (State.hostGot off v s).encBits = s.encBits := rfl
@[simp] theorem hostGot_decState (off : Nat) (v : Word) : (State.hostGot off v s).decState = s.decState := rfl
@[simp] theorem hostGot_cursor (off : Nat) (v : Word) : (State.hostGot off v s).cursor = s.cursor := rfl
@[simp] theorem hostGot_decShift (off : Nat) (v : Word) : (State.hostGot off v s).decShift = s.decShift := rfl
@[simp] theorem hostGot_decAvail (off : Nat) (v : Word) : (State.hostGot off v s).decAvail = s.decAvail := rfl
@[simp] theorem hostGot_decBits (off : Nat) (v : Word) : (State.hostGot off v s).decBits = s.decBits := rfl
@[simp] theorem hostGot_outFifo (off : Nat) (v : Word) : (State.hostGot off v s).outFifo = s.outFifo := rfl
@[simp] theorem hostGot_inFifo (off : Nat) (v : Word) : (State.hostGot off v s).inFifo = s.inFifo := rfl
@[simp] theorem hostGot_inEnd (off : Nat) (v : Word) : (State.hostGot off v s).inEnd = s.inEnd := rfl
@[simp] theorem hostGot_dataLo (off : Nat) (v : Word) : (State.hostGot off v s).dataLo = s.dataLo := rfl
@[simp] theorem hostGot_dataHi (off : Nat) (v : Word) : (State.hostGot off v s).dataHi = s.dataHi := rfl
@[simp] theorem hostGot_result (off : Nat) (v : Word) : (State.hostGot off v s).result = s.result := rfl
@[simp] theorem hostGot_link (off : Nat) (v : Word) : (State.hostGot off v s).link = s.link := rfl
@[simp] theorem hostGot_error (off : Nat) (v : Word) : (State.hostGot off v s).error = s.error := rfl
@[simp] theorem hostGot_pend (off : Nat) (v : Word) : (State.hostGot off v s).pend = s.pend := rfl
@[simp] theorem hostGot_host (off : Nat) (v : Word) : (State.hostGot off v s).host = { s.host with v := some v, reads := s.host.reads ++ [(off, v)] } := rfl
@[simp] theorem hostGot_sched (off : Nat) (v : Word) : (State.hostGot off v s).sched = s.sched := rfl
@[simp] theorem hostGot_draws (off : Nat) (v : Word) : (State.hostGot off v s).draws = s.draws := rfl

/-! ### `withTurns` and `turnTaken` -/

/-- A turn of the order takes nothing else, and draws at most once. -/
theorem withTurns_eq : ∃ sc d, s.withTurns = { s with sched := sc, draws := d } := by
  unfold State.withTurns
  split
  · exact ⟨_, _, rfl⟩
  · exact ⟨_, s.draws, rfl⟩

theorem turnTaken_eq : ∃ sc d, s.turnTaken = { s with sched := sc, draws := d } := by
  obtain ⟨sc, d, h⟩ := s.withTurns_eq
  exact ⟨s.withTurns.sched.tail, d, by unfold State.turnTaken; rw [h]⟩


@[simp] theorem turnTaken_params : s.turnTaken.params = s.params := by obtain ⟨sc, d, h⟩ := s.turnTaken_eq; rw [h]
@[simp] theorem turnTaken_count : s.turnTaken.count = s.count := by obtain ⟨sc, d, h⟩ := s.turnTaken_eq; rw [h]
@[simp] theorem turnTaken_nodes : s.turnTaken.nodes = s.nodes := by obtain ⟨sc, d, h⟩ := s.turnTaken_eq; rw [h]
@[simp] theorem turnTaken_treeValid : s.turnTaken.treeValid = s.treeValid := by obtain ⟨sc, d, h⟩ := s.turnTaken_eq; rw [h]
@[simp] theorem turnTaken_nodeCount : s.turnTaken.nodeCount = s.nodeCount := by obtain ⟨sc, d, h⟩ := s.turnTaken_eq; rw [h]
@[simp] theorem turnTaken_root : s.turnTaken.root = s.root := by obtain ⟨sc, d, h⟩ := s.turnTaken_eq; rw [h]
@[simp] theorem turnTaken_codes : s.turnTaken.codes = s.codes := by obtain ⟨sc, d, h⟩ := s.turnTaken_eq; rw [h]
@[simp] theorem turnTaken_codeValid : s.turnTaken.codeValid = s.codeValid := by obtain ⟨sc, d, h⟩ := s.turnTaken_eq; rw [h]
@[simp] theorem turnTaken_totalBits : s.turnTaken.totalBits = s.totalBits := by obtain ⟨sc, d, h⟩ := s.turnTaken_eq; rw [h]
@[simp] theorem turnTaken_encState : s.turnTaken.encState = s.encState := by obtain ⟨sc, d, h⟩ := s.turnTaken_eq; rw [h]
@[simp] theorem turnTaken_encAcc : s.turnTaken.encAcc = s.encAcc := by obtain ⟨sc, d, h⟩ := s.turnTaken_eq; rw [h]
@[simp] theorem turnTaken_encN : s.turnTaken.encN = s.encN := by obtain ⟨sc, d, h⟩ := s.turnTaken_eq; rw [h]
@[simp] theorem turnTaken_encBits : s.turnTaken.encBits = s.encBits := by obtain ⟨sc, d, h⟩ := s.turnTaken_eq; rw [h]
@[simp] theorem turnTaken_decState : s.turnTaken.decState = s.decState := by obtain ⟨sc, d, h⟩ := s.turnTaken_eq; rw [h]
@[simp] theorem turnTaken_cursor : s.turnTaken.cursor = s.cursor := by obtain ⟨sc, d, h⟩ := s.turnTaken_eq; rw [h]
@[simp] theorem turnTaken_decShift : s.turnTaken.decShift = s.decShift := by obtain ⟨sc, d, h⟩ := s.turnTaken_eq; rw [h]
@[simp] theorem turnTaken_decAvail : s.turnTaken.decAvail = s.decAvail := by obtain ⟨sc, d, h⟩ := s.turnTaken_eq; rw [h]
@[simp] theorem turnTaken_decBits : s.turnTaken.decBits = s.decBits := by obtain ⟨sc, d, h⟩ := s.turnTaken_eq; rw [h]
@[simp] theorem turnTaken_outFifo : s.turnTaken.outFifo = s.outFifo := by obtain ⟨sc, d, h⟩ := s.turnTaken_eq; rw [h]
@[simp] theorem turnTaken_inFifo : s.turnTaken.inFifo = s.inFifo := by obtain ⟨sc, d, h⟩ := s.turnTaken_eq; rw [h]
@[simp] theorem turnTaken_inEnd : s.turnTaken.inEnd = s.inEnd := by obtain ⟨sc, d, h⟩ := s.turnTaken_eq; rw [h]
@[simp] theorem turnTaken_dataLo : s.turnTaken.dataLo = s.dataLo := by obtain ⟨sc, d, h⟩ := s.turnTaken_eq; rw [h]
@[simp] theorem turnTaken_dataHi : s.turnTaken.dataHi = s.dataHi := by obtain ⟨sc, d, h⟩ := s.turnTaken_eq; rw [h]
@[simp] theorem turnTaken_result : s.turnTaken.result = s.result := by obtain ⟨sc, d, h⟩ := s.turnTaken_eq; rw [h]
@[simp] theorem turnTaken_link : s.turnTaken.link = s.link := by obtain ⟨sc, d, h⟩ := s.turnTaken_eq; rw [h]
@[simp] theorem turnTaken_error : s.turnTaken.error = s.error := by obtain ⟨sc, d, h⟩ := s.turnTaken_eq; rw [h]
@[simp] theorem turnTaken_pend : s.turnTaken.pend = s.pend := by obtain ⟨sc, d, h⟩ := s.turnTaken_eq; rw [h]
@[simp] theorem turnTaken_host : s.turnTaken.host = s.host := by obtain ⟨sc, d, h⟩ := s.turnTaken_eq; rw [h]

/-! ### `raiseCmd` -/

@[simp] theorem raiseCmd_params (u : FailedUnit) (e : ErrorKind) (info : BitVec 10) : (s.raiseCmd u e info).params = s.params := by cases u <;> rfl
@[simp] theorem raiseCmd_count (u : FailedUnit) (e : ErrorKind) (info : BitVec 10) : (s.raiseCmd u e info).count = s.count := by cases u <;> rfl
@[simp] theorem raiseCmd_nodes (u : FailedUnit) (e : ErrorKind) (info : BitVec 10) : (s.raiseCmd u e info).nodes = s.nodes := by cases u <;> rfl
@[simp] theorem raiseCmd_treeValid (u : FailedUnit) (e : ErrorKind) (info : BitVec 10) : (s.raiseCmd u e info).treeValid = s.treeValid := by cases u <;> rfl
@[simp] theorem raiseCmd_nodeCount (u : FailedUnit) (e : ErrorKind) (info : BitVec 10) : (s.raiseCmd u e info).nodeCount = s.nodeCount := by cases u <;> rfl
@[simp] theorem raiseCmd_root (u : FailedUnit) (e : ErrorKind) (info : BitVec 10) : (s.raiseCmd u e info).root = s.root := by cases u <;> rfl
@[simp] theorem raiseCmd_codes (u : FailedUnit) (e : ErrorKind) (info : BitVec 10) : (s.raiseCmd u e info).codes = s.codes := by cases u <;> rfl
@[simp] theorem raiseCmd_codeValid (u : FailedUnit) (e : ErrorKind) (info : BitVec 10) : (s.raiseCmd u e info).codeValid = s.codeValid := by cases u <;> rfl
@[simp] theorem raiseCmd_totalBits (u : FailedUnit) (e : ErrorKind) (info : BitVec 10) : (s.raiseCmd u e info).totalBits = s.totalBits := by cases u <;> rfl
@[simp] theorem raiseCmd_encAcc (u : FailedUnit) (e : ErrorKind) (info : BitVec 10) : (s.raiseCmd u e info).encAcc = s.encAcc := by cases u <;> rfl
@[simp] theorem raiseCmd_encN (u : FailedUnit) (e : ErrorKind) (info : BitVec 10) : (s.raiseCmd u e info).encN = s.encN := by cases u <;> rfl
@[simp] theorem raiseCmd_encBits (u : FailedUnit) (e : ErrorKind) (info : BitVec 10) : (s.raiseCmd u e info).encBits = s.encBits := by cases u <;> rfl
@[simp] theorem raiseCmd_cursor (u : FailedUnit) (e : ErrorKind) (info : BitVec 10) : (s.raiseCmd u e info).cursor = s.cursor := by cases u <;> rfl
@[simp] theorem raiseCmd_decShift (u : FailedUnit) (e : ErrorKind) (info : BitVec 10) : (s.raiseCmd u e info).decShift = s.decShift := by cases u <;> rfl
@[simp] theorem raiseCmd_decAvail (u : FailedUnit) (e : ErrorKind) (info : BitVec 10) : (s.raiseCmd u e info).decAvail = s.decAvail := by cases u <;> rfl
@[simp] theorem raiseCmd_decBits (u : FailedUnit) (e : ErrorKind) (info : BitVec 10) : (s.raiseCmd u e info).decBits = s.decBits := by cases u <;> rfl
@[simp] theorem raiseCmd_outFifo (u : FailedUnit) (e : ErrorKind) (info : BitVec 10) : (s.raiseCmd u e info).outFifo = s.outFifo := by cases u <;> rfl
@[simp] theorem raiseCmd_inFifo (u : FailedUnit) (e : ErrorKind) (info : BitVec 10) : (s.raiseCmd u e info).inFifo = s.inFifo := by cases u <;> rfl
@[simp] theorem raiseCmd_inEnd (u : FailedUnit) (e : ErrorKind) (info : BitVec 10) : (s.raiseCmd u e info).inEnd = s.inEnd := by cases u <;> rfl
@[simp] theorem raiseCmd_dataLo (u : FailedUnit) (e : ErrorKind) (info : BitVec 10) : (s.raiseCmd u e info).dataLo = s.dataLo := by cases u <;> rfl
@[simp] theorem raiseCmd_dataHi (u : FailedUnit) (e : ErrorKind) (info : BitVec 10) : (s.raiseCmd u e info).dataHi = s.dataHi := by cases u <;> rfl
@[simp] theorem raiseCmd_result (u : FailedUnit) (e : ErrorKind) (info : BitVec 10) : (s.raiseCmd u e info).result = s.result := by cases u <;> rfl
@[simp] theorem raiseCmd_link (u : FailedUnit) (e : ErrorKind) (info : BitVec 10) : (s.raiseCmd u e info).link = s.link := by cases u <;> rfl
@[simp] theorem raiseCmd_error (u : FailedUnit) (e : ErrorKind) (info : BitVec 10) : (s.raiseCmd u e info).error = s.error.record e s.pendOp info := by cases u <;> rfl
@[simp] theorem raiseCmd_pend (u : FailedUnit) (e : ErrorKind) (info : BitVec 10) : (s.raiseCmd u e info).pend = none := by cases u <;> rfl
@[simp] theorem raiseCmd_host (u : FailedUnit) (e : ErrorKind) (info : BitVec 10) : (s.raiseCmd u e info).host = s.host := by cases u <;> rfl
@[simp] theorem raiseCmd_sched (u : FailedUnit) (e : ErrorKind) (info : BitVec 10) : (s.raiseCmd u e info).sched = s.sched := by cases u <;> rfl
@[simp] theorem raiseCmd_draws (u : FailedUnit) (e : ErrorKind) (info : BitVec 10) : (s.raiseCmd u e info).draws = s.draws := by cases u <;> rfl
@[simp] theorem raiseCmd_encState (u : FailedUnit) (e : ErrorKind) (info : BitVec 10) :
    (s.raiseCmd u e info).encState = if u = .encoder then .failed else s.encState := by cases u <;> rfl
@[simp] theorem raiseCmd_decState (u : FailedUnit) (e : ErrorKind) (info : BitVec 10) :
    (s.raiseCmd u e info).decState = if u = .decoder then .failed else s.decState := by cases u <;> rfl

end Sys2Proof.Machine.State
end

