-- ==== Sys2Proof/Laws/Ops.lean ====
section
/-! SUPPORT. What each shared operation of the commands leaves alone and what it can do, said once: counting, the code bits a read
shows, recording an error, emitting, padding, reading a bit, moving, and the steps made of them. -/

namespace Sys2Proof.Machine

/-! ### Counting (rule R22) -/

@[simp] theorem countOf_eof (c : Table Word) : countOf c 256 = 1 := rfl

theorem countOf_setCount (c : Table Word) (j : Nat) {k : Nat} (x : Word) (hk : k < 256) :
    countOf (setCount c k x) j = if j = k then x else countOf c j := by
  unfold countOf setCount
  split
  · next h =>
    rw [if_neg (by rw [h]; exact fun h => by simp only [Config.eofSymbol] at h; omega)]
  · simp [eq_comm]

theorem countOf_nil {k : Nat} (hk : k < 256) : countOf [] k = 0 := by
  unfold countOf
  rw [if_neg (by simp only [Config.eofSymbol]; omega)]
  rfl

/-- A count is bounded by what bounds every entry of the table, where that is at least 1. -/
theorem countOf_le {c : Table Word} {m : Nat} (hm : 1 ≤ m) (h : ∀ e ∈ c, e.2.toNat ≤ m) (k : Nat) : (countOf c k).toNat ≤ m := by
  unfold countOf
  split
  · exact hm
  · rcases Table.get_eq_or_mem 0 c k with h0 | h0
    · rw [h0]
      exact Nat.zero_le _
    · exact h _ h0

/-! ### The word of a code (rules R103, R173) -/

theorem codeWord_bit (bits : List Bool) (w : Nat) {j : Nat} (hj : j < 32) :
    (codeWord bits w).getLsbD (31 - j) = bits.getD (32 * w + j) false := by
  unfold codeWord
  rw [BitVec.getLsbD_setWidth, BitVec.getLsbD_ofBoolListBE]
  simp [show 31 - (31 - j) = j by omega, hj, show 31 - j < 32 by omega]

/-! ### Recording an error (rules R255, R259) -/

theorem ErrorKind.code_ne_zero (e : ErrorKind) : e.code ≠ 0 := by cases e <;> decide

theorem ErrorReg.record_first {r : ErrorReg} (h : r.code = 0) (e : ErrorKind) (src : BitVec 8) (info : BitVec 10) :
    r.record e src info = { r with code := e.code, src := src, info := info } := if_pos h

theorem ErrorReg.record_later {r : ErrorReg} (h : r.code ≠ 0) (e : ErrorKind) (src : BitVec 8) (info : BitVec 10) :
    r.record e src info = { r with multi := true } := if_neg h

theorem ErrorReg.record_code_ne_zero (r : ErrorReg) (e : ErrorKind) (src : BitVec 8) (info : BitVec 10) :
    (r.record e src info).code ≠ 0 := by
  by_cases h : r.code = 0
  · rw [record_first h]
    exact e.code_ne_zero
  · rw [record_later h]
    exact h

/-- The source of a command error is the opcode of the pending word. -/
theorem State.pendOp_of_pend {s : State} {p : Pend} (h : s.pend = some p) : s.pendOp = opField p.word := by
  simp [State.pendOp, h]

theorem State.phase_of_pend {s : State} {p : Pend} (h : s.pend = some p) : s.phase = p.phase := by simp [State.phase, h]

theorem State.idx_of_pend {s : State} {p : Pend} (h : s.pend = some p) : s.idx = p.idx := by simp [State.idx, h]

/-! ### What each step leaves alone -/

theorem emitBit_frame {b : Bool} {s t : State} (h : emitBit b s = some t) :
    t = { s with outFifo := t.outFifo, encAcc := t.encAcc, encN := t.encN, encBits := t.encBits } := by
  unfold emitBit at h
  split at h
  · cases h
  · split at h <;> cases h <;> rfl

theorem padByte_frame {s t : State} (h : padByte s = some t) :
    t = { s with outFifo := t.outFifo, encAcc := t.encAcc, encN := t.encN } := by
  unfold padByte at h
  split at h <;> cases h
  rfl

theorem readBit_frame {b : Bool} {s t : State} (h : readBit s = .bit b t) :
    t = { s with inFifo := t.inFifo, decShift := t.decShift, decAvail := t.decAvail, decBits := t.decBits } := by
  unfold readBit at h
  split at h
  · split at h
    · cases h
      rfl
    · split at h <;> cases h
  · cases h
    rfl

theorem moveTo_frame (c : NodeIdx) (s : State) :
    moveTo c s = { s with error := (moveTo c s).error, pend := (moveTo c s).pend, decState := (moveTo c s).decState,
                          cursor := (moveTo c s).cursor, result := (moveTo c s).result } := by
  unfold moveTo
  repeat' split
  all_goals rfl

theorem walkStep_frame (s : State) :
    walkStep s = { s with inFifo := (walkStep s).inFifo, decShift := (walkStep s).decShift, decAvail := (walkStep s).decAvail,
                          decBits := (walkStep s).decBits, error := (walkStep s).error, pend := (walkStep s).pend,
                          decState := (walkStep s).decState, cursor := (walkStep s).cursor,
                          result := (walkStep s).result } := by
  unfold walkStep
  split
  · next b t h =>
    rw [moveTo_frame, readBit_frame h]
  · rfl
  · rfl

theorem encSymRun_frame (k : Nat) (s : State) :
    encSymRun k s = { s with outFifo := (encSymRun k s).outFifo, encAcc := (encSymRun k s).encAcc, encN := (encSymRun k s).encN,
                             encBits := (encSymRun k s).encBits, pend := (encSymRun k s).pend } := by
  unfold encSymRun
  split
  · rfl
  · next t h =>
    split <;> rw [emitBit_frame h] <;> rfl

theorem encEofRun_frame (s : State) :
    encEofRun s = { s with outFifo := (encEofRun s).outFifo, encAcc := (encEofRun s).encAcc, encN := (encEofRun s).encN,
                           encBits := (encEofRun s).encBits, pend := (encEofRun s).pend,
                           encState := (encEofRun s).encState } := by
  unfold encEofRun
  split
  · rfl
  · next t h =>
    split
    · split <;> rw [emitBit_frame h] <;> rfl
    · rw [emitBit_frame h]
      rfl

theorem encEofPad_frame (s : State) :
    encEofPad s = { s with outFifo := (encEofPad s).outFifo, encAcc := (encEofPad s).encAcc, encN := (encEofPad s).encN,
                           pend := (encEofPad s).pend, encState := (encEofPad s).encState } := by
  unfold encEofPad
  split
  · rfl
  · next t h =>
    rw [padByte_frame h]
    rfl

/-- Where a move to child `c` leads (rule R211). -/
theorem moveTo_spec (s : State) (c : NodeIdx) :
    (c = Config.nil → moveTo c s = s.raiseCmd .decoder .invalidPath s.cursor) ∧
    (c ≠ Config.nil → (s.node c).sym = 256 →
      moveTo c s = { s with cursor := c, result := 256, decState := .done, pend := none }) ∧
    (c ≠ Config.nil → (s.node c).sym ≠ 256 → (s.node c).isLeaf = true →
      moveTo c s = { s with cursor := s.root, result := (s.node c).sym.setWidth 32, pend := none }) ∧
    (c ≠ Config.nil → (s.node c).isLeaf = false → moveTo c s = { s with cursor := c }) := by
  refine ⟨fun h => ?_, fun h h2 => ?_, fun h h2 h3 => ?_, fun h h2 => ?_⟩
  · unfold moveTo
    rw [if_pos h]
  · unfold moveTo
    rw [if_neg h, if_pos (show _ = BitVec.ofNat 9 Config.eofSymbol from h2)]
    rfl
  · unfold moveTo
    rw [if_neg h, if_neg (show ¬ _ = BitVec.ofNat 9 Config.eofSymbol from h2), if_pos h3]
    rfl
  · have : (s.node c).sym ≠ BitVec.ofNat 9 Config.eofSymbol := by
      have h3 : (s.node c).sym = Config.internal := by simpa [Node.isLeaf] using h2
      rw [h3]
      decide
    unfold moveTo
    rw [if_neg h, if_neg this, if_neg (by simp [h2])]

/-! ### The command pending -/

theorem pendInstr_ok {s : State} {p : Pend} {i : Instr} (hp : s.pend = some p) (hd : decode p.word = .ok i) :
    s.pendInstr = some i := by
  simp [State.pendInstr, hp, hd]

theorem pendInstr_error {s : State} {p : Pend} {e : Illegal} (hp : s.pend = some p) (hd : decode p.word = .error e) :
    s.pendInstr = none := by
  simp [State.pendInstr, hp, hd]

/-! ### A command always answers a next state (rule R250) -/

theorem exec_next (i : Instr) (s : State) : ∃ t, exec i s = .next t := by
  cases i <;> simp only [exec]
  case nop => exact ⟨_, rfl⟩
  case freqClear => exact ⟨_, rfl⟩
  case freqInc => unfold execFreqInc; repeat' split
                  all_goals exact ⟨_, rfl⟩
  case freqWrite => unfold execFreqWrite; repeat' split
                    all_goals exact ⟨_, rfl⟩
  case freqRead => unfold execFreqRead; split <;> exact ⟨_, rfl⟩
  case treeBuild => exact ⟨_, rfl⟩
  case nodeRead => unfold execNodeRead; repeat' split
                   all_goals exact ⟨_, rfl⟩
  case codeBuild => unfold execCodeBuild; split <;> exact ⟨_, rfl⟩
  case codeRead => unfold execCodeRead; repeat' split
                   all_goals exact ⟨_, rfl⟩
  case encStart => unfold execEncStart; split <;> exact ⟨_, rfl⟩
  case encSym => unfold execEncSym; split <;> exact ⟨_, rfl⟩
  case encEof => unfold execEncEof; split <;> exact ⟨_, rfl⟩
  case decStart => unfold execDecStart; split <;> exact ⟨_, rfl⟩
  case decSym => unfold execDecSym; split <;> exact ⟨_, rfl⟩

end Sys2Proof.Machine
end

