-- ==== Sys2Proof/Laws/Build.lean ====
section
/-! SUPPORT. What a state holds after `TREE_BUILD` and `CODE_BUILD`, told by the frequency table: the tree and its codes depend on the counts
alone, and the sums over the present symbols are sums over all symbols. -/

namespace Sys2Proof.Machine

/-- What `TREE_BUILD` leaves in the tree registers and the node store. -/
structure TreeBuilt (s t : State) : Prop where
  nodes : t.nodes = (buildTree s.count).nodes ++ s.nodes.drop (buildTree s.count).nodes.length
  nodeCount : t.nodeCount.toNat = (buildTree s.count).nodes.length
  root : t.root.toNat = (buildTree s.count).root
  count : t.count = s.count
  treeValid : t.treeValid = true

theorem treeBuilt {s t : State} (h : exec .treeBuild s = .next t) : TreeBuilt s t := by
  cases h
  have := buildTree_length_le s.count
  have hr := (buildTree_shape s.count).root
  refine ⟨rfl, ?_, ?_, rfl, rfl⟩
  · show (BitVec.ofNat 10 (buildTree s.count).nodes.length).toNat = (buildTree s.count).nodes.length
    rw [BitVec.toNat_ofNat, Nat.mod_eq_of_lt (by omega)]
  · show (BitVec.ofNat 10 (buildTree s.count).root).toNat = (buildTree s.count).root
    rw [BitVec.toNat_ofNat, Nat.mod_eq_of_lt (by omega)]

theorem TreeBuilt.holds {s t : State} (h : TreeBuilt s t) : HoldsTree s.count t.nodes t.root := by
  refine ⟨⟨_, h.nodes⟩, ?_⟩
  apply BitVec.eq_of_toNat_eq
  have := buildTree_length_le s.count
  have hr := (buildTree_shape s.count).root
  rw [h.root, BitVec.toNat_ofNat, Nat.mod_eq_of_lt (by omega)]

theorem TreeBuilt.node {s t : State} (h : TreeBuilt s t) {j : NodeIdx} (hj : j.toNat < (buildTree s.count).nodes.length) :
    t.node j = recordAt (buildTree s.count).nodes j.toNat := by
  show nodeOf t.nodes j = _
  rw [nodeOf_eq_recordAt, h.holds.recordAt_eq hj]

/-- The tree depends on the counts alone (rule R158). -/
theorem buildTree_congr {a b : Table Word} (h : ∀ k, k < 256 → countOf a k = countOf b k) : buildTree a = buildTree b := by
  have hc : ∀ k, k ≤ 256 → countOf a k = countOf b k := by
    intro k hk
    rcases Nat.lt_or_ge k 256 with h' | h'
    · exact h k h'
    · rw [show k = 256 by omega]
      rfl
  have hp : presentSymbols a = presentSymbols b := by
    apply List.filter_congr
    intro k hk
    simp only [List.mem_range, Config.eofSymbol] at hk
    simp only [present]
    rw [hc k (by omega)]
  have hl : leaves a = leaves b := by
    unfold leaves
    rw [hp]
    apply List.map_congr_left
    intro k hk
    unfold leafNode
    rw [hc k (presentSymbols_le hk)]
  unfold buildTree
  rw [hl]

theorem HoldsTree.congr {a b : Table Word} {ns : List Node} {root : NodeIdx} (h : HoldsTree a ns root)
    (e : buildTree a = buildTree b) : HoldsTree b ns root := by
  obtain ⟨h1, h2⟩ := h
  rw [e] at h1 h2
  exact ⟨h1, h2⟩

/-- Two stores of one table's tree have the same root paths. -/
theorem HoldsTree.codePath_congr {c : Table Word} {ns ms : List Node} {r q : NodeIdx} (h : HoldsTree c ns r) (h' : HoldsTree c ms q)
    {k : Nat} {p : List Bool} (hp : IsCodePath ns r k p) : IsCodePath ms q k p := by
  obtain ⟨j, h2, h3, h4⟩ := hp
  have hr : r = q := by rw [h.root, h'.root]
  have hjlt := Nat.lt_of_le_of_lt (h.path_le h.root_lt h2) h.root_lt
  have hnode : nodeOf ms j = nodeOf ns j := by
    rw [nodeOf_eq_recordAt, nodeOf_eq_recordAt, h'.recordAt_eq hjlt, h.recordAt_eq hjlt]
  refine ⟨j, ?_, by rw [hnode]; exact h3, by rw [hnode]; exact h4⟩
  rw [← hr, h'.path_iff h.root_lt]
  exact (h.path_iff h.root_lt).1 h2

/-- No root path of a leaf is a prefix of another's. -/
theorem codePath_prefix {ns : List Node} {root : NodeIdx} {j k : Nat} {p q : List Bool} (hp : IsCodePath ns root j p)
    (hq : IsCodePath ns root k q) (hpq : p <+: q) : j = k := by
  obtain ⟨a, h1, h2, h3⟩ := hp
  obtain ⟨b, h4, h5, h6⟩ := hq
  obtain ⟨r, rfl⟩ := hpq
  rw [IsPath.prefix_eq h1 h4 h2, List.append_nil] at h4
  rw [← h3, ← h6, IsPath.unique h1 h4]

/-! ### The present symbols, told by the counts (rule R21) -/

theorem mem_presentSymbols_iff (s : State) (k : Nat) :
    k ∈ presentSymbols s.count ↔ (k = 256 ∨ (k < 256 ∧ s.countAt k ≠ 0)) := by
  rw [mem_presentSymbols]
  have hp : present s.count k = true ↔ (k = 256 ∨ (k < 256 ∧ s.countAt k ≠ 0)) := by
    show (k == 256 || (decide (k < 256) && s.countAt k != 0)) = true ↔ _
    simp
  rw [hp]
  constructor
  · exact And.right
  · rintro (h | h)
    · exact ⟨by show k ≤ 256; omega, .inl h⟩
    · exact ⟨by show k ≤ 256; omega, .inr h⟩

theorem presentSymbols_eq_filter (s : State) :
    presentSymbols s.count = (List.range 257).filter (fun k => k = 256 ∨ s.countAt k ≠ 0) := by
  apply List.filter_congr
  intro k hk
  have hk' : k < 257 := List.mem_range.1 hk
  rw [Bool.eq_iff_iff, decide_eq_true_iff]
  have h1 := mem_presentSymbols_iff s k
  rw [mem_presentSymbols] at h1
  constructor
  · intro h
    rcases h1.1 ⟨by omega, h⟩ with h | h
    · exact .inl h
    · exact .inr h.2
  · intro h
    refine (h1.2 ?_).2
    by_cases h5 : k = 256
    · exact .inl h5
    · exact .inr ⟨by omega, h.resolve_left h5⟩

/-- A sum over the present symbols of what is 0 where the count is 0. -/
theorem sum_present (s : State) (f : Nat → Nat) (hf : ∀ k, k ≠ 256 → s.countAt k = 0 → f k = 0) :
    ((presentSymbols s.count).map f).sum = ((List.range 257).map f).sum := by
  rw [presentSymbols_eq_filter]
  generalize 257 = n
  induction n with
  | zero => rfl
  | succ n ih =>
    rw [List.range_succ, List.filter_append, List.map_append, List.map_append, List.sum_append, List.sum_append, ih]
    congr 1
    by_cases h : n = 256 ∨ s.countAt n ≠ 0
    · rw [List.filter_cons_of_pos (by simpa using h)]
      rfl
    · rw [List.filter_cons_of_neg (by simpa using h)]
      rw [not_or, not_not] at h
      simp [hf n h.1 h.2]

/-- Counting a list by its symbols: the lengths of what each symbol stands for add up (rules R134, R196). -/
theorem sum_count (n : Nat) (f : Nat → Nat) (l : List Nat) (h : ∀ k ∈ l, k < n) :
    ((List.range n).map (fun k => l.count k * f k)).sum = (l.map f).sum := by
  induction l with
  | nil =>
    rw [List.sum_eq_zero]
    · rfl
    · intro x hx
      obtain ⟨k, -, rfl⟩ := List.mem_map.1 hx
      simp
  | cons a l ih =>
    have ha : a < n := h a (by simp)
    rw [List.map_cons, List.sum_cons, ← ih (fun k hk => h k (by simp [hk]))]
    have one : ∀ m, ((List.range m).map (fun k => if k = a then f a else 0)).sum = if a < m then f a else 0 := by
      intro m
      induction m with
      | zero => rfl
      | succ m ihm =>
        rw [List.range_succ, List.map_append, List.sum_append, ihm]
        by_cases h1 : m = a
        · simp [h1]
        · by_cases h2 : a < m
          · simp [h1, h2, show a < m + 1 by omega]
          · simp [h1, h2, show ¬ a < m + 1 by omega]
    have := one n
    rw [if_pos ha] at this
    rw [← this, ← List.sum_map_add]
    congr 1
    apply List.map_congr_left
    intro k _
    rw [List.count_cons]
    by_cases hk : k = a
    · subst hk
      simp [Nat.add_mul]
      omega
    · rw [if_neg hk, if_neg (by simpa using fun e => hk e.symm)]
      simp

/-! ### The total bit count (rule R171) -/

theorem totalBitsOf_tree {c : Table Word} (codes : Table (List Bool)) :
    totalBitsOf codes (buildTree c).nodes =
      ((presentSymbols c).map (fun k => (countOf c k).toNat * (codeOf codes k).length)).sum := by
  obtain ⟨ms, hms⟩ := (buildTree_shape c).leaves
  have hleaf := fun i hi => isLeaf_recordAt (c := c) (i := i) hi
  rw [totalBitsOf, hms, List.map_append, List.sum_append]
  have h0 : (ms.map (bitsOfNode codes)).sum = 0 := by
    rw [List.sum_eq_zero]
    intro x hx
    obtain ⟨n, hn, rfl⟩ := List.mem_map.1 hx
    obtain ⟨i, hi, rfl⟩ := List.getElem_of_mem hn
    have h1 := hleaf ((presentSymbols c).length + i) (by rw [hms, List.length_append, leaves_length]; omega)
    have h2 : recordAt (buildTree c).nodes ((presentSymbols c).length + i) = ms[i] := by
      rw [recordAt, hms, List.getD_append_right _ _ _ _ (by rw [leaves_length]; omega), leaves_length]
      simp [hi]
    rw [h2] at h1
    unfold bitsOfNode
    rw [if_neg]
    rw [h1]
    omega
  rw [h0, Nat.add_zero]
  unfold leaves
  rw [List.map_map]
  congr 1
  apply List.map_congr_left
  intro k hk
  have hk' := presentSymbols_le hk
  simp only [Function.comp, bitsOfNode]
  rw [if_pos (leafNode_isLeaf c hk'), leafNode_weight, leafNode_sym c hk']

/-- In a state with valid codes, each code is that of the stored tree (rules R31, R35). -/
theorem State.Inv.codes_eq {s : State} (h : s.Inv) (hcv : s.codeValid = true) :
    HoldsTree s.count s.nodes s.root ∧ ∀ k, s.code k = codeOf (buildCodes s.nodes s.root) k := by
  obtain ⟨htv, hc, -⟩ := h.codes hcv
  exact ⟨(h.tree htv).holds, fun k => by rw [← hc]; rfl⟩

/-- `EOF_SYMBOL` has a code (rule R175). -/
theorem State.Inv.eof_code {s : State} (h : s.Inv) (hcv : s.codeValid = true) : s.code 256 ≠ [] := by
  obtain ⟨hT, hc⟩ := h.codes_eq hcv
  rw [hc, hT.code_ne_nil_iff]
  exact eof_mem_presentSymbols _

theorem State.Inv.code_length_le {s : State} (h : s.Inv) (k : Nat) : (s.code k).length ≤ 256 := by
  rcases Table.get_eq_or_mem [] s.codes k with h0 | h0
  · show (Table.get [] s.codes k).length ≤ 256
    rw [h0]
    simp
  · exact h.table.2 _ h0

end Sys2Proof.Machine
end

