-- ==== Sys2Proof/Laws/Decode.lean ====
section
/-! SUPPORT. The fields of a command word: a word is its four fields, the fields of an assembled word are the parts, and the masks of rule
R104 test fields. -/

namespace Sys2Proof

/-- A word is its fields (rule R101). -/
theorem word_eq_fields (w : Word) : w = auxField w ++ rsvField w ++ opndField w ++ opField w := by
  apply BitVec.eq_of_getLsbD_eq
  intro i hi
  simp only [BitVec.getLsbD_append, opField, opndField, rsvField, auxField, BitVec.getLsbD_extractLsb']
  by_cases h1 : i < 8
  · simp [h1]
  · by_cases h2 : i < 18
    · simp [h1, show i - 8 < 10 by omega, show 8 + (i - 8) = i by omega]
    · by_cases h3 : i < 24
      · simp [h1, show ¬ i - 8 < 10 by omega, show i - 18 < 6 by omega, Nat.sub_sub, show 18 + (i - 18) = i by omega]
      · simp [h1, show ¬ i - 8 < 10 by omega, show ¬ i - 18 < 6 by omega, show i - 24 < 8 by omega, Nat.sub_sub,
          show 24 + (i - 24) = i by omega]

section Parts

variable (a : BitVec 8) (r : BitVec 6) (o : BitVec 10) (p : BitVec 8)

@[simp] theorem opField_append : opField (a ++ r ++ o ++ p) = p := by
  apply BitVec.eq_of_getLsbD_eq
  intro i hi
  simp only [opField, BitVec.getLsbD_extractLsb', BitVec.getLsbD_append]
  simp [hi]

@[simp] theorem opndField_append : opndField (a ++ r ++ o ++ p) = o := by
  apply BitVec.eq_of_getLsbD_eq
  intro i hi
  simp only [opndField, BitVec.getLsbD_extractLsb', BitVec.getLsbD_append]
  simp [hi]

@[simp] theorem rsvField_append : rsvField (a ++ r ++ o ++ p) = r := by
  apply BitVec.eq_of_getLsbD_eq
  intro i hi
  simp only [rsvField, BitVec.getLsbD_extractLsb', BitVec.getLsbD_append]
  simp [hi, show 18 + i - 8 = 10 + i by omega, show ¬ (18 + i < 8) by omega]

@[simp] theorem auxField_append : auxField (a ++ r ++ o ++ p) = a := by
  apply BitVec.eq_of_getLsbD_eq
  intro i hi
  simp only [auxField, BitVec.getLsbD_extractLsb', BitVec.getLsbD_append]
  simp [hi, Nat.sub_sub, show ¬ (24 + i < 8) by omega, show ¬ (24 + i - 8 < 10) by omega,
    show ¬ (24 + i - 18 < 6) by omega, show 24 + i - 24 = i by omega]

end Parts

/-- Two words with the same fields are the same. -/
theorem word_ext {w v : Word} (ha : auxField w = auxField v) (hr : rsvField w = rsvField v) (ho : opndField w = opndField v)
    (hp : opField w = opField v) : w = v := by
  rw [word_eq_fields w, word_eq_fields v, ha, hr, ho, hp]

@[simp] theorem opField_encode (i : Instr) : opField (encode i) = i.opcode := opField_append _ _ _ _
@[simp] theorem opndField_encode (i : Instr) : opndField (encode i) = i.opnd := opndField_append _ _ _ _
@[simp] theorem rsvField_encode (i : Instr) : rsvField (encode i) = 0 := rsvField_append _ _ _ _
@[simp] theorem auxField_encode (i : Instr) : auxField (encode i) = i.aux := auxField_append _ _ _ _

/-- `AUX` in its two parts (rule R103). -/
theorem aux_eq_parts (a : BitVec 8) : a = a.extractLsb' 3 5 ++ a.extractLsb' 0 3 := by
  apply BitVec.eq_of_getLsbD_eq
  intro i hi
  simp only [BitVec.getLsbD_append, BitVec.getLsbD_extractLsb']
  by_cases h : i < 3
  · simp [h]
  · simp [h, show i - 3 < 5 by omega, show 3 + (i - 3) = i by omega]

@[simp] theorem auxHigh_append (h : BitVec 5) (l : BitVec 3) : (h ++ l).extractLsb' 3 5 = h := by
  apply BitVec.eq_of_getLsbD_eq
  intro i hi
  simp only [BitVec.getLsbD_extractLsb', BitVec.getLsbD_append]
  simp [hi]

@[simp] theorem auxLow_append (h : BitVec 5) (l : BitVec 3) : (h ++ l).extractLsb' 0 3 = l := by
  apply BitVec.eq_of_getLsbD_eq
  intro i hi
  simp only [BitVec.getLsbD_extractLsb', BitVec.getLsbD_append]
  simp [hi]

/-! ### The decoder's shapes -/

theorem decodePlain_ok {w : Word} {i j : Instr} :
    decodePlain w i = .ok j ↔ rsvField w = 0 ∧ auxField w = 0 ∧ opndField w = 0 ∧ i = j := by
  unfold decodePlain
  split
  · simp_all
  · split
    · simp_all
    · split <;> simp_all

theorem decodeOperand_ok {w : Word} {mk : Nat → Instr} {j : Instr} :
    decodeOperand w mk = .ok j ↔ rsvField w = 0 ∧ auxField w = 0 ∧ mk (opndField w).toNat = j := by
  unfold decodeOperand
  split
  · simp_all
  · split <;> simp_all

theorem decodeCodeRead_ok {w : Word} {j : Instr} :
    decodeCodeRead w = .ok j ↔ rsvField w = 0 ∧ (auxField w).extractLsb' 3 5 = 0 ∧
      .codeRead (opndField w).toNat ((auxField w).extractLsb' 0 3).toNat = j := by
  unfold decodeCodeRead
  split
  · simp_all
  · split <;> simp_all

/-- The opcode of a word that decodes is the command's (rule R104). -/
theorem opField_of_decode {w : Word} {i : Instr} (h : decode w = .ok i) : opField w = i.opcode := by
  unfold decode at h
  split at h <;> rename_i hop
  all_goals first | cases h | skip
  all_goals first
    | (rw [decodePlain_ok] at h; obtain ⟨-, -, -, rfl⟩ := h; exact BitVec.eq_of_toNat_eq hop)
    | (rw [decodeOperand_ok] at h; obtain ⟨-, -, rfl⟩ := h; exact BitVec.eq_of_toNat_eq hop)
    | (rw [decodeCodeRead_ok] at h; obtain ⟨-, -, rfl⟩ := h; exact BitVec.eq_of_toNat_eq hop)

/-! ### The masks of rule R104 -/

theorem masked_eq_iff (w : Word) (ma : BitVec 8) (mo : BitVec 10) (p : BitVec 8) :
    w &&& (ma ++ 0x3F#6 ++ mo ++ 0xFF#8) = (0#8 ++ 0#6 ++ 0#10 ++ p) ↔
      auxField w &&& ma = 0 ∧ rsvField w = 0 ∧ opndField w &&& mo = 0 ∧ opField w = p := by
  have hw : w &&& (ma ++ 0x3F#6 ++ mo ++ 0xFF#8) =
      (auxField w &&& ma) ++ (rsvField w &&& 0x3F#6) ++ (opndField w &&& mo) ++ (opField w &&& 0xFF#8) := by
    conv_lhs => rw [word_eq_fields w]
    rw [BitVec.and_append, BitVec.and_append, BitVec.and_append]
  have h6 : rsvField w &&& 0x3F#6 = rsvField w := BitVec.and_allOnes
  have h8 : opField w &&& 0xFF#8 = opField w := BitVec.and_allOnes
  rw [hw, h6, h8]
  constructor
  · intro h
    have h1 := congrArg auxField h
    have h2 := congrArg rsvField h
    have h3 := congrArg opndField h
    have h4 := congrArg opField h
    simp only [auxField_append, rsvField_append, opndField_append, opField_append] at h1 h2 h3 h4
    exact ⟨h1, h2, h3, h4⟩
  · rintro ⟨h1, h2, h3, h4⟩
    rw [h1, h2, h3, h4]
    rfl

/-- A row without an operand tests every field. -/
theorem matches_plain (w : Word) (p : BitVec 8) :
    w &&& 0xFFFFFFFF = p.setWidth 32 ↔ auxField w = 0 ∧ rsvField w = 0 ∧ opndField w = 0 ∧ opField w = p := by
  have := masked_eq_iff w 0xFF#8 0x3FF#10 p
  have ha : auxField w &&& 0xFF#8 = auxField w := BitVec.and_allOnes
  have ho : opndField w &&& 0x3FF#10 = opndField w := BitVec.and_allOnes
  rw [ha, ho] at this
  rw [← this]
  have hp : (0#8 ++ 0#6 ++ 0#10 ++ p : BitVec 32) = p.setWidth 32 := by
    apply BitVec.eq_of_getLsbD_eq
    intro i hi
    simp only [BitVec.getLsbD_append, BitVec.getLsbD_setWidth]
    by_cases h : i < 8
    · simp [h, hi]
    · simp [h, BitVec.getLsbD_of_ge p i (by omega)]
  rw [hp]
  rfl

/-- A row with a symbol or node index tests every field but `OPND`. -/
theorem matches_operand (w : Word) (p : BitVec 8) :
    w &&& 0xFFFC00FF = p.setWidth 32 ↔ auxField w = 0 ∧ rsvField w = 0 ∧ opField w = p := by
  have := masked_eq_iff w 0xFF#8 0#10 p
  have ha : auxField w &&& 0xFF#8 = auxField w := BitVec.and_allOnes
  have ho : opndField w &&& 0#10 = 0 := BitVec.and_zero
  rw [ha, ho] at this
  have hp : (0#8 ++ 0#6 ++ 0#10 ++ p : BitVec 32) = p.setWidth 32 := by
    apply BitVec.eq_of_getLsbD_eq
    intro i hi
    simp only [BitVec.getLsbD_append, BitVec.getLsbD_setWidth]
    by_cases h : i < 8
    · simp [h, hi]
    · simp [h, BitVec.getLsbD_of_ge p i (by omega)]
  rw [hp] at this
  simpa using this

/-- The row of `CODE_READ` leaves `AUX[2:0]` untested too. -/
theorem matches_codeRead (w : Word) (p : BitVec 8) :
    w &&& 0xF8FC00FF = p.setWidth 32 ↔ (auxField w).extractLsb' 3 5 = 0 ∧ rsvField w = 0 ∧ opField w = p := by
  have := masked_eq_iff w 0xF8#8 0#10 p
  have ha : auxField w &&& 0xF8#8 = 0 ↔ (auxField w).extractLsb' 3 5 = 0 := by
    generalize auxField w = a
    revert a
    decide
  have ho : opndField w &&& 0#10 = 0 := BitVec.and_zero
  rw [ha, ho] at this
  have hp : (0#8 ++ 0#6 ++ 0#10 ++ p : BitVec 32) = p.setWidth 32 := by
    apply BitVec.eq_of_getLsbD_eq
    intro i hi
    simp only [BitVec.getLsbD_append, BitVec.getLsbD_setWidth]
    by_cases h : i < 8
    · simp [h, hi]
    · simp [h, BitVec.getLsbD_of_ge p i (by omega)]
  rw [hp] at this
  simpa using this

end Sys2Proof
end

