-- ==== Sys2Proof/Laws/Stream.lean ====
section
/-! SUPPORT. What the steps over the bit streams can do, said once: emitting a bit, padding, and taking a bit (rules R79, R190, R191,
R210). -/

namespace Sys2Proof.Machine

/-! ### Bits of a byte -/

@[simp] theorem bytesBits_nil : bytesBits [] = [] := rfl

@[simp] theorem bytesBits_append (a b : List Byte) : bytesBits (a ++ b) = bytesBits a ++ bytesBits b := by
  simp [bytesBits]

@[simp] theorem bytesBits_single (b : Byte) : bytesBits [b] = byteBits b := by simp [bytesBits]

theorem bytesBits_cons (b : Byte) (bs : List Byte) : bytesBits (b :: bs) = byteBits b ++ bytesBits bs := rfl

@[simp] theorem length_byteBits (b : Byte) : (byteBits b).length = 8 := by simp [byteBits]

@[simp] theorem length_bytesBits (bs : List Byte) : (bytesBits bs).length = 8 * bs.length := by
  induction bs with
  | nil => rfl
  | cons b bs ih => simp [bytesBits_cons, ih]; omega

/-- The pending bits of the encoder, told by the accumulator and the number alone. -/
def pendingOf (acc : BitVec 8) (n : Nat) : List Bool := (List.range n).map (fun j => acc.getLsbD (n - 1 - j))

/-- The unread bits of the decoder, told by the shift register and the number alone. -/
def unreadOf (shift : BitVec 8) (n : Nat) : List Bool := (List.range n).map (fun j => shift.getLsbD (7 - j))

theorem pendingBits_eq (s : State) : s.pendingBits = pendingOf s.encAcc s.encN.toNat := rfl

theorem unreadBits_eq (s : State) : s.unreadBits = unreadOf s.decShift s.decAvail.toNat := rfl

@[simp] theorem length_pendingOf (acc : BitVec 8) (n : Nat) : (pendingOf acc n).length = n := by simp [pendingOf]

@[simp] theorem length_unreadOf (sh : BitVec 8) (n : Nat) : (unreadOf sh n).length = n := by simp [unreadOf]

@[simp] theorem length_pendingBits (s : State) : s.pendingBits.length = s.encN.toNat := by simp [pendingBits_eq]

@[simp] theorem length_unreadBits (s : State) : s.unreadBits.length = s.decAvail.toNat := by simp [unreadBits_eq]

@[simp] theorem unreadOf_zero (sh : BitVec 8) : unreadOf sh 0 = [] := rfl

@[simp] theorem pendingOf_zero (acc : BitVec 8) : pendingOf acc 0 = [] := rfl

theorem byteBits_eq_unreadOf (b : Byte) : byteBits b = unreadOf b 8 := rfl

theorem byteBits_eq_pendingOf (b : Byte) : byteBits b = pendingOf b 8 := rfl

/-- The accumulator with one more bit. -/
def pushBit (acc : BitVec 8) (b : Bool) : BitVec 8 := (acc <<< 1) ||| (BitVec.ofBool b).setWidth 8

theorem pendingOf_pushBit (acc : BitVec 8) (b : Bool) {n : Nat} (h : n ≤ 7) :
    pendingOf (pushBit acc b) (n + 1) = pendingOf acc n ++ [b] := by
  unfold pendingOf pushBit
  rw [List.range_succ, List.map_append]
  congr 1
  · apply List.map_congr_left
    intro j hj
    rw [List.mem_range] at hj
    have h1 : n + 1 - 1 - j = (n - 1 - j) + 1 := by omega
    rw [h1]
    have h2 : n - 1 - j + 1 < 8 := by omega
    simp [h2, BitVec.getLsbD_eq_getElem (show n - 1 - j < 8 by omega)]
  · simp [BitVec.getLsbD_ofBool]

theorem pushBit_lt {acc : BitVec 8} (b : Bool) {n : Nat} (h : n ≤ 6) (ha : acc.toNat < 2 ^ n) :
    (pushBit acc b).toNat < 2 ^ (n + 1) := by
  have h1 : acc.toNat * 2 % 256 = acc.toNat * 2 := by
    have : 2 ^ n ≤ 2 ^ 6 := Nat.pow_le_pow_right (by omega) h
    omega
  have h2 : (pushBit acc b).toNat = (acc.toNat * 2) ||| b.toNat := by
    unfold pushBit
    rw [BitVec.toNat_or, BitVec.toNat_shiftLeft, Nat.shiftLeft_eq, pow_one, show 2 ^ 8 = 256 by rfl, h1]
    cases b <;> rfl
  rw [h2]
  apply Nat.or_lt_two_pow
  · rw [pow_succ]; omega
  · have : b.toNat < 2 := by cases b <;> decide
    exact lt_of_lt_of_le this (by rw [pow_succ]; have := Nat.one_le_two_pow (n := n); omega)

/-- Padding: the pending bits at the top of a byte, zeros below them (rule R191). -/
theorem byteBits_pad (acc : BitVec 8) {n : Nat} (h : n ≤ 8) :
    byteBits (acc <<< (8 - n)) = pendingOf acc n ++ List.replicate (8 - n) false := by
  apply List.ext_getElem
  · simp; omega
  · intro j h1 h2
    simp only [length_byteBits] at h1
    by_cases hj : j < n
    · rw [List.getElem_append_left (by simpa using hj)]
      simp [byteBits, pendingOf, show 7 - j < 8 by omega, show ¬ (7 - j < 8 - n) by omega,
        show 7 - j - (8 - n) = n - 1 - j by omega]
    · rw [List.getElem_append_right (by simpa using hj)]
      simp [byteBits, show 7 - j < 8 by omega, show 7 - j < 8 - n by omega]

/-- Taking the next unread bit. -/
theorem unreadOf_succ (sh : BitVec 8) {n : Nat} (h : n ≤ 7) :
    unreadOf sh (n + 1) = sh.getLsbD 7 :: unreadOf (sh <<< 1) n := by
  unfold unreadOf
  rw [List.range_succ_eq_map, List.map_cons, List.map_map]
  congr 1
  apply List.map_congr_left
  intro j hj
  rw [List.mem_range] at hj
  simp only [Function.comp, BitVec.getLsbD_shiftLeft]
  simp [show 7 - j < 8 by omega, show ¬ (7 - j < 1) by omega, show 7 - (j + 1) = 7 - j - 1 by omega]

/-! ### The encoder (rules R190, R191) -/

/-- What `emit_bit(b)` does where it is not held. -/
structure Emitted (b : Bool) (s t : State) : Prop where
  frame : t = { s with outFifo := t.outFifo, encAcc := t.encAcc, encN := t.encN, encBits := s.encBits + 1 }
  stream : t.outStream = s.outStream ++ [b]
  encN : t.encN.toNat ≤ 7
  encAcc : t.encAcc.toNat < 2 ^ t.encN.toNat
  level : s.outFifo.length ≤ s.params.outDepth → t.outFifo.length ≤ s.params.outDepth

/-- What `emit_bit(b)` can do: it is held, and then nothing changes, or it appends the bit. -/
theorem emitBit_spec (b : Bool) {s : State} (hn : s.encN.toNat ≤ 7) (ha : s.encAcc.toNat < 2 ^ s.encN.toNat) :
    (s.EmitHeld ∧ emitBit b s = none) ∨ (¬ s.EmitHeld ∧ ∃ t, emitBit b s = some t ∧ Emitted b s t) := by
  by_cases hh : s.EmitHeld
  · exact .inl ⟨hh, if_pos hh⟩
  · refine .inr ⟨hh, ?_⟩
    unfold emitBit
    rw [if_neg hh]
    have hp : s.encAcc <<< 1 ||| (BitVec.ofBool b).setWidth 8 = pushBit s.encAcc b := rfl
    have h1 : (s.encN + 1).toNat = s.encN.toNat + 1 := by
      rw [BitVec.toNat_add]
      have : (1 : BitVec 4).toNat = 1 := rfl
      omega
    split
    · next h8 =>
      have h7 : s.encN.toNat = 7 := by
        have := congrArg BitVec.toNat h8
        rw [h1] at this
        have h88 : (8 : BitVec 4).toNat = 8 := rfl
        omega
      refine ⟨_, rfl, rfl, ?_, by simp, by simp, ?_⟩
      · have := pendingOf_pushBit s.encAcc b (n := 7) (by omega)
        simp only [State.outStream, pendingBits_eq, hp, h7, bytesBits_append, bytesBits_single, byteBits_eq_pendingOf, this]
        simp
      · have : s.encN = 7 := BitVec.eq_of_toNat_eq h7
        have hne : s.outFifo.length ≠ s.params.outDepth := fun h => hh ⟨this, h⟩
        intro hf
        simp
        omega
    · next h8 =>
      have h7 : s.encN.toNat ≤ 6 := by
        rcases Nat.lt_or_ge s.encN.toNat 7 with h | h
        · omega
        · exfalso
          apply h8
          apply BitVec.eq_of_toNat_eq
          rw [h1]
          have h88 : (8 : BitVec 4).toNat = 8 := rfl
          omega
      refine ⟨_, rfl, rfl, ?_, ?_, ?_, id⟩
      · simp only [State.outStream, pendingBits_eq, hp, h1, pendingOf_pushBit s.encAcc b hn, List.append_assoc]
      · simp only [h1]; omega
      · simp only [h1, hp]; exact pushBit_lt b h7 ha

/-- What the padding step does where it is not held. -/
theorem padByte_spec {s : State} (hn : s.encN.toNat ≤ 7) :
    (s.OutFull ∧ padByte s = none) ∨
      (¬ s.OutFull ∧ ∃ t, padByte s = some t ∧ t = { s with outFifo := t.outFifo, encAcc := 0, encN := 0 } ∧
        t.outStream = s.outStream ++ List.replicate (8 - s.encN.toNat) false ∧ t.outFifo.length = s.outFifo.length + 1) := by
  unfold padByte
  by_cases hf : s.OutFull
  · exact .inl ⟨hf, if_pos hf⟩
  · refine .inr ⟨hf, ?_⟩
    rw [if_neg hf]
    refine ⟨_, rfl, rfl, ?_, by simp [State.pushOut]⟩
    have h0 : (0#4).toNat = 0 := rfl
    simp only [State.outStream, State.pushOut, pendingBits_eq, bytesBits_append, bytesBits_single,
      byteBits_pad s.encAcc (show s.encN.toNat ≤ 8 by omega)]
    simp

/-! ### The decoder (rule R210) -/

/-- What `read_bit()` does where it takes a bit. -/
structure BitTaken (b : Bool) (s t : State) : Prop where
  frame : t = { s with inFifo := t.inFifo, decShift := t.decShift, decAvail := t.decAvail, decBits := s.decBits + 1 }
  stream : s.inStream = b :: t.inStream
  avail : t.decAvail.toNat ≤ 7
  shift : (∃ k, s.decShift.toNat = k * 2 ^ (8 - s.decAvail.toNat)) → 2 ^ (8 - t.decAvail.toNat) ∣ t.decShift.toNat
  level : t.inFifo.length ≤ s.inFifo.length

theorem shiftLeft_dvd {sh : BitVec 8} {n : Nat} (h : 2 ^ (8 - (n + 1)) ∣ sh.toNat) (hn : n ≤ 7) :
    2 ^ (8 - n) ∣ (sh <<< 1).toNat := by
  obtain ⟨k, hk⟩ := h
  rw [BitVec.toNat_shiftLeft, Nat.shiftLeft_eq, pow_one]
  have h1 : 2 ^ (8 - n) ∣ sh.toNat * 2 := by
    refine ⟨k, ?_⟩
    rw [hk, show 8 - n = 8 - (n + 1) + 1 by omega, pow_succ]
    ring
  exact (Nat.dvd_mod_iff (Nat.pow_dvd_pow 2 (show 8 - n ≤ 8 by omega))).2 h1

theorem takeBit_spec {s : State} (h0 : s.decAvail ≠ 0) (h8 : s.decAvail.toNat ≤ 8) :
    ∃ t, takeBit s = .bit (s.decShift.getLsbD 7) t ∧ BitTaken (s.decShift.getLsbD 7) s t := by
  have hpos : 0 < s.decAvail.toNat := by
    rcases Nat.eq_zero_or_pos s.decAvail.toNat with h | h
    · exact absurd (BitVec.eq_of_toNat_eq h) h0
    · exact h
  have h1 : (s.decAvail - 1).toNat = s.decAvail.toNat - 1 := by
    rw [BitVec.toNat_sub_of_le (by rw [BitVec.le_def]; exact hpos)]
    rfl
  refine ⟨_, rfl, rfl, ?_, by simp only [h1]; omega, ?_, by simp⟩
  · have h2 : s.decAvail.toNat = s.decAvail.toNat - 1 + 1 := by omega
    simp only [State.inStream, unreadBits_eq, h1]
    rw [h2, unreadOf_succ _ (by omega)]
    simp
  · rintro ⟨k, hk⟩
    simp only [h1]
    apply shiftLeft_dvd _ (by omega)
    rw [show s.decAvail.toNat - 1 + 1 = s.decAvail.toNat by omega]
    exact ⟨k, by rw [hk]; ring⟩

/-- What `read_bit()` can do, told by the input stream. -/
theorem readBit_spec {s : State} (h8 : s.decAvail.toNat ≤ 8) :
    (s.ReadHeld ∧ s.inStream = [] ∧ readBit s = .hold) ∨
    (s.inStream = [] ∧ s.inEnd = true ∧ readBit s = .exhausted) ∨
    (¬ s.ReadHeld ∧ ∃ b t, readBit s = .bit b t ∧ BitTaken b s t) := by
  unfold readBit
  by_cases h0 : s.decAvail = 0
  · rw [if_pos h0]
    have hu : s.unreadBits = [] := by rw [unreadBits_eq, h0]; rfl
    cases hf : s.inFifo with
    | nil =>
      have hs : s.inStream = [] := by simp [State.inStream, hu, hf]
      cases he : s.inEnd with
      | true => exact .inr (.inl ⟨hs, rfl, rfl⟩)
      | false => exact .inl ⟨⟨h0, hf, he⟩, hs, rfl⟩
    | cons b rest =>
      refine .inr (.inr ⟨fun h => List.cons_ne_nil b rest (hf.symm.trans h.2.1), ?_⟩)
      have hne : ({ s with inFifo := rest, decShift := b, decAvail := 8 } : State).decAvail ≠ 0 := by
        show (8 : BitVec 4) ≠ 0
        decide
      obtain ⟨t, ht, hb⟩ := takeBit_spec hne (by show (8 : BitVec 4).toNat ≤ 8; decide)
      refine ⟨_, t, ht, ?_, ?_, hb.avail, fun _ => hb.shift ⟨b.toNat, ?_⟩, ?_⟩
      · have := hb.frame
        rw [this]
      · rw [← hb.stream]
        simp only [State.inStream, hu, hf, bytesBits_cons, byteBits_eq_unreadOf]
        rfl
      · show b.toNat = b.toNat * 2 ^ (8 - 8)
        omega
      · have := hb.level
        simp only at this
        rw [hf]
        simp
        omega
  · rw [if_neg h0]
    obtain ⟨t, ht, hb⟩ := takeBit_spec h0 h8
    exact .inr (.inr ⟨fun h => h0 h.1, _, t, ht, hb⟩)

end Sys2Proof.Machine
end

