-- ==== Sys2Proof/Laws/Run.lean ====
section
/-! SUPPORT. Running a streaming command by itself: what its run steps do together, to its end (rules R193, R194, R213, R298). -/

namespace Sys2Proof.Machine

/-! ### Engine steps, one after the other -/

theorem engineNext_eq {s t : State} {p : Pend} {i : Instr} (hp : s.pend = some p) (hd : decode p.word = .ok i)
    (ht : exec i s = .next t) : engineNext s = t := by
  simp [engineNext, engineStep, hp, hd, ht]

theorem engineNext_idle {s : State} (hp : s.pend = none) : engineNext s = s := by
  simp [engineNext, engineStep, hp]

theorem engineRun_idle (n : Nat) {s : State} (hp : s.pend = none) : engineRun n s = s := by
  induction n with
  | zero => rfl
  | succ n ih => simp [engineRun, engineNext_idle hp, ih]

theorem engineRun_add (a b : Nat) (s : State) : engineRun (a + b) s = engineRun b (engineRun a s) := by
  induction a generalizing s with
  | zero => simp [engineRun]
  | succ a ih => rw [Nat.succ_add]; simp [engineRun, ih]

/-! ### The encoder -/

/-- The encoder's pending bits are in the form of rule R32. -/
structure EncOk (s : State) : Prop where
  n : s.encN.toNat ≤ 7
  a : s.encAcc.toNat < 2 ^ s.encN.toNat

/-- `t` is `s` with `bits` appended to the output stream, one after the other, and counted. -/
structure Emits (bits : List Bool) (s t : State) : Prop where
  frame : t = { s with outFifo := t.outFifo, encAcc := t.encAcc, encN := t.encN, encBits := t.encBits, pend := t.pend }
  stream : t.outStream = s.outStream ++ bits
  bits : t.encBits = s.encBits + BitVec.ofNat 64 bits.length
  ok : EncOk t

theorem length_outStream (s : State) : s.outStream.length = 8 * s.outFifo.length + s.encN.toNat := by
  simp [State.outStream]

/-- With room for one more bit, a code-bit step is not held. -/
theorem not_held {s : State} {n : Nat} (h : s.outStream.length + (n + 1) ≤ 8 * s.params.outDepth) : ¬ s.EmitHeld := by
  rintro ⟨h1, h2⟩
  rw [length_outStream, h1, h2] at h
  have : (7 : BitVec 4).toNat = 7 := rfl
  omega

theorem ofNat_succ (n : Nat) : (1 : Counter) + BitVec.ofNat 64 n = BitVec.ofNat 64 (n + 1) := by
  apply BitVec.eq_of_toNat_eq
  simp [BitVec.toNat_add]
  omega

/-- The run steps of `ENC_SYM` from bit `IDX` on, with room for them (rule R193). -/
theorem encSym_run (k : Nat) : ∀ (n : Nat) (s : State) (p : Pend), s.pend = some p → decode p.word = .ok (.encSym k) →
    p.phase = .run →
    p.idx + (n + 1) = (s.code k).length → EncOk s → s.outStream.length + (n + 1) ≤ 8 * s.params.outDepth →
    (engineRun (n + 1) s).pend = none ∧ Emits ((s.code k).drop p.idx) s (engineRun (n + 1) s) := by
  intro n
  induction n with
  | zero =>
    intro s p hp hd hph hlen hok hroom
    have hexec : exec (.encSym k) s = .next (encSymRun k s) := by simp [exec, execEncSym, State.phase_of_pend hp, hph]
    have hrun : engineRun (0 + 1) s = encSymRun k s := by simp [engineRun, engineNext_eq hp hd hexec]
    rw [hrun]
    have hidx := State.idx_of_pend hp
    rcases emitBit_spec ((s.code k).getD s.idx false) hok.n hok.a with ⟨h1, -⟩ | ⟨-, t, h2, he⟩
    · exact absurd h1 (not_held hroom)
    · have hlt : p.idx < (s.code k).length := by omega
      have e : encSymRun k s = t.nextBit.complete := by
        unfold encSymRun; rw [h2]; simp only; rw [if_pos (by omega)]
      rw [e]
      have hdrop : (s.code k).drop p.idx = [(s.code k).getD s.idx false] := by
        rw [List.drop_eq_getElem_cons hlt, List.drop_eq_nil_of_le (by omega), hidx]
        rw [List.getD_eq_getElem _ _ hlt]
      refine ⟨rfl, ?_, ?_, ?_, ⟨he.encN, he.encAcc⟩⟩
      · simp only [State.complete, State.nextBit]; rw [he.frame]
      · rw [hdrop]; exact he.stream
      · rw [hdrop]; show t.encBits = _; rw [he.frame]; rfl
  | succ n ih =>
    intro s p hp hd hph hlen hok hroom
    have hexec : exec (.encSym k) s = .next (encSymRun k s) := by simp [exec, execEncSym, State.phase_of_pend hp, hph]
    have hrun : engineRun (n + 1 + 1) s = engineRun (n + 1) (encSymRun k s) := by simp [engineRun, engineNext_eq hp hd hexec]
    rw [hrun]
    have hidx := State.idx_of_pend hp
    rcases emitBit_spec ((s.code k).getD s.idx false) hok.n hok.a with ⟨h1, -⟩ | ⟨-, t, h2, he⟩
    · exact absurd h1 (not_held hroom)
    · have hlt : p.idx < (s.code k).length := by omega
      have e : encSymRun k s = t.nextBit := by
        unfold encSymRun; rw [h2]; simp only; rw [if_neg (by omega)]
      have hpe : t.pend = some p := by rw [he.frame]; exact hp
      have hco : ∀ k, t.nextBit.code k = s.code k := by intro k; rw [he.frame]; rfl
      have hpar : t.nextBit.params = s.params := by rw [he.frame]; rfl
      rw [e]
      obtain ⟨h3, h4⟩ := ih t.nextBit { p with idx := p.idx + 1 } (by simp [hpe]) hd hph (by rw [hco]; simp only; omega) ⟨he.encN,
          he.encAcc⟩ (by
        rw [hpar]
        have : t.nextBit.outStream = t.outStream := rfl
        rw [this, he.stream]; simp; omega)
      refine ⟨h3, ?_, ?_, ?_, h4.ok⟩
      · rw [h4.frame]; simp only [State.nextBit]; rw [he.frame]
      · rw [h4.stream, hco]
        have : t.nextBit.outStream = t.outStream := rfl
        rw [this, he.stream, List.append_assoc, List.drop_eq_getElem_cons hlt, hidx, List.getD_eq_getElem _ _ hlt]
        rfl
      · rw [h4.bits, hco]
        have e1 : t.nextBit.encBits = s.encBits + 1 := by rw [he.frame]; rfl
        rw [e1, BitVec.add_assoc, ofNat_succ]
        congr 2
        simp; omega

/-- The run steps of `ENC_EOF` from bit `IDX` on, with room for them: then the stream has ended, or its padding is left
    (rule R194). -/
theorem encEof_run : ∀ (n : Nat) (s : State) (p : Pend), s.pend = some p → decode p.word = .ok .encEof → p.phase = .run →
    p.idx + (n + 1) = (s.code 256).length → EncOk s → s.outStream.length + (n + 1) ≤ 8 * s.params.outDepth →
    ∃ t, (engineRun (n + 1) s) = (if t.encN = 0 then t.encDone else t.beginPad) ∧ Emits ((s.code 256).drop p.idx) s t ∧ ∃ q,
        t.pend = some q ∧ q.word = p.word := by
  intro n
  induction n with
  | zero =>
    intro s p hp hd hph hlen hok hroom
    have hexec : exec .encEof s = .next (encEofRun s) := by simp [exec, execEncEof, State.phase_of_pend hp, hph]
    have hrun : engineRun (0 + 1) s = encEofRun s := by simp [engineRun, engineNext_eq hp hd hexec]
    rw [hrun]
    have hidx := State.idx_of_pend hp
    rcases emitBit_spec ((s.code 256).getD s.idx false) hok.n hok.a with ⟨h1, -⟩ | ⟨-, t, h2, he⟩
    · exact absurd h1 (not_held hroom)
    · have hlt : p.idx < (s.code 256).length := by omega
      have hpe : t.pend = some p := by rw [he.frame]; exact hp
      refine ⟨t.nextBit, ?_, ?_, { p with idx := p.idx + 1 }, by simp [hpe], rfl⟩
      · unfold encEofRun
        rw [show Config.eofSymbol = 256 from rfl, h2]; simp only; rw [if_pos (by omega)]
        rfl
      · have hdrop : (s.code 256).drop p.idx = [(s.code 256).getD s.idx false] := by
          rw [List.drop_eq_getElem_cons hlt, List.drop_eq_nil_of_le (by omega), hidx]
          rw [List.getD_eq_getElem _ _ hlt]
        refine ⟨?_, ?_, ?_, ⟨he.encN, he.encAcc⟩⟩
        · simp only [State.nextBit]; rw [he.frame]
        · rw [hdrop]; exact he.stream
        · rw [hdrop]; show t.encBits = _; rw [he.frame]; rfl
  | succ n ih =>
    intro s p hp hd hph hlen hok hroom
    have hexec : exec .encEof s = .next (encEofRun s) := by simp [exec, execEncEof, State.phase_of_pend hp, hph]
    have hrun : engineRun (n + 1 + 1) s = engineRun (n + 1) (encEofRun s) := by simp [engineRun, engineNext_eq hp hd hexec]
    rw [hrun]
    have hidx := State.idx_of_pend hp
    rcases emitBit_spec ((s.code 256).getD s.idx false) hok.n hok.a with ⟨h1, -⟩ | ⟨-, t, h2, he⟩
    · exact absurd h1 (not_held hroom)
    · have hlt : p.idx < (s.code 256).length := by omega
      have e : encEofRun s = t.nextBit := by
        unfold encEofRun; rw [show Config.eofSymbol = 256 from rfl, h2]; simp only; rw [if_neg (by omega)]
      have hpe : t.pend = some p := by rw [he.frame]; exact hp
      have hco : ∀ k, t.nextBit.code k = s.code k := by intro k; rw [he.frame]; rfl
      have hpar : t.nextBit.params = s.params := by rw [he.frame]; rfl
      rw [e]
      obtain ⟨t', h3, h4, h5⟩ := ih t.nextBit { p with idx := p.idx + 1 } (by simp [hpe]) hd hph
          (by rw [hco]; simp only; omega) ⟨he.encN, he.encAcc⟩ (by
        rw [hpar]
        have : t.nextBit.outStream = t.outStream := rfl
        rw [this, he.stream]; simp; omega)
      refine ⟨t', h3, ?_, h5⟩
      refine ⟨?_, ?_, ?_, h4.ok⟩
      · rw [h4.frame]; simp only [State.nextBit]; rw [he.frame]
      · rw [h4.stream, hco]
        have : t.nextBit.outStream = t.outStream := rfl
        rw [this, he.stream, List.append_assoc, List.drop_eq_getElem_cons hlt, hidx, List.getD_eq_getElem _ _ hlt]
        rfl
      · rw [h4.bits, hco]
        have e1 : t.nextBit.encBits = s.encBits + 1 := by rw [he.frame]; rfl
        rw [e1, BitVec.add_assoc, ofNat_succ]
        congr 2
        simp; omega

/-! ### The decoder -/

/-- The walk steps of `DEC_SYM` from the cursor to the leaf of symbol `k`, with its path at the head of the input (rule R213). -/
theorem decode_run {c : Table Word} : ∀ (path : List Bool) (s : State) (p : Pend) (k : Nat) (rest : List Bool), s.pend = some p →
    decode p.word = .ok .decSym → p.phase = .run →
    HoldsTree c s.nodes s.root → s.cursor.toNat < (buildTree c).nodes.length → s.decAvail.toNat ≤ 8 → path ≠ [] →
    IsCodePath s.nodes s.cursor k path → s.inStream = path ++ rest → k ≤ 256 →
    ∃ t, engineRun path.length s = t ∧ t.inStream = rest ∧ t.result = BitVec.ofNat 32 k ∧
        t.decBits = s.decBits + BitVec.ofNat 64 path.length ∧ t.decAvail.toNat ≤ 8 ∧
      t = { s with inFifo := t.inFifo, decShift := t.decShift, decAvail := t.decAvail, decBits := t.decBits, pend := none,
                   result := t.result, decState := if k = 256 then .done else s.decState, cursor := t.cursor} ∧
      (k ≠ 256 → t.cursor = s.root) ∧ (k = 256 → (t.node t.cursor).sym = 256) := by
  intro path
  induction path with
  | nil => intro s p k rest _ _ _ _ _ _ h; exact absurd rfl h
  | cons b path ih =>
    intro s p k rest hp hd hph hT hcl h8 _ hpath hin hk
    obtain ⟨j, ⟨hleaf, hnil, hrest⟩, hjl, hjs⟩ := hpath
    have hexec : exec .decSym s = .next (walkStep s) := by simp [exec, execDecSym, State.phase_of_pend hp, hph]
    have hnext := engineNext_eq hp hd hexec
    rw [List.length_cons, engineRun, hnext]
    have hlt := hT.child_lt hcl hleaf hnil
    rcases readBit_spec h8 with ⟨hh, h1, h2⟩ | ⟨h1, he, h2⟩ | ⟨hh, b', t, h2, hb⟩
    · rw [h1] at hin; cases hin
    · rw [h1] at hin; cases hin
    · have hst := hb.stream
      rw [hin] at hst
      injection hst with e1 e2
      subst e1
      have hn : ∀ i, t.node i = s.node i := by intro i; rw [hb.frame]; rfl
      have hw : walkStep s = moveTo (childOf (nodeOf s.nodes s.cursor) b) t := by
        unfold walkStep; rw [h2]; rfl
      rw [hw]
      obtain ⟨m1, m2, m3, m4⟩ := moveTo_spec t (childOf (nodeOf s.nodes s.cursor) b)
      rw [hn] at m2 m3 m4
      have hbits : t.decBits = s.decBits + 1 := by rw [hb.frame]
      have hav : t.decAvail.toNat ≤ 8 := by have := hb.avail; omega
      cases path with
      | nil =>
        have hj : childOf (nodeOf s.nodes s.cursor) b = j := hrest
        have hsymt : (s.node (childOf (nodeOf s.nodes s.cursor) b)).sym.toNat = k := by rw [hj]; exact hjs
        have hsl : (s.node (childOf (nodeOf s.nodes s.cursor) b)).isLeaf = true := by rw [hj]; exact hjl
        simp only [List.length_nil, engineRun]
        by_cases h256 : k = 256
        · have hs : (s.node (childOf (nodeOf s.nodes s.cursor) b)).sym = 256 := BitVec.eq_of_toNat_eq (hsymt.trans h256)
          rw [m2 hnil hs]
          refine ⟨_, rfl, e2.symm, by rw [h256]; rfl, hbits, hav, ?_, fun h => absurd h256 h, fun _ => ?_⟩
          · simp only [h256]; rw [hb.frame]; simp
          · exact (congrArg Node.sym (hn _)).trans hs
        · have hs : (s.node (childOf (nodeOf s.nodes s.cursor) b)).sym ≠ 256 := fun h => h256 (by rw [← hsymt, h]; rfl)
          rw [m3 hnil hs hsl]
          refine ⟨_, rfl, e2.symm, ?_, hbits, hav, ?_, fun _ => ?_, fun h => absurd h h256⟩
          · apply BitVec.eq_of_toNat_eq
            simp [hsymt]

          · rw [if_neg h256]; rw [hb.frame]
          · show t.root = s.root; rw [hb.frame]
      | cons b2 path =>
        have hil : (s.node (childOf (nodeOf s.nodes s.cursor) b)).isLeaf = false := hrest.1
        rw [m4 hnil hil]
        have hnn : ({ t with cursor := childOf (nodeOf s.nodes s.cursor) b } : State).nodes = s.nodes := by rw [hb.frame]
        have hrr : ({ t with cursor := childOf (nodeOf s.nodes s.cursor) b } : State).root = s.root := by rw [hb.frame]
        obtain ⟨t', c1, c2, c3, c4, c5, c6, c7, c8⟩ := ih { t with cursor := childOf (nodeOf s.nodes s.cursor) b } p k rest
            (by rw [hb.frame]; exact hp) hd hph (by rw [hnn, hrr]; exact hT) (hlt.trans hcl) hav (by simp) (by rw [hnn]; exact ⟨j,
                hrest, hjl, hjs⟩) e2.symm hk
        refine ⟨t', c1, c2, c3, ?_, c5, ?_, ?_, c8⟩
        · rw [c4]; show t.decBits + _ = _
          rw [hbits, BitVec.add_assoc, ofNat_succ]

        · rw [c6]; simp only; rw [hb.frame]
        · intro h; rw [c7 h, hrr]

end Sys2Proof.Machine
end

