-- ==== Sys2Proof/Laws/Invariant.lean ====
section
/-! SUPPORT. The invariant, part by part: what the shared operations, the streaming steps and the accesses keep (rule R35). -/

namespace Sys2Proof.Machine

/-- Recording keeps the form of `ERROR`. -/
theorem recordable {r : ErrorReg} {e : ErrorKind} (src : BitVec 8) (info : BitVec 10) (he : e ≠ .emptyAlphabet) (h :
    r.code ∈ recordableCodes ∧ (r.code = 0 → r = .clear)) :
    (r.record e src info).code ∈ recordableCodes ∧ ((r.record e src info).code = 0 → (r.record e src info) = .clear) := by
  refine ⟨?_, fun h => absurd h (ErrorReg.record_code_ne_zero _ _ _ _)⟩
  by_cases h0 : r.code = 0
  · rw [ErrorReg.record_first h0]
    cases e <;> first | contradiction | (simp only [ErrorKind.code]; decide)
  · rw [ErrorReg.record_later h0]; exact h.1

theorem State.Inv.raiseCmd {s : State} (h : s.Inv) (u : FailedUnit) {e : ErrorKind} (info : BitVec 10) (he : e ≠ .emptyAlphabet) :
    (s.raiseCmd u e info).Inv := by
  have hr := recordable s.pendOp info he h.error
  cases u
  · exact ⟨h.params, h.counts, h.store, h.table, h.tree, h.codes, h.enc, h.dec, h.encPending, h.decPending, h.fifos, hr,
      fun p hp => (by cases hp)⟩
  · exact ⟨h.params, h.counts, h.store, h.table, h.tree, h.codes, fun hp => (by cases hp), h.dec, h.encPending, h.decPending,
      h.fifos, hr, fun p hp => (by cases hp)⟩
  · exact ⟨h.params, h.counts, h.store, h.table, h.tree, h.codes, h.enc, fun hp => (by cases hp), h.encPending, h.decPending,
      h.fifos, hr, fun p hp => (by cases hp)⟩

theorem State.Inv.complete {s : State} (h : s.Inv) : s.complete.Inv :=
  ⟨h.params, h.counts, h.store, h.table, h.tree, h.codes, h.enc, h.dec, h.encPending, h.decPending, h.fifos, h.error, fun p hp =>
      (by cases hp)⟩

/-- A new frequency table, with what was derived from the old one invalidated (rule R62). -/
theorem State.Inv.afterCount {s : State} (h : s.Inv) (c : Table Word) (hc : Table.Wf 0 Config.nReal c ∧ ∀ e ∈ c,
    e.2.toNat ≤ s.maxCount) :
   ({ s with count := c } : State).invalidate.complete.Inv :=
  ⟨h.params, hc, h.store, h.table, fun hp => (by cases hp), fun hp => (by cases hp), fun hp => (by cases hp), fun hp =>
      (by cases hp), h.encPending, h.decPending, h.fifos, h.error, fun p hp => (by cases hp)⟩

theorem inv_setCount {s : State} (h : s.Inv) {k : Nat} (hk : k < 256) {x : Word} (hx : x.toNat ≤ s.maxCount) :
   Table.Wf 0 Config.nReal (setCount s.count k x) ∧ ∀ e ∈ setCount s.count k x, e.2.toNat ≤ s.maxCount := by
  refine ⟨Table.wf_set x hk h.counts.1, fun e he => ?_⟩
  rcases Table.mem_set he with ⟨rfl, -⟩ | he
  · exact hx
  · exact h.counts.2 e he

theorem maxCount_pos {s : State} (h : s.Inv) : 1 ≤ s.maxCount ∧ s.maxCount < 2 ^ 32 := by
  obtain ⟨⟨h1, h2⟩, -⟩ := h.params
  unfold State.maxCount
  have a := Nat.pow_le_pow_right (show 0 < 2 by omega) h1
  have b := Nat.pow_le_pow_right (show 0 < 2 by omega) h2
  omega

/-- A code-bit step keeps all but the pending command's part. -/
theorem inv_emit {s t : State} (h : s.Inv) {b : Bool} (ht : emitBit b s = some t) : t.complete.Inv ∧
    t.outStream = s.outStream ++ [b] ∧ t.pend = s.pend ∧ t.codes = s.codes ∧ t.encState = s.encState := by
  rcases emitBit_spec b h.encPending.1 h.encPending.2 with ⟨-, h2⟩ | ⟨-, t', h2, he⟩
  · rw [ht] at h2; cases h2
  · rw [ht] at h2; cases h2
    have hf := he.frame
    have h1 := he.encN
    have h2 := he.encAcc
    have h3 := he.level h.fifos.1
    refine ⟨?_, he.stream, ?_, ?_, ?_⟩
    · have h4 := h.fifos.1
      rw [hf]
      exact ⟨h.params, h.counts, h.store, h.table, h.tree, h.codes, h.enc, h.dec, ⟨h1, h2⟩, h.decPending, ⟨h3, h.fifos.2⟩, h.error,
          fun p hp => (by cases hp)⟩
    all_goals rw [hf]

theorem inv_setPend {s : State} (h : s.Inv) (p : Option Pend) (hp : ∀ q, p = some q → s.PendOk q) : ({ s with pend := p } :
    State).Inv :=
  ⟨h.params, h.counts, h.store, h.table, h.tree, h.codes, h.enc, h.dec, h.encPending, h.decPending, h.fifos, h.error, hp⟩

theorem inv_encDone {s : State} (h : s.Inv) : (s.encDone).Inv :=
  ⟨h.params, h.counts, h.store, h.table, h.tree, h.codes, fun hp => (by cases hp), h.dec, h.encPending, h.decPending, h.fifos,
      h.error, fun p hp => (by cases hp)⟩

theorem inv_encSymRun {s : State} (h : s.Inv) {p : Pend} (hp : s.pend = some p) {k : Nat} (hd : decode p.word = .ok (.encSym k))
    (hph : p.phase = .run) : (encSymRun k s).Inv := by
  unfold encSymRun
  split
  · exact h
  · next t ht =>
    obtain ⟨hi, hs, hpe, hco, hen⟩ := inv_emit h ht
    rw [hp] at hpe
    have hok := h.pend p hp
    simp only [State.PendOk, hph, hd] at hok
    split
    · exact inv_setPend hi _ (fun q hq => by cases hq)
    · next hne =>
      refine inv_setPend hi _ ?_
      intro q hq
      rw [hpe] at hq
      simp at hq
      subst hq
      simp only [State.PendOk, hph, hd]
      refine ⟨hen.trans hok.1, hok.2.1, ?_⟩
      have : t.complete.code k = s.code k := by simp [State.code, hco]
      rw [this]
      rw [State.idx_of_pend hp] at hne
      omega

theorem inv_encEofRun {s : State} (h : s.Inv) {p : Pend} (hp : s.pend = some p) (hd : decode p.word = .ok (.encEof)) (hph :
    p.phase = .run) : (encEofRun s).Inv := by
  unfold encEofRun
  split
  · exact h
  · next t ht =>
    obtain ⟨hi, hs, hpe, hco, hen⟩ := inv_emit h ht
    rw [hp] at hpe
    have hok := h.pend p hp
    simp only [State.PendOk, hph, hd] at hok
    split
    · split
      · exact ⟨hi.params, hi.counts, hi.store, hi.table, hi.tree, hi.codes, fun hp => (by cases hp), hi.dec, hi.encPending,
          hi.decPending, hi.fifos, hi.error, fun p hp => (by cases hp)⟩
      · next hne =>
        refine inv_setPend hi _ ?_
        intro q hq
        simp [State.nextBit, hpe] at hq
        subst hq
        simp only [State.PendOk, hd]
        rcases Nat.eq_zero_or_pos t.encN.toNat with h | h
        · exact absurd (BitVec.eq_of_toNat_eq h) hne
        · exact ⟨trivial, hen.trans hok.1, h⟩
    · next hne =>
      refine inv_setPend hi _ ?_
      intro q hq
      rw [hpe] at hq
      simp at hq
      subst hq
      simp only [State.PendOk, hph, hd]
      refine ⟨hen.trans hok.1, ?_⟩
      have : t.complete.code Config.eofSymbol = s.code Config.eofSymbol := by simp [State.code, hco]
      rw [this]
      rw [State.idx_of_pend hp] at hne
      omega

theorem inv_encEofPad {s : State} (h : s.Inv) : (encEofPad s).Inv := by
  unfold encEofPad
  rcases padByte_spec h.encPending.1 with ⟨-, h2⟩ | ⟨hf, t', h2, hfr, hs, hl⟩
  · rw [h2]; exact h
  · rw [h2]
    have := h.fifos.1
    have hf' : s.outFifo.length ≠ s.params.outDepth := hf
    rw [hfr]
    exact ⟨h.params, h.counts, h.store, h.table, h.tree, h.codes, fun hp => (by cases hp), h.dec, ⟨by simp [State.encDone],
        by simp [State.encDone]⟩, h.decPending, ⟨by simp [State.encDone]; omega, h.fifos.2⟩, h.error, fun p hp => (by cases hp)⟩

/-- A walk step keeps the cursor inside the tree (rule R35). -/
theorem inv_walk {s : State} (h : s.Inv) {p : Pend} (hp : s.pend = some p) (hd : decode p.word = .ok (.decSym)) (hph :
    p.phase = .run) : (walkStep s).Inv := by
  have hok := h.pend p hp
  simp only [State.PendOk, hph, hd] at hok
  obtain ⟨htv, hcl, hci⟩ := h.dec hok
  unfold walkStep
  rcases readBit_spec h.decPending.1 with ⟨-, -, h2⟩ | ⟨-, -, h2⟩ | ⟨-, b, t, h2, hb⟩
  · rw [h2]; exact h
  · rw [h2]; exact h.raiseCmd _ _ (by decide)
  · rw [h2]
    have hti : t.Inv := by
      have hl := hb.level
      have := h.fifos.2
      have hs := hb.shift (by obtain ⟨k, hk⟩ := h.decPending.2; exact ⟨k, by rw [hk]; ring⟩)
      have ha := hb.avail
      rw [hb.frame]
      exact ⟨h.params, h.counts, h.store, h.table, h.tree, h.codes, h.enc, h.dec, h.encPending, ⟨by simp; omega, hs⟩, ⟨h.fifos.1,
          by simp; omega⟩, h.error, h.pend⟩
    have hcur := h.tree htv
    have hT := hcur.holds
    have hn : ∀ i, t.node i = s.node i := by intro i; rw [hb.frame]; rfl
    show (moveTo (childOf (s.node s.cursor) b) t).Inv
    unfold moveTo
    split
    · exact hti.raiseCmd _ _ (by decide)
    · next hnil =>
      have hlt : (childOf (s.node s.cursor) b).toNat < s.nodeCount.toNat := by
        have h1 := hT.child_lt (i := s.cursor) (b := b) (by rw [← hcur.2.1]; exact hcl) hci hnil
        have : s.cursor.toNat < s.nodeCount.toNat := hcl
        exact h1.trans hcl
      split
      · exact ⟨hti.params, hti.counts, hti.store, hti.table, hti.tree, hti.codes, hti.enc, fun hp => (by cases hp), hti.encPending,
          hti.decPending, hti.fifos, hti.error, fun p hp => (by cases hp)⟩
      · split
        · refine ⟨hti.params, hti.counts, hti.store, hti.table, hti.tree, hti.codes, hti.enc, fun hd' => ?_, hti.encPending,
            hti.decPending, hti.fifos, hti.error, fun p hp => (by cases hp)⟩
          refine ⟨(hti.dec hd').1, ?_, ?_⟩
          · rw [hb.frame]
            show s.root.toNat < s.nodeCount.toNat
            rw [hcur.2.1]; exact hT.root_lt
          · rw [hb.frame]
            exact hT.root_internal
        · next hleaf =>
          refine ⟨hti.params, hti.counts, hti.store, hti.table, hti.tree, hti.codes, hti.enc, fun hd' => ?_, hti.encPending,
              hti.decPending, hti.fifos, hti.error, hti.pend⟩
          refine ⟨(hti.dec hd').1, ?_, ?_⟩
          · rw [hb.frame]
            exact hlt
          · simp only [Bool.not_eq_true] at hleaf; exact hleaf

theorem inv_beginRun {s : State} (h : s.Inv) {p : Pend} (hp : s.pend = some p) (hq : s.PendOk { p with phase := .run, idx := 0 }) :
    s.beginRun.Inv := by
  refine inv_setPend h _ ?_
  intro q hq'
  rw [hp] at hq'
  simp at hq'
  subst hq'
  exact hq

/-- The host, the order of the steps and the draws are not in the invariant. -/
theorem State.Inv.host {s : State} (h : s.Inv) (ho : HostAgent) (sc : List Agent) (d : Nat) : ({ s with host := ho, sched := sc,
                                                                                                        draws := d } : State).Inv :=
  ⟨h.params, h.counts, h.store, h.table, h.tree, h.codes, h.enc, h.dec, h.encPending, h.decPending, h.fifos, h.error, h.pend⟩

theorem inv_access {s : State} (h : s.Inv) {e : ErrorKind} (info : BitVec 10) (he : e ≠ .emptyAlphabet) :
    (s.raiseAccess e info).Inv :=
  ⟨h.params, h.counts, h.store, h.table, h.tree, h.codes, h.enc, h.dec, h.encPending, h.decPending, h.fifos,
      recordable _ _ he h.error, h.pend⟩

end Sys2Proof.Machine
end

