-- ==== Sys2Proof/Laws/PerInstr.lean ====
section
/-! SUPPORT. The family `EncodeRow`, one lemma a command: the word of a well-formed command is in its own row of rule R104, and shows the
command's opcode and operand fields. -/

namespace Sys2Proof.Laws.EncodeRow

/-- The word of the command is in its row of rule R104, and its `OP` and `OPND` are the command's (rules R101, R102, R104). -/
def Statement (i : Instr) : Prop :=
  i.WellFormed → encode i &&& i.rowMask = i.rowMatch ∧ (i.rowMask, i.rowMatch) ∈ opcodeRows ∧
    opField (encode i) = i.opcode ∧ opndField (encode i) = i.opnd

theorem nop : Statement .nop := fun _ =>
  ⟨(matches_plain _ _).2 ⟨auxField_encode _, rsvField_encode _, opndField_encode _, opField_encode _⟩,
    by simp [opcodeRows, Instr.rowMask, Instr.rowMatch, Instr.opcode], opField_encode _, opndField_encode _⟩

theorem freqClear : Statement .freqClear := fun _ =>
  ⟨(matches_plain _ _).2 ⟨auxField_encode _, rsvField_encode _, opndField_encode _, opField_encode _⟩,
    by simp [opcodeRows, Instr.rowMask, Instr.rowMatch, Instr.opcode], opField_encode _, opndField_encode _⟩

theorem freqInc (s : Nat) : Statement (.freqInc s) := fun _ =>
  ⟨(matches_operand _ _).2 ⟨auxField_encode _, rsvField_encode _, opField_encode _⟩,
    by simp [opcodeRows, Instr.rowMask, Instr.rowMatch, Instr.opcode], opField_encode _, opndField_encode _⟩

theorem freqWrite (s : Nat) : Statement (.freqWrite s) := fun _ =>
  ⟨(matches_operand _ _).2 ⟨auxField_encode _, rsvField_encode _, opField_encode _⟩,
    by simp [opcodeRows, Instr.rowMask, Instr.rowMatch, Instr.opcode], opField_encode _, opndField_encode _⟩

theorem freqRead (s : Nat) : Statement (.freqRead s) := fun _ =>
  ⟨(matches_operand _ _).2 ⟨auxField_encode _, rsvField_encode _, opField_encode _⟩,
    by simp [opcodeRows, Instr.rowMask, Instr.rowMatch, Instr.opcode], opField_encode _, opndField_encode _⟩

theorem treeBuild : Statement .treeBuild := fun _ =>
  ⟨(matches_plain _ _).2 ⟨auxField_encode _, rsvField_encode _, opndField_encode _, opField_encode _⟩,
    by simp [opcodeRows, Instr.rowMask, Instr.rowMatch, Instr.opcode], opField_encode _, opndField_encode _⟩

theorem nodeRead (k : Nat) : Statement (.nodeRead k) := fun _ =>
  ⟨(matches_operand _ _).2 ⟨auxField_encode _, rsvField_encode _, opField_encode _⟩,
    by simp [opcodeRows, Instr.rowMask, Instr.rowMatch, Instr.opcode], opField_encode _, opndField_encode _⟩

theorem codeBuild : Statement .codeBuild := fun _ =>
  ⟨(matches_plain _ _).2 ⟨auxField_encode _, rsvField_encode _, opndField_encode _, opField_encode _⟩,
    by simp [opcodeRows, Instr.rowMask, Instr.rowMatch, Instr.opcode], opField_encode _, opndField_encode _⟩

theorem codeRead (s : Nat) (w : Nat) : Statement (.codeRead s w) := fun _ =>
  ⟨(matches_codeRead _ _).2 ⟨by rw [auxField_encode]; exact auxHigh_append _ _, rsvField_encode _, opField_encode _⟩,
    by simp [opcodeRows, Instr.rowMask, Instr.rowMatch, Instr.opcode], opField_encode _, opndField_encode _⟩

theorem encStart : Statement .encStart := fun _ =>
  ⟨(matches_plain _ _).2 ⟨auxField_encode _, rsvField_encode _, opndField_encode _, opField_encode _⟩,
    by simp [opcodeRows, Instr.rowMask, Instr.rowMatch, Instr.opcode], opField_encode _, opndField_encode _⟩

theorem encSym (s : Nat) : Statement (.encSym s) := fun _ =>
  ⟨(matches_operand _ _).2 ⟨auxField_encode _, rsvField_encode _, opField_encode _⟩,
    by simp [opcodeRows, Instr.rowMask, Instr.rowMatch, Instr.opcode], opField_encode _, opndField_encode _⟩

theorem encEof : Statement .encEof := fun _ =>
  ⟨(matches_plain _ _).2 ⟨auxField_encode _, rsvField_encode _, opndField_encode _, opField_encode _⟩,
    by simp [opcodeRows, Instr.rowMask, Instr.rowMatch, Instr.opcode], opField_encode _, opndField_encode _⟩

theorem decStart : Statement .decStart := fun _ =>
  ⟨(matches_plain _ _).2 ⟨auxField_encode _, rsvField_encode _, opndField_encode _, opField_encode _⟩,
    by simp [opcodeRows, Instr.rowMask, Instr.rowMatch, Instr.opcode], opField_encode _, opndField_encode _⟩

theorem decSym : Statement .decSym := fun _ =>
  ⟨(matches_plain _ _).2 ⟨auxField_encode _, rsvField_encode _, opndField_encode _, opField_encode _⟩,
    by simp [opcodeRows, Instr.rowMask, Instr.rowMatch, Instr.opcode], opField_encode _, opndField_encode _⟩

end Sys2Proof.Laws.EncodeRow
end

