-- ==== Sys2Proof/Laws/Turns.lean ====
section
/-! SUPPORT. Whose turn is next: what the order of the steps can do, said once. -/

namespace Sys2Proof.Machine.State

variable (s : State)

/-- Whether an agent has a step is told by the block and the host, not by the order. -/
@[simp] theorem hasStep_order (sc : List Agent) (d : Nat) (a : Agent) :
    ({ s with sched := sc, draws := d } : State).hasStep a = s.hasStep a := by cases a <;> rfl

@[simp] theorem hasStep_sched (sc : List Agent) (a : Agent) : ({ s with sched := sc } : State).hasStep a = s.hasStep a := by
  cases a <;> rfl

@[simp] theorem fromReady_order (sc : List Agent) (d : Nat) (l : List Agent) :
    ({ s with sched := sc, draws := d } : State).fromReady l = s.fromReady l := by simp [fromReady]

@[simp] theorem fromReady_sched (sc : List Agent) (l : List Agent) :
    ({ s with sched := sc } : State).fromReady l = s.fromReady l := by simp [fromReady]

@[simp] theorem fromReady_nil : s.fromReady [] = [] := rfl

theorem fromReady_cons (a : Agent) (l : List Agent) :
    s.fromReady (a :: l) = if s.hasStep a then a :: l else s.fromReady l := by
  cases h : s.hasStep a <;> simp [fromReady, h]

theorem hasStep_of_fromReady {l m : List Agent} {a : Agent} (h : s.fromReady l = a :: m) : s.hasStep a = true := by
  induction l with
  | nil => cases h
  | cons b l ih =>
    rw [fromReady_cons] at h
    split at h
    · next hb => cases h; exact hb
    · exact ih h

/-- An agent that has a step is not passed over. -/
theorem mem_fromReady {l : List Agent} {a : Agent} (ha : s.hasStep a = true) (hl : a ∈ l) : a ∈ s.fromReady l := by
  induction l with
  | nil => cases hl
  | cons b l ih =>
    rw [fromReady_cons]
    split
    · exact hl
    · next hb =>
      rcases List.mem_cons.1 hl with rfl | hl
      · exact absurd ha hb
      · exact ih hl

theorem length_fromReady_le (l : List Agent) : (s.fromReady l).length ≤ l.length := List.length_dropWhile_le _ l

theorem fromReady_ne_nil {l : List Agent} {a : Agent} (ha : s.hasStep a = true) (hl : a ∈ l) : s.fromReady l ≠ [] :=
  List.ne_nil_of_mem (s.mem_fromReady ha hl)

/-- Whoever is next has a step. -/
theorem hasStep_of_nextAgent {a : Agent} (h : s.nextAgent = some a) : s.hasStep a = true := by
  unfold nextAgent withTurns at h
  split at h
  · unfold drawnTurns at h
    simp only at h
    split at h
    · cases hf : s.fromReady [.host] with
      | nil => rw [hf] at h; cases h
      | cons b l => rw [hf] at h; cases h; exact s.hasStep_of_fromReady hf
    · next hf => cases h; exact s.hasStep_of_fromReady hf
  · next hf => cases h; exact s.hasStep_of_fromReady hf

/-- While the engine or the host has a step, somebody steps. -/
theorem nextAgent_of_ready (h : s.hasStep .engine = true ∨ s.hasStep .host = true) : ∃ a, s.nextAgent = some a := by
  unfold nextAgent withTurns
  split
  · unfold drawnTurns
    split
    · next hf =>
      rcases h with h | h
      · exact absurd hf (s.fromReady_ne_nil h (by simp))
      · exact ⟨.host, by simp [fromReady_cons, h]⟩
    · exact ⟨_, rfl⟩
  · exact ⟨_, rfl⟩

theorem withTurns_of_cons {a : Agent} {l : List Agent} (h : s.sched = a :: l) (ha : s.hasStep a = true) : s.withTurns = s := by
  have : s.fromReady s.sched = a :: l := by rw [h, fromReady_cons, if_pos ha]
  unfold withTurns
  rw [this]
  simp only
  rw [← h]

theorem nextAgent_of_cons {a : Agent} {l : List Agent} (h : s.sched = a :: l) (ha : s.hasStep a = true) : s.nextAgent = some a := by
  simp [nextAgent, s.withTurns_of_cons h ha, h]

theorem turnTaken_of_cons {a : Agent} {l : List Agent} (h : s.sched = a :: l) (ha : s.hasStep a = true) :
    s.turnTaken = { s with sched := l } := by
  simp [turnTaken, s.withTurns_of_cons h ha, h]

/-- The turn of an agent that has no step is passed over. -/
theorem withTurns_of_skip {a : Agent} {l : List Agent} (h : s.sched = a :: l) (ha : s.hasStep a = false) :
    s.withTurns = ({ s with sched := l } : State).withTurns := by
  have h1 : s.fromReady s.sched = s.fromReady l := by rw [h, fromReady_cons, if_neg (by simp [ha])]
  unfold withTurns drawnTurns
  simp only [h1, fromReady_sched]

end Sys2Proof.Machine.State
end

