-- ==== Sys2Proof/Laws/Progress.lean ====
section
/-! SUPPORT. Runs of the machine, and what a step of each agent leaves alone: what claims about progress rest on. -/

namespace Sys2Proof.Machine

/-! ### Runs -/

theorem runFrom_succ {s t : State} (h : step s = .next t) (k : Nat) : runFrom (k + 1) s = runFrom k t := by simp [runFrom, h]

theorem runFrom_stops {s : State} (h : s.Stops) (k : Nat) : runFrom k s = s := by
  cases k with
  | zero => rfl
  | succ k =>
    unfold runFrom
    split
    · next t ht => exact absurd ht (h t)
    · rfl
    · rfl

theorem runFrom_add (a b : Nat) (s : State) : runFrom (a + b) s = runFrom b (runFrom a s) := by
  induction a generalizing s with
  | zero => simp [runFrom]
  | succ a ih =>
    by_cases h : ∃ t, step s = .next t
    · obtain ⟨t, ht⟩ := h
      rw [show a + 1 + b = (a + b) + 1 by omega, runFrom_succ ht, runFrom_succ ht, ih]
    · have hs : s.Stops := fun t ht => h ⟨t, ht⟩
      rw [runFrom_stops hs, runFrom_stops hs, runFrom_stops hs]

/-! ### What one step does -/

/-- A step, told by who takes it. -/
theorem step_of_nextAgent {s : State} {a : Agent} (h : s.nextAgent = some a) : step s = agentStep a s.turnTaken := by
  simp [step, h]

/-- What a host step leaves alone: the order, the parameters, the program, the tree and the codes; and the pending command, where there
is one. -/
structure HostFrame (s t : State) : Prop where
  sched : t.sched = s.sched
  params : t.params = s.params
  prog : t.host.prog = s.host.prog
  codes : t.codes = s.codes
  cursor : t.cursor = s.cursor
  pend : s.busy = true → t.pend = s.pend

theorem HostFrame.refl (s : State) : HostFrame s s := ⟨rfl, rfl, rfl, rfl, rfl, fun _ => rfl⟩

theorem readAt_hostFrame (off : Nat) (s : State) : HostFrame s (s.readAt off).2 := by
  unfold State.readAt
  split
  · next r _ =>
    unfold State.readReg
    split
    · exact ⟨rfl, rfl, rfl, rfl, rfl, fun _ => rfl⟩
    · cases r <;> exact ⟨rfl, rfl, rfl, rfl, rfl, fun _ => rfl⟩
  · exact .refl s

theorem pushIn_hostFrame (b : Byte) (s : State) : HostFrame s (s.pushIn b) := by
  unfold State.pushIn
  split <;> exact ⟨rfl, rfl, rfl, rfl, rfl, fun _ => rfl⟩

theorem writeAt_hostFrame (off : Nat) (v : Word) (s : State) : HostFrame s (s.writeAt off v) := by
  unfold State.writeAt
  split
  · next r _ =>
    unfold State.writeReg
    split
    · exact ⟨rfl, rfl, rfl, rfl, rfl, fun _ => rfl⟩
    · next hl =>
      cases r with
      | cmd => exact ⟨rfl, rfl, rfl, rfl, rfl, fun hb => absurd ⟨hb, rfl⟩ hl⟩
      | inData => exact pushIn_hostFrame _ s
      | _ => exact ⟨rfl, rfl, rfl, rfl, rfl, fun _ => rfl⟩
  · exact .refl s

theorem testValue_hostFrame (s : State) : HostFrame s s.testValue.2 := by
  unfold State.testValue
  split
  · exact .refl s
  · exact ⟨rfl, rfl, rfl, rfl, rfl, fun _ => rfl⟩

theorem HostFrame.toHost {s t : State} (h : HostFrame s t) (ho : HostAgent) (hp : ho.prog = t.host.prog) :
    HostFrame s { t with host := ho } :=
  ⟨h.sched, h.params, hp.trans h.prog, h.codes, h.cursor, h.pend⟩

theorem hostJump_hostFrame {s t u : State} {l : Nat} (h : HostFrame s t) (hj : hostJump l t = .next u) : HostFrame s u := by
  unfold hostJump at hj
  split at hj <;> cases hj
  exact h.toHost _ rfl

theorem hostStep_frame {s t : State} (h : hostStep s = .next t) : HostFrame s t := by
  unfold hostStep at h
  split at h
  · next st _ =>
    cases hop : st.op with
    | rd addr bytes =>
      rw [hop] at h
      simp only [hostDo, hostRead] at h
      split at h <;> cases h
      exact (readAt_hostFrame _ s).toHost _ rfl
    | wr addr bytes v =>
      rw [hop] at h
      simp only [hostDo, hostWrite] at h
      split at h <;> cases h
      exact (writeAt_hostFrame _ v s).toHost _ rfl
    | beq m w l =>
      rw [hop] at h
      simp only [hostDo] at h
      split at h
      · exact hostJump_hostFrame (testValue_hostFrame s) h
      · cases h
        exact (testValue_hostFrame s).toHost _ rfl
    | bne m w l =>
      rw [hop] at h
      simp only [hostDo] at h
      split at h
      · exact hostJump_hostFrame (testValue_hostFrame s) h
      · cases h
        exact (testValue_hostFrame s).toHost _ rfl
  · cases h
    exact .refl s

/-- A host step while busy leaves the bound on the command's steps as it is. -/
theorem HostFrame.stepsLeft {s t : State} (h : HostFrame s t) (hb : s.busy = true) : t.stepsLeft = s.stepsLeft := by
  unfold State.stepsLeft
  rw [h.pend hb]
  simp only [State.code, h.codes, h.cursor]

/-- What an engine step leaves alone. -/
theorem engineStep_frame {s t : State} (h : engineStep s = .next t) :
    t.sched = s.sched ∧ t.draws = s.draws ∧ t.host = s.host ∧ t.params = s.params := by
  unfold engineStep at h
  split at h
  · cases h; exact ⟨rfl, rfl, rfl, rfl⟩
  · split at h
    · cases h; simp
    · next i _ =>
      cases i <;> simp only [exec, execNop, execFreqClear, execFreqInc, execFreqWrite, execFreqRead, execTreeBuild, execNodeRead,
        execCodeBuild, execCodeRead, execEncStart, execDecStart, execEncSym, execEncEof, execDecSym, encSymValidate,
        encEofValidate, decSymValidate] at h
      all_goals (repeat' split at h)
      all_goals cases h
      all_goals first
        | exact ⟨rfl, rfl, rfl, rfl⟩
        | (rw [encSymRun_frame]; exact ⟨rfl, rfl, rfl, rfl⟩)
        | (rw [encEofRun_frame]; exact ⟨rfl, rfl, rfl, rfl⟩)
        | (rw [encEofPad_frame]; exact ⟨rfl, rfl, rfl, rfl⟩)
        | (rw [walkStep_frame]; exact ⟨rfl, rfl, rfl, rfl⟩)

end Sys2Proof.Machine
end

