-- ==== Sys2Proof/Tests/Slice0.lean ====
section
/-! SUPPORT. The model's own tests: the smoke test of `WellFormed`, the command words of rule R104 written out, the vectors of
95_test_vectors.md (one step each), and for each statement with hypotheses a state and operands that meet them. -/

namespace Sys2Proof.Machine.Tests

/-! ### States -/

/-- `S_ab` of 95_test_vectors.md: the table, the tree and the codes of its section 1.1, written out from there. -/
def sAb : State :=
  { State.reset with
    count := [(0x0A, 1), (0x61, 1), (0x62, 1)]
    nodes :=
      [{ sym := 0x0A, weight := 1, zero := 0x3FF, one := 0x3FF }, { sym := 0x61, weight := 1, zero := 0x3FF, one := 0x3FF },
       { sym := 0x62, weight := 1, zero := 0x3FF, one := 0x3FF }, { sym := 0x100, weight := 1, zero := 0x3FF, one := 0x3FF },
       { sym := 0x101, weight := 2, zero := 0, one := 1 }, { sym := 0x101, weight := 2, zero := 2, one := 3 },
       { sym := 0x101, weight := 4, zero := 4, one := 5 }]
    nodeCount := 7
    root := 6
    cursor := 6
    treeValid := true
    codes := [(0x0A, [false, false]), (0x61, [false, true]), (0x62, [true, false]), (0x100, [true, true])]
    codeValid := true
    totalBits := 8 }

/-- The tree of the empty table (rule R153), valid, with the decoder started on it. -/
def sEmpty : State :=
  { State.reset with
    nodes := [{ sym := 0x100, weight := 1, zero := 0x3FF, one := 0x3FF }, { sym := 0x101, weight := 1, zero := 0, one := 0x3FF }]
    nodeCount := 2
    root := 1
    cursor := 1
    treeValid := true
    decState := .active }

/-- `s` with the word of `i` pending in the phase and at the bit index given. -/
def pending (i : Instr) (phase : Phase) (idx : Nat) (s : State) : State := { s with pend := some ⟨encode i, phase, idx⟩ }

/-- `S_ab` after `ENC_START`. -/
def sEnc : State := { sAb with encState := .active }

/-- `S_ab` after `DEC_START`. -/
def sDec : State := { sAb with decState := .active }

/-- An output FIFO of one byte, full, and seven bits pending. -/
def sFull : State :=
  { sEnc with params := { sEnc.params with outDepth := 1 }, outFifo := [0x61], encN := 7, encAcc := 0x43 }

/-- A host whose one statement is `op`, whose turn it is. -/
def hostAt (op : HostOp) (s : State) : State :=
  { s with host := { s.host with prog := [{ labels := [5], op := op }], next := 0 }, sched := [.host] }

/-- The state an outcome gives; `Option`, so that a stop is seen. -/
def after : Outcome → Option State
  | .next t => some t
  | .fault _ => none
  | .refused _ => none

/-- What a test looks at after a command's step from the state in which it has just been issued. -/
def run1 (i : Instr) (s : State) : Option State := after (engineStep (s.issue (encode i)))

/-- `ERROR` after it. -/
def err1 (i : Instr) (s : State) : Option Word := (run1 i s).map (fun t => t.regValue .error)

/-- `STATUS` after it. -/
def stat1 (i : Instr) (s : State) : Option Word := (run1 i s).map State.status

/-! ### The smoke test of `WellFormed` (rules R102, R103) -/

theorem test_ill_formed_refused :
    ¬ (Instr.freqInc 1024).WellFormed ∧ ¬ (Instr.freqWrite 1024).WellFormed ∧ ¬ (Instr.freqRead 1024).WellFormed ∧
    ¬ (Instr.nodeRead 1024).WellFormed ∧ ¬ (Instr.codeRead 1024 0).WellFormed ∧ ¬ (Instr.codeRead 0 8).WellFormed ∧
    ¬ (Instr.encSym 1024).WellFormed := by decide

theorem test_well_formed_boundaries :
    (Instr.freqInc 1023).WellFormed ∧ (Instr.freqWrite 1023).WellFormed ∧ (Instr.freqRead 1023).WellFormed ∧
    (Instr.nodeRead 1023).WellFormed ∧ (Instr.codeRead 1023 7).WellFormed ∧ (Instr.encSym 1023).WellFormed ∧
    Instr.nop.WellFormed ∧ Instr.decSym.WellFormed := by decide

/-! ### Decoding: every row, from words written out bit by bit as `AUX`, `RSV`, `OPND`, `OP` (rules R101, R104) -/

theorem test_decode_control : decode (0b00000000#8 ++ 0b000000#6 ++ 0b0000000000#10 ++ 0b00000000#8) = .ok .nop := by decide

theorem test_decode_frequency :
    decode (0b00000000#8 ++ 0b000000#6 ++ 0b0000000000#10 ++ 0b00000001#8) = .ok .freqClear ∧
    decode (0b00000000#8 ++ 0b000000#6 ++ 0b0001100001#10 ++ 0b00000010#8) = .ok (.freqInc 0x61) ∧
    decode (0b00000000#8 ++ 0b000000#6 ++ 0b0100000000#10 ++ 0b00000011#8) = .ok (.freqWrite 256) ∧
    decode (0b00000000#8 ++ 0b000000#6 ++ 0b1111111111#10 ++ 0b00000100#8) = .ok (.freqRead 0x3FF) := by decide

theorem test_decode_tree :
    decode (0b00000000#8 ++ 0b000000#6 ++ 0b0000000000#10 ++ 0b00001000#8) = .ok .treeBuild ∧
    decode (0b00000000#8 ++ 0b000000#6 ++ 0b0000000110#10 ++ 0b00001001#8) = .ok (.nodeRead 6) := by decide

theorem test_decode_code_table :
    decode (0b00000000#8 ++ 0b000000#6 ++ 0b0000000000#10 ++ 0b00001100#8) = .ok .codeBuild ∧
    decode (0b00000101#8 ++ 0b000000#6 ++ 0b0001100010#10 ++ 0b00001101#8) = .ok (.codeRead 0x62 5) := by decide

theorem test_decode_encoder :
    decode (0b00000000#8 ++ 0b000000#6 ++ 0b0000000000#10 ++ 0b00010000#8) = .ok .encStart ∧
    decode (0b00000000#8 ++ 0b000000#6 ++ 0b0000001010#10 ++ 0b00010001#8) = .ok (.encSym 0x0A) ∧
    decode (0b00000000#8 ++ 0b000000#6 ++ 0b0000000000#10 ++ 0b00010010#8) = .ok .encEof := by decide

theorem test_decode_decoder :
    decode (0b00000000#8 ++ 0b000000#6 ++ 0b0000000000#10 ++ 0b00011000#8) = .ok .decStart ∧
    decode (0b00000000#8 ++ 0b000000#6 ++ 0b0000000000#10 ++ 0b00011001#8) = .ok .decSym := by decide

/-- 95_test_vectors.md section 2.2. -/
theorem test_decode_illegal :
    decode 0x00000005 = .error .unassignedOp ∧ decode 0x00000013 = .error .unassignedOp ∧
    decode 0x00040002 = .error .reservedSet ∧ decode 0x00000101 = .error .operandSet ∧
    decode 0x01000002 = .error .auxSet ∧ decode 0x0800000D = .error .auxSet ∧
    decode 0x01000000 = .error .auxSet ∧ decode 0xFFFFFFFF = .error .unassignedOp := by decide

/-- 95_test_vectors.md section 2.2: `ERROR` and `STATUS` after an illegal word. -/
theorem test_illegal_word :
    (after (engineStep (State.reset.issue 0x00000101))).map (fun t => (t.regValue .error, t.status)) =
      some (0x00010110, 0x00000002) ∧
    (after (engineStep (State.reset.issue 0xFFFFFFFF))).map (fun t => (t.regValue .error, t.status)) =
      some (0x03FFFF10, 0x00000002) := by decide

/-! ### Frequency commands (95_test_vectors.md section 2.3) -/

theorem test_freq_clear :
    (run1 .freqClear sAb).map (fun t => (t.countAt 0x61, t.countAt 256, t.status)) = some (0, 1, 0) := by decide

theorem test_freq_inc : (run1 (.freqInc 0x61) sAb).map (fun t => (t.countAt 0x61, t.countAt 0x62, t.status)) = some (2, 1, 0) := by
  decide

theorem test_freq_inc_overflow :
    err1 (.freqInc 0x41) { State.reset with params := { Params.default with countBits := 2 }, count := [(0x41, 3)] } =
      some 0x00410216 ∧ err1 (.freqInc 256) State.reset = some 0x01000214 := by decide

theorem test_freq_write :
    (run1 (.freqWrite 0x41) { State.reset with params := { Params.default with countBits := 4 }, dataLo := 15 }).map
      (fun t => (t.countAt 0x41, t.regValue .error)) = some (15, 0) ∧
    (run1 (.freqWrite 0x61) sAb).map (fun t => (t.countAt 0x61, t.count.length, t.status)) = some (0, 2, 0) := by decide

theorem test_freq_write_errors :
    err1 (.freqWrite 256) { State.reset with dataLo := 2 } = some 0x01000304 ∧
    err1 (.freqWrite 257) { State.reset with dataLo := 1 } = some 0x01010314 ∧
    err1 (.freqWrite 0x41) { State.reset with params := { Params.default with countBits := 4 }, dataLo := 16 } =
      some 0x00410316 := by decide

theorem test_freq_read :
    (run1 (.freqRead 0x62) { sAb with dataHi := 9 }).map (fun t => (t.dataLo, t.dataHi, t.status)) = some (1, 0, 0x0C) ∧
    (run1 (.freqRead 256) State.reset).map (fun t => t.dataLo) = some 1 ∧
    err1 (.freqRead 0x3FF) State.reset = some 0x03FF0414 := by decide

/-! ### Tree commands (95_test_vectors.md section 2.4) -/

/-- The table of "abracadabra". -/
theorem test_tree_abracadabra :
    (run1 .treeBuild { State.reset with count := [(0x61, 5), (0x62, 2), (0x63, 1), (0x64, 1), (0x72, 2)] }).map
      (fun t => (t.regValue .treeInfo, (t.nodes.drop 6).map (fun n => (n.zero, n.one, n.weight)), t.cursor)) =
      some (0x000B000A, [(2, 3, 2), (5, 1, 3), (4, 6, 4), (7, 8, 7), (0, 9, 12)], 10) := by decide +kernel

/-- The `{'a':2, 'b':1}` row (the tie-break at work), and what `TREE_BUILD` does to valid codes. -/
theorem test_tree_tie :
    (run1 .treeBuild { sAb with count := [(0x61, 2), (0x62, 1)] }).map
      (fun t => ((t.nodes.take 5).drop 3, t.root, t.nodes.length, t.status)) =
      some ([{ sym := 0x101, weight := 2, zero := 1, one := 2 }, { sym := 0x101, weight := 4, zero := 0, one := 3 }], 4, 7, 4) := by
  decide +kernel

theorem test_node_read :
    (run1 (.nodeRead 6) sAb).map (fun t => (t.result, t.link, t.dataLo, t.dataHi)) = some (0x101, 0x00050004, 4, 0) ∧
    (run1 (.nodeRead 1) sAb).map (fun t => (t.result, t.link, t.dataLo, t.dataHi)) = some (0x80000061, 0x03FF03FF, 1, 0) := by
  decide

theorem test_node_read_errors :
    err1 (.nodeRead 0) State.reset = some 0x00000912 ∧ err1 (.nodeRead 7) sAb = some 0x00070915 := by decide

/-! ### Code-table commands (95_test_vectors.md section 2.5) -/

theorem test_code_build :
    (run1 .codeBuild { sEnc with codes := [], codeValid := false, totalBits := 0 }).map
      (fun t => (t.codes, t.totalBits, t.status)) = some (sAb.codes, 8, 0x0C) ∧
    err1 .codeBuild State.reset = some 0x00000C12 := by decide +kernel

/-- The code of symbol 0 in the Fibonacci table: 45 ones and a zero. -/
theorem test_code_read :
    (run1 (.codeRead 0x61 0) sAb).map (fun t => (t.result, t.dataLo)) = some (2, 0x40000000) ∧
    (run1 (.codeRead 0 1) { sAb with codes := [(0, List.replicate 45 true ++ [false])] }).map (fun t => (t.result, t.dataLo)) =
      some (46, 0xFFF80000) := by decide +kernel

theorem test_code_read_errors :
    err1 (.codeRead 0x61 0) State.reset = some 0x00610D13 ∧ err1 (.codeRead 257 0) sAb = some 0x01010D14 := by decide

/-! ### Encoder commands (95_test_vectors.md section 2.6) -/

theorem test_enc_start :
    err1 .encStart State.reset = some 0x00001013 ∧
    (run1 .encStart { sAb with encN := 2, encAcc := 1, encBits := 2 }).map (fun t => (t.status, t.regValue .encPos, t.encBits)) =
      some (0x1C, 0, 0) := by decide

theorem test_enc_sym_errors :
    err1 (.encSym 0x61) sAb = some 0x00611111 ∧ err1 (.encSym 256) sEnc = some 0x01001114 ∧
    (run1 (.encSym 0x63) sEnc).map (fun t => (t.regValue .error, t.status)) = some (0x00631102, 0x3E) := by decide

/-- The last bit of the eighth: after `'r'` the trace of "abracadabra" shows `0x72E`, and the code bit 0 completes the byte `0x5C`. -/
theorem test_enc_sym_byte :
    (after (engineStep (pending (.encSym 0x61) .run 0
      { sEnc with codes := [(0x61, [false])], encN := 7, encAcc := 0x2E, encBits := 7 }))).map
      (fun t => (t.outFifo, t.regValue .encPos, t.encBits, t.busy)) = some ([0x5C], 0, 8, false) := by decide

/-- `ENC_EOF` held on a full FIFO: `STATUS` and `ENC_POS` of the depth 1 vector; and its padding step, the byte `0xC0`. -/
theorem test_enc_eof :
    (after (engineStep (pending .encEof .run 1 sFull))).map (fun t => (t.status, t.regValue .encPos)) = some (0x11D, 0x743) ∧
    (after (engineStep (pending .encEof .pad 2 { sEnc with encN := 2, encAcc := 3, encBits := 2 }))).map
      (fun t => (t.outFifo, t.encBits, t.status)) = some ([0xC0], 2, 0x2C) := by decide

/-! ### Decoder commands (95_test_vectors.md section 2.7) -/

theorem test_dec_start :
    (run1 .decStart sAb).map (fun t => (t.regValue .decPos, t.status)) = some (6, 0x4C) ∧
    err1 .decStart State.reset = some 0x00001812 := by decide

/-- The second bit of `0x63`: the leaf of `'a'`; and `INVALID_PATH` on the one-leaf tree. -/
theorem test_dec_sym :
    (after (engineStep (pending .decSym .run 0 { sDec with decShift := 0xC6, decAvail := 7, decBits := 1, cursor := 4 }))).map
      (fun t => (t.result, t.regValue .decPos, t.decBits, t.status)) = some (0x61, 0x8C060006, 2, 0x4C) ∧
    (after (engineStep (pending .decSym .run 0 { sEmpty with inFifo := [0x80], inEnd := true }))).map
      (fun t => (t.regValue .error, t.status, t.regValue .decPos, t.decBits)) = some (0x00011917, 0xC6, 0x00070001, 1) := by decide

/-- Held for input; and truncated where the host has said that no more comes. -/
theorem test_dec_sym_no_input :
    (after (engineStep (pending .decSym .run 0 sDec))).map (fun t => (t.status, t.regValue .decPos)) = some (0x24D, 6) ∧
    (after (engineStep (pending .decSym .run 0 { sDec with inEnd := true }))).map (fun t => (t.regValue .error, t.status)) =
      some (0x00061903, 0xCE) := by decide

/-! ### Host accesses and control (95_test_vectors.md section 2.8) -/

theorem test_reads_at_reset :
    [Reg.id, .param0, .param1, .outData, .status].map (fun r => (State.reset.readReg r).1) =
      [0x48554631, 0x00100010, 0x01000020, 0, 0] ∧ State.reset.readAt 0x80 = (0, State.reset) := by decide

theorem test_nop : run1 .nop sAb = some sAb := by decide

theorem test_busy_write :
    ((sAb.issue (encode .nop)).writeReg .cmd (encode .freqClear)).regValue .error = 0x000CFF18 ∧
    ((sAb.issue (encode .nop)).writeReg .cmd (encode .freqClear)).status = 0x0F ∧
    ((State.reset.issue 0).writeReg .error 0).regValue .error = 0x0020FF18 := by decide

theorem test_in_overflow :
    (State.reset.pushIn 0x30).regValue .fifoLevel = 0x00010000 ∧
    ({ State.reset with inFifo := List.replicate 16 0x30 } : State).pushIn 0x40 =
      { State.reset with inFifo := List.replicate 16 0x30, error := { code := 0x19, src := 0xFF, info := 0x40, multi := false } } := by
  decide

theorem test_out_data_pops :
    ({ sAb with outFifo := [0x61, 0x87] } : State).readReg .outData = (0x161, { sAb with outFifo := [0x87] }) := by decide

/-! ### States of the invariant -/

/-- The parts of the invariant that do not concern the pending command, as one condition that evaluates. -/
abbrev InvData (s : State) : Prop :=
  s.params.Wf ∧ (Table.Wf 0 Config.nReal s.count ∧ ∀ e ∈ s.count, e.2.toNat ≤ s.maxCount) ∧ s.nodes.length ≤ Config.maxNodes ∧
    (Table.Wf [] (Config.eofSymbol + 1) s.codes ∧ ∀ e ∈ s.codes, e.2.length ≤ Config.maxCodeLen) ∧
    (s.treeValid = true → s.TreeCurrent) ∧ (s.codeValid = true → s.treeValid = true ∧ s.CodesCurrent) ∧
    (s.encState = .active → s.codeValid = true) ∧ (s.decState = .active → s.treeValid = true ∧ s.CursorInternal) ∧
    (s.encN.toNat ≤ 7 ∧ s.encAcc.toNat < 2 ^ s.encN.toNat) ∧
    (s.decAvail.toNat ≤ 8 ∧ 2 ^ (8 - s.decAvail.toNat) ∣ s.decShift.toNat) ∧
    (s.outFifo.length ≤ s.params.outDepth ∧ s.inFifo.length ≤ s.params.inDepth) ∧
    s.error.code ∈ recordableCodes ∧ (s.error.code = 0 → s.error = .clear)

theorem inv_of_data {s : State} (h : InvData s) (hp : ∀ p, s.pend = some p → s.PendOk p) : s.Inv :=
  let ⟨a, b, c, d, e, f, g, i, j, k, l, m⟩ := h
  ⟨a, b, c, d, e, f, g, i, j, k, l, m, hp⟩

theorem inv_sAb : sAb.Inv := inv_of_data (by decide +kernel) (fun _ h => by cases h)

theorem inv_sEnc : sEnc.Inv := inv_of_data (by decide +kernel) (fun _ h => by cases h)

/-- `S_ab` with the decoder active and the bytes given waiting. -/
def sDecWith (bytes : List Byte) : State := { sDec with inFifo := bytes }

theorem inv_sDecWith : (sDecWith [0x63]).Inv ∧ (sDecWith []).Inv ∧ (sDecWith [0xC0]).Inv :=
  ⟨inv_of_data (by decide +kernel) (fun _ h => by cases h), inv_of_data (by decide +kernel) (fun _ h => by cases h),
    inv_of_data (by decide +kernel) (fun _ h => by cases h)⟩

theorem inv_sFull : sFull.Inv := inv_of_data (by decide +kernel) (fun _ h => by cases h)

/-- `ENC_EOF` in its last run step, held. -/
def sEofHeld : State := pending .encEof .run 1 sFull

theorem inv_sEofHeld : sEofHeld.Inv :=
  inv_of_data (by decide +kernel) (fun _ h => by cases h; exact ⟨rfl, by decide⟩)

/-- `DEC_SYM` at the root, with no input. -/
def sDecHeld : State := pending .decSym .run 0 sDec

theorem inv_sDecHeld : sDecHeld.Inv := inv_of_data (by decide +kernel) (fun _ h => by cases h; exact rfl)

/-- `DEC_SYM` at the root, with a byte to read. -/
def sDecRun : State := pending .decSym .run 0 (sDecWith [0x63])

theorem inv_sDecRun : sDecRun.Inv := inv_of_data (by decide +kernel) (fun _ h => by cases h; exact rfl)

/-- `ENC_SYM 'a'` before its first bit. -/
def sSymRun : State := pending (.encSym 0x61) .run 0 sEnc

theorem inv_sSymRun : sSymRun.Inv :=
  inv_of_data (by decide +kernel) (fun _ h => by cases h; exact ⟨rfl, by decide, by decide⟩)

/-- `ENC_EOF` in its padding step, and the same with the FIFO full. -/
def sPad : State := pending .encEof .pad 2 { sEnc with encN := 2, encAcc := 3 }

def sPadHeld : State := pending .encEof .pad 2 sFull

theorem inv_sPad : sPad.Inv ∧ sPadHeld.Inv :=
  ⟨inv_of_data (by decide +kernel) (fun _ h => by cases h; exact ⟨rfl, rfl, by decide⟩),
    inv_of_data (by decide +kernel) (fun _ h => by cases h; exact ⟨rfl, rfl, by decide⟩)⟩

/-- An illegal word pending. -/
theorem inv_illegal : (sAb.issue 0x00000005).Inv := inv_of_data (by decide +kernel) (fun _ h => by cases h; exact rfl)

/-! ### Witnesses: a state and operands that meet the hypotheses of each statement -/

theorem witness_DecodeOfEncode : (Instr.codeRead 1023 7).WellFormed ∧ (Instr.nodeRead 1023).WellFormed ∧ Instr.nop.WellFormed := by
  decide

theorem witness_DecodedWordIsItsEncoding : decode 0x0703FF0D = .ok (.codeRead 1023 7) ∧ decode 0 = .ok .nop := by decide

theorem witness_LegalWordMatchesOneRow : decode 0x0003FF11 = .ok (.encSym 1023) ∧ decode 0xFFFFFFFF = .error .unassignedOp := by
  decide

/-- `StepRunsTheDecodedCommand`: the engine's turn with a command pending, the host's, the reset's, the turns of a held engine, an idle
engine and an ended host, and an order that has run out. -/
theorem witness_StepRunsTheDecodedCommand :
    ((State.reset.withFetchWord 32 0x6102).sched = [.engine] ∧
      (State.reset.withFetchWord 32 0x6102).pend = some ⟨0x6102, .validate, 0⟩ ∧ decode 0x6102 = .ok (.freqInc 0x61) ∧
      (State.reset.withFetchWord 32 0x6102).waitOut = false ∧ (State.reset.withFetchWord 32 0x6102).waitIn = false) ∧
    ((hostAt (.rd 0x08 4) sAb).sched = [.host] ∧ (hostAt (.rd 0x08 4) sAb).hostStmt ≠ none) ∧
    (let s := { sDecHeld with sched := [.engine, .host] }
     s.sched = [.engine, .host] ∧ s.waitIn = true ∧ s.hostStmt = none) ∧
    (({ sAb with sched := [.engine] } : State).busy = false ∧ ({ sAb with sched := [.host] } : State).hostStmt = none) ∧ ({ sDecHeld with sched := [.reset, .host] } : State).sched = [.reset, .host] ∧
    sDecHeld.sched = [] := by decide

theorem witness_IllegalWordRaisesOnly :
    (State.reset.issue 0x0100000E).pend = some ⟨0x0100000E, .validate, 0⟩ ∧ decode 0x0100000E = .error .unassignedOp ∧
    decode 0x08000001 = .error .auxSet ∧ decode 0x00FC0001 = .error .reservedSet ∧ decode 0x00010001 = .error .operandSet := by decide

theorem witness_CmdWriteIssues : State.reset.busy = false ∧ sDecHeld.busy = true := by decide

theorem witness_EngineNeverStops : State.reset.pend = none := by decide

theorem witness_HeldExactlyWhereWaitSays :
    (sEofHeld.Inv ∧ sEofHeld.busy = true ∧ sEofHeld.waitOut = true) ∧ (sPadHeld.Inv ∧ sPadHeld.waitOut = true) ∧
    (sDecHeld.Inv ∧ sDecHeld.busy = true ∧ sDecHeld.waitIn = true) ∧
    (sDecRun.Inv ∧ sDecRun.busy = true ∧ sDecRun.waitOut = false ∧ sDecRun.waitIn = false) ∧
    (sFull.Inv ∧ sFull.busy = false ∧ sFull.waitOut = false ∧ sFull.waitIn = false) ∧
    (sEofHeld.waitIn = false ∧ sDecHeld.waitOut = false ∧ sPad.waitOut = false ∧ sSymRun.waitOut = false ∧
      (pending (.encSym 0x61) .run 1 sFull).waitOut = true) :=
  ⟨⟨inv_sEofHeld, by decide, by decide⟩, ⟨inv_sPad.2, by decide⟩, ⟨inv_sDecHeld, by decide, by decide⟩,
    ⟨inv_sDecRun, by decide, by decide, by decide⟩, ⟨inv_sFull, by decide, by decide, by decide⟩, by decide⟩

/-- `NopOnlyCompletes`: words with `OP = 0x00` and one bit more, in `OPND`, in `RSV` and in `AUX`. -/
theorem witness_NopOnlyCompletes :
    (opField 0x00000100 = 0 ∧ (0x00000100 : Word) ≠ 0) ∧ (opField 0x00800000 = 0 ∧ (0x00800000 : Word) ≠ 0) ∧
    opField 0x80000000 = 0 ∧ (0x80000000 : Word) ≠ 0 := by decide

theorem witness_SingleStepCommandsComplete : streaming .nop = false ∧ streaming (.codeRead 256 7) = false ∧ streaming .decStart = false := by
  decide

/-- `COUNT_BITS = 1`: the count 1 is the largest. -/
theorem witness_FreqIncCountsOne :
    256 ≤ 256 ∧
    (255 < 256 ∧ (({ State.reset with params := { Params.default with countBits := 1 }, count := [(255, 1)] } : State).countAt 255).toNat =
      2 ^ 1 - 1) ∧
    (255 < 256 ∧ (sAb.countAt 255).toNat ≠ 2 ^ sAb.params.countBits - 1) ∧
    (({ State.reset with count := [(0, 0xFFFFFFFF)] } : State).countAt 0).toNat = 2 ^ State.reset.params.countBits - 1 := by decide

theorem witness_FreqWriteSetsTheCount :
    256 < 257 ∧ State.reset.dataLo ≠ 1 ∧ ({ State.reset with dataLo := 1 } : State).dataLo = 1 ∧
    (255 < 256 ∧ 2 ^ 4 ≤ ({ State.reset with dataLo := 16 } : State).dataLo.toNat) ∧
    (255 < 256 ∧ ({ State.reset with dataLo := 0xFFFFFFFF } : State).dataLo.toNat < 2 ^ State.reset.params.countBits) := by decide

theorem witness_FreqReadReadsTheCount : 256 < 257 ∧ 256 ≤ 256 := by decide

theorem witness_FrequencyConservation :
    (∀ k ∈ [0x61, 255, 0x61], k < 256) ∧ (∀ k, List.count k [0x61, 255, 0x61] < 2 ^ State.reset.params.countBits) ∧
    State.reset.params.countBits ≤ 32 :=
  ⟨by decide, fun _ => lt_of_le_of_lt List.count_le_length (by decide), by decide⟩

theorem witness_treeBuild (s : State) : ∃ t, exec .treeBuild s = .next t := ⟨_, rfl⟩

/-- `LeavesInSymbolOrder`, with one present symbol and with four; a leaf at the last index. -/
theorem witness_LeavesInSymbolOrder :
    (∃ t, exec .treeBuild sAb = .next t) ∧
    (List.range 257).filter (fun k => k = 256 ∨ sAb.countAt k ≠ 0) = [0x0A, 0x61, 0x62, 256] ∧ (3 : NodeIdx).toNat < 4 ∧
    (List.range 257).filter (fun k => k = 256 ∨ State.reset.countAt k ≠ 0) = [256] :=
  ⟨⟨_, rfl⟩, by decide +kernel, by decide, by decide +kernel⟩

/-- `InternalNodesJoinEarlierNodes`: the first and the last internal node of `S_ab`. -/
theorem witness_InternalNodesJoinEarlierNodes :
    (∃ t, exec .treeBuild sAb = .next t ∧ t.nodeCount = 7) ∧ (presentSymbols sAb.count).length = 4 ∧
    4 ≤ (4 : NodeIdx).toNat ∧ (6 : NodeIdx).toNat < (7 : BitVec 10).toNat :=
  ⟨⟨_, rfl, by decide +kernel⟩, by decide +kernel, by decide, by decide⟩

/-- `EachMergeTakesTheTwoFirst`: at the first merge of `S_ab`, node 4, the leaf 3 is neither child and no earlier merge took it; before
the last, node 6, come the merges 4 and 5. -/
theorem witness_EachMergeTakesTheTwoFirst :
    (∃ t, exec .treeBuild sAb = .next t ∧ (t.node 4).zero = 0 ∧ (t.node 4).one = 1 ∧ t.nodeCount = 7) ∧
    (presentSymbols sAb.count).length = 4 ∧ (3 : NodeIdx).toNat < (4 : NodeIdx).toNat ∧ (3 : NodeIdx) ≠ 0 ∧ (3 : NodeIdx) ≠ 1 ∧
    (∀ m' : NodeIdx, 4 ≤ m'.toNat → ¬ m'.toNat < 4) ∧ 4 ≤ (5 : NodeIdx).toNat ∧ (5 : NodeIdx).toNat < (6 : NodeIdx).toNat :=
  ⟨⟨_, rfl, by decide +kernel, by decide +kernel, by decide +kernel⟩, by decide +kernel, by decide, by decide, by decide,
    fun _ h => Nat.not_lt.2 h, by decide, by decide⟩

theorem witness_OneLeafTree : (∃ t, exec .treeBuild State.reset = .next t) ∧ ∀ k, k < 256 → State.reset.countAt k = 0 :=
  ⟨⟨_, rfl⟩, by decide +kernel⟩

/-- `LeafPathsAreUniqueAndPrefixFree`: the root path of `'a'` in `S_ab`, which its clauses are about. -/
theorem path_a : IsCodePath sAb.nodes sAb.root 0x61 [false, true] :=
  ⟨1, ⟨by decide, by decide, by decide, by decide, rfl⟩, by decide, by decide⟩

theorem path_eof : IsCodePath sAb.nodes sAb.root 256 [true, true] :=
  ⟨3, ⟨by decide, by decide, by decide, by decide, rfl⟩, by decide, by decide⟩

theorem witness_LeafPathsAreUniqueAndPrefixFree :
    ∃ t, exec .treeBuild { sAb with nodes := [] } = .next t ∧ t.nodes = sAb.nodes ∧ t.root = sAb.root ∧
      IsCodePath sAb.nodes sAb.root 0x61 [false, true] ∧ [false, true] <+: [false, true] :=
  ⟨_, rfl, by decide +kernel, by decide +kernel, path_a, List.prefix_refl _⟩

theorem witness_TreeDependsOnCountsOnly :
    (∀ k, k < 256 → sAb.countAt k = ({ State.reset with count := sAb.count } : State).countAt k) ∧
    (∃ t, exec .treeBuild sAb = .next t ∧ (6 : NodeIdx).toNat < t.nodeCount.toNat) ∧
    ∃ t', exec .treeBuild { State.reset with count := sAb.count } = .next t' :=
  ⟨fun _ _ => rfl, ⟨_, rfl, by decide +kernel⟩, ⟨_, rfl⟩⟩

/-- `BuiltTreeIsOptimal`: another tree over the four symbols, one of depth three. -/
theorem witness_BuiltTreeIsOptimal :
    2 ≤ (presentSymbols sAb.count).length ∧
    (∃ t u, exec .treeBuild sAb = .next t ∧ exec .codeBuild t = .next u) ∧
    ((PrefixTree.node (.leaf 256) (.node (.leaf 0x61) (.node (.leaf 0x62) (.leaf 0x0A)))).symbols).Perm (presentSymbols sAb.count) :=
  ⟨by decide +kernel, ⟨_, _, rfl, rfl⟩, by
    rw [show presentSymbols sAb.count = [0x0A, 0x61, 0x62, 256] by decide +kernel]
    decide⟩

theorem witness_NodeReadShowsTheRecord :
    State.reset.treeValid = false ∧ (sAb.treeValid = true ∧ sAb.nodeCount.toNat ≤ 7) ∧ (sAb.treeValid = true ∧ 6 < sAb.nodeCount.toNat) := by
  decide

theorem witness_CodeBuildEffect : State.reset.treeValid = false ∧ sAb.treeValid = true := by decide

/-- The statements about the codes of a state with valid codes. -/
theorem witness_valid_codes : sAb.Inv ∧ sAb.codeValid = true ∧ sAb.code 0x61 ≠ [] ∧ sAb.code 256 ≠ [] ∧ sAb.code 0x63 = [] :=
  ⟨inv_sAb, by decide, by decide, by decide, by decide⟩

theorem witness_CodeReadShowsTheCode :
    State.reset.codeValid = false ∧ (sAb.codeValid = true ∧ 256 < 257) ∧ (sAb.codeValid = true ∧ 256 ≤ 256 ∧ 31 < 32) := by decide

theorem witness_EncStartBegins : State.reset.codeValid = false ∧ sAb.codeValid = true := by decide

theorem witness_StreamingValidation :
    (sEnc.issue (encode (.encSym 0x61))).pend = some ⟨0x00006111, .validate, 0⟩ ∧
    sAb.encState ≠ .active ∧ (sEnc.encState = .active ∧ 256 ≤ 256) ∧ (0x63 < 256 ∧ sEnc.code 0x63 = []) ∧
    (0x61 < 256 ∧ sEnc.code 0x61 ≠ []) ∧ sAb.decState ≠ .active ∧ sDec.decState = .active := by decide

/-- `RunStepEmitsOneBit`: the last bit of `EOF_SYMBOL`, with 7 bits pending (the byte then fills) and with 2 (padding follows); and both
commands with 7 bits pending and the FIFO full. -/
theorem witness_RunStepEmitsOneBit :
    (let s := pending .encEof .run 1 { sEnc with encN := 7, encAcc := 0x43 }
     s.pend = some ⟨0x12, .run, 1⟩ ∧ s.encN.toNat ≤ 7 ∧ s.encAcc.toNat < 2 ^ s.encN.toNat ∧
       ¬ (s.encN = 7 ∧ s.outFifo.length = s.params.outDepth) ∧ 1 + 1 = (s.code 256).length ∧
       (after (exec .encEof s)).map State.encN = some 0) ∧
    (let s := pending .encEof .run 1 { sEnc with encN := 2, encAcc := 3 }
     s.encAcc.toNat < 2 ^ s.encN.toNat ∧ (after (exec .encEof s)).map State.encN = some 3) ∧
    (let s := pending .encEof .run 0 sEnc
     ¬ (s.encN = 7 ∧ s.outFifo.length = s.params.outDepth) ∧ 0 + 1 ≠ (s.code 256).length) ∧
    (sEofHeld.pend = some ⟨0x12, .run, 1⟩ ∧ sEofHeld.encAcc.toNat < 2 ^ sEofHeld.encN.toNat ∧ sEofHeld.encN = 7 ∧
      sEofHeld.outFifo.length = sEofHeld.params.outDepth) ∧
    (let s := pending (.encSym 0x61) .run 1 sFull
     s.pend = some ⟨0x6111, .run, 1⟩ ∧ s.encN = 7 ∧ s.outFifo.length = s.params.outDepth) := by decide

theorem witness_PaddingStep :
    (sPadHeld.pend = some ⟨0x12, .pad, 2⟩ ∧ 0 < sPadHeld.encN.toNat ∧ sPadHeld.encN.toNat ≤ 7 ∧
      sPadHeld.encAcc.toNat < 2 ^ sPadHeld.encN.toNat ∧ sPadHeld.outFifo.length = sPadHeld.params.outDepth) ∧
    (sPad.pend = some ⟨0x12, .pad, 2⟩ ∧ 0 < sPad.encN.toNat ∧ sPad.encN.toNat ≤ 7 ∧ sPad.encAcc.toNat < 2 ^ sPad.encN.toNat ∧
      sPad.outFifo.length ≠ sPad.params.outDepth) := by decide

theorem witness_EncSymAppendsTheCode :
    sEnc.Inv ∧ sEnc.busy = false ∧ sEnc.encState = .active ∧ 0x61 < 256 ∧ sEnc.code 0x61 ≠ [] ∧
    8 * sEnc.outFifo.length + sEnc.encN.toNat + (sEnc.code 0x61).length ≤ 8 * sEnc.params.outDepth :=
  ⟨inv_sEnc, by decide, by decide, by decide, by decide, by decide⟩

theorem witness_EncodedStreamContent :
    sAb.Inv ∧ sAb.busy = false ∧ sAb.codeValid = true ∧ sAb.outFifo = [] ∧
    (∀ k ∈ [0x61, 0x62, 0x0A], k < 256 ∧ sAb.code k ≠ []) ∧
    ([0x61, 0x62, 0x0A].flatMap sAb.code ++ sAb.code 256).length ≤ 8 * sAb.params.outDepth :=
  ⟨inv_sAb, by decide, by decide, by decide, by decide, by decide⟩

theorem witness_BitCountAgreement :
    sAb.Inv ∧ sAb.codeValid = true ∧ (∀ k ∈ [0x61, 0x62, 0x0A], k < 256) ∧
    ∀ k, k < 256 → List.count k [0x61, 0x62, 0x0A] = (sAb.countAt k).toNat :=
  ⟨inv_sAb, by decide, by decide, by decide +kernel⟩

theorem witness_DecStartBegins : State.reset.treeValid = false ∧ sAb.treeValid = true := by decide

/-- `WalkStepFollowsTheBit`: no input, with and without `IN_END`; a bit to an internal node, to a leaf, to `EOF_SYMBOL`, and to no child. -/
theorem witness_WalkStepFollowsTheBit :
    (sDecHeld.pend = some ⟨0x19, .run, 0⟩ ∧ sDecHeld.decAvail.toNat ≤ 8 ∧ sDecHeld.inStream = [] ∧ sDecHeld.inEnd = false) ∧
    (({ sDecHeld with inEnd := true } : State).inStream = []) ∧
    (sDecRun.inStream = [false, true, true, false, false, false, true, true] ∧ (sDecRun.node sDecRun.cursor).zero ≠ Config.nil ∧
      (sDecRun.node (sDecRun.node sDecRun.cursor).zero).isLeaf = false) ∧
    (let s := { sDecRun with cursor := 5 }
     s.inStream = [false, true, true, false, false, false, true, true] ∧ (s.node (s.node s.cursor).zero).sym ≠ 256 ∧
       (s.node (s.node s.cursor).zero).isLeaf = true) ∧
    (let s := { sDecRun with cursor := 5, decShift := 0x80, decAvail := 1 }
     s.inStream.head? = some true ∧ (s.node (s.node s.cursor).one).sym = 256) ∧
    (let s := pending .decSym .run 0 { sEmpty with inFifo := [0x80] }
     s.inStream.head? = some true ∧ (s.node s.cursor).one = Config.nil) := by decide

/-- `DecSymReadsOneCode`: `'a'`, and `EOF_SYMBOL`. -/
theorem witness_DecSymReadsOneCode :
    ((sDecWith [0x63]).Inv ∧ (sDecWith [0x63]).busy = false ∧ (sDecWith [0x63]).decState = .active ∧
      (sDecWith [0x63]).cursor = (sDecWith [0x63]).root ∧ IsCodePath sAb.nodes sAb.root 0x61 [false, true] ∧
      (sDecWith [0x63]).inStream = [false, true] ++ [true, false, false, false, true, true]) ∧
    ((sDecWith [0xC0]).Inv ∧ IsCodePath sAb.nodes sAb.root 256 [true, true] ∧
      (sDecWith [0xC0]).inStream = [true, true] ++ List.replicate 6 false) :=
  ⟨⟨inv_sDecWith.1, by decide, by decide, by decide, path_a, by decide⟩, inv_sDecWith.2.2, path_eof, by decide⟩

/-- `RoundTrip`: "ab\n" (95_test_vectors.md section 1.1), with `S_ab` as the block that encodes and as the block that decodes. -/
theorem witness_RoundTrip :
    sAb.Inv ∧ sAb.busy = false ∧ sAb.codeValid = true ∧ sAb.outFifo = [] ∧
    (∀ k ∈ [0x61, 0x62, 0x0A], k < 256 ∧ sAb.code k ≠ []) ∧
    ([0x61, 0x62, 0x0A].flatMap sAb.code ++ sAb.code 256).length ≤ 8 * sAb.params.outDepth ∧
    [0x63] = (encodeStream [0x61, 0x62, 0x0A] sAb).outFifo ∧ sAb.treeValid = true ∧ sAb.inFifo = [] ∧
    [(0x63 : Byte)].length ≤ sAb.params.inDepth ∧ (∀ k, k < 256 → sAb.countAt k = sAb.countAt k) ∧ [0x61] ++ [0x62] <+: [0x61, 0x62, 0x0A] :=
  ⟨inv_sAb, by decide, by decide, by decide, by decide, by decide, by decide +kernel, by decide, by decide, by decide,
    fun _ _ => rfl, by decide⟩

theorem witness_RaisingAnError :
    State.reset.error.code = 0 ∧ (State.reset.error.record .inOverflow 0xFF 0x40).code ≠ 0 ∧
    sSymRun.pend = some ⟨0x6111, .run, 0⟩ ∧ decode 0x6111 = .ok (.encSym 0x61) := by decide

/-- `ValidationErrorsArePrecise`: an error that fails the encoder, and one that fails no unit. -/
theorem witness_ValidationErrorsArePrecise :
    (∃ t, (sEnc.issue 0x6311).phase = .validate ∧ exec (.encSym 0x63) (sEnc.issue 0x6311) = .next t ∧
      t.error ≠ (sEnc.issue 0x6311).error ∧ t.encState ≠ (sEnc.issue 0x6311).encState) ∧
    ∃ t, (State.reset.issue 0x10).phase = .validate ∧ exec .encStart (State.reset.issue 0x10) = .next t ∧
      t.error ≠ (State.reset.issue 0x10).error :=
  ⟨⟨_, rfl, rfl, by decide, by decide⟩, ⟨_, rfl, rfl, by decide⟩⟩

/-- `OnlyAlignedWordsAreAdmitted`: the first and the last word of the window; a halfword, a misaligned word, one past the window. -/
theorem witness_OnlyAlignedWordsAreAdmitted :
    (0xFC ≤ 0xFC ∧ 0xFC % 4 = 0 ∧ 0 % 4 = 0) ∧ ¬ ((2 : Nat) = 4) ∧ (0x41 : Nat) % 4 ≠ 0 ∧ ¬ (0x100 ≤ 0xFC) := by decide

theorem witness_UnmappedOffsetsReadZero : 0x5C ≤ 0x5C ∧ Reg.at? 0x5C = none ∧ Reg.at? 0xFC = none := by decide

theorem witness_ReadsHaveNoSideEffect :
    (State.reset.busy = false ∧ Reg.id ≠ .outData) ∧ (sDecHeld.busy = true ∧ Reg.param1 ∈ [Reg.id, .ctrl, .status, .error, .fifoLevel, .param0,
      .param1]) ∧ Reg.treeInfo ∈ [Reg.dataLo, .dataHi, .result, .link, .encBitsLo, .encBitsHi, .decBitsLo, .decBitsHi, .decPos, .encPos,
      .totalLo, .totalHi, .treeInfo] := by decide

theorem witness_FifoAccesses :
    sFull.outFifo = 0x61 :: [] ∧ sAb.outFifo = [] ∧ State.reset.inFifo.length < State.reset.params.inDepth ∧
    (let s := { State.reset with inFifo := List.replicate 16 0 }
     s.params.inDepth ≤ s.inFifo.length) := by decide

theorem witness_BusyWritesAreDropped :
    sDecHeld.busy = true ∧ sDecHeld.inFifo.length < sDecHeld.params.inDepth ∧
    (let s := { sDecHeld with inFifo := List.replicate 16 0 }
     s.busy = true ∧ s.params.inDepth ≤ s.inFifo.length) ∧
    (Reg.status ≠ .cmd ∧ Reg.status ≠ .dataLo ∧ Reg.status ≠ .dataHi ∧ Reg.status ≠ .error ∧ Reg.status ≠ .ctrl ∧
      Reg.status ≠ .inData) := by decide

theorem witness_IdleWritesStore : State.reset.busy = false ∧ sAb.busy = false := by decide

theorem witness_HostBranches :
    (let s := hostAt (.beq 1 1 5) { sAb with host := { sAb.host with v := some 3 } }
     s.host.v = some 3 ∧ labelSites 5 0 s.host.prog = [0]) ∧ (3 &&& 1 : Word) = 1 ∧ (3 &&& 1 : Word) ≠ 0 := by decide

theorem witness_ResetGivesTheResetValues :
    (let s := { sDecHeld with sched := [.reset] }
     s.nextAgent = some .reset) := by decide

theorem witness_InvariantAtReset :
    ({ countBits := 1, outDepth := 1, inDepth := 65535, base := 256 } : Params).Wf ∧ Params.default.Wf := by decide

/-- `EveryStepKeepsTheInvariant`: an engine step from a state with a command pending. -/
theorem witness_EveryStepKeepsTheInvariant :
    let s := { sDecRun with sched := [.engine] }
    s.Inv ∧ ∃ t, step s = .next t ∧ t.decBits ≠ s.decBits :=
  ⟨inv_of_data (by decide +kernel) (fun _ h => by cases h; exact rfl), _, rfl, by decide⟩

/-- `OnlyNamedCommandsWriteAStore`: for each clause a command that makes the change. -/
theorem witness_OnlyNamedCommandsWriteAStore :
    (∃ t, exec (.freqInc 0) sAb = .next t ∧ t.count ≠ sAb.count) ∧
    (∃ t, exec .treeBuild State.reset = .next t ∧ t.nodes ≠ State.reset.nodes) ∧
    (∃ t, exec .codeBuild sEmpty = .next t ∧ t.codes ≠ sEmpty.codes) ∧
    (∃ t, exec .encEof sPad = .next t ∧ t.outFifo ≠ sPad.outFifo) ∧
    (∃ t, exec .decSym sDecRun = .next t ∧ t.inFifo ≠ sDecRun.inFifo) ∧
    (∃ t, exec (.freqRead 256) State.reset = .next t ∧ t.dataLo ≠ State.reset.dataLo) ∧
    (∃ t, exec (.nodeRead 6) sAb = .next t ∧ t.link ≠ sAb.link ∧ t.result ≠ sAb.result) := by
  refine ⟨⟨_, rfl, ?_⟩, ⟨_, rfl, ?_⟩, ⟨_, rfl, ?_⟩, ⟨_, rfl, ?_⟩, ⟨_, rfl, ?_⟩, ⟨_, rfl, ?_⟩, ⟨_, rfl, ?_⟩⟩ <;> decide +kernel

/-- A state with an error recorded. -/
def sErr : State := { State.reset with error := { code := 0x12, src := 0x09, info := 0, multi := true } }

/-- `FirstErrorIsKept`: a second error, a reset, and a host write of `ERROR` while idle. -/
theorem witness_FirstErrorIsKept :
    sErr.error.code ≠ 0 ∧ (∃ t, step (sErr.withFetchWord 32 0x609) = .next t ∧ t.error.code = 0x12 ∧ t.error.multi = true) ∧
    (∃ t, ({ sErr with sched := [.reset] } : State).nextAgent = some .reset ∧ step { sErr with sched := [.reset] } = .next t ∧
      t.error = .clear) ∧
    ∃ t, (hostAt (.wr 0x20 4 0) sErr).nextAgent = some .host ∧ step (hostAt (.wr 0x20 4 0) sErr) = .next t ∧ t.error = .clear :=
  ⟨by decide, ⟨_, rfl, by decide, by decide⟩, ⟨_, rfl, rfl, by decide⟩, ⟨_, rfl, rfl, by decide⟩⟩

theorem witness_StaleStateIsInvalidated :
    (∃ t, step (sAb.withFetchWord 32 0x6102) = .next t ∧ t.count ≠ (sAb.withFetchWord 32 0x6102).count) ∧
    ∃ t, step (State.reset.withFetchWord 32 0x08) = .next t ∧ t.nodes ≠ (State.reset.withFetchWord 32 0x08).nodes := by
  refine ⟨⟨_, rfl, ?_⟩, ⟨_, rfl, ?_⟩⟩ <;> decide +kernel

/-- A command issued, and the host in its `WAIT` (rule R113). -/
def sWait : State := { sAb.issue (encode .nop) with host := { HostAgent.none with prog := Asm.wait sAb.params 5 } }

theorem inv_sWait : sWait.Inv := inv_of_data (by decide +kernel) (fun _ h => by cases h; exact rfl)

/-- `UnheldCommandsProgress`: a walk step, a code-bit step, a padding step and an illegal word; and a host at a `WAIT`. -/
theorem witness_UnheldCommandsProgress :
    (sDecRun.Inv ∧ sDecRun.busy = true ∧ sDecRun.engineReady = true ∧ ∃ t, engineStep sDecRun = .next t) ∧
    (sSymRun.Inv ∧ sSymRun.busy = true ∧ sSymRun.engineReady = true) ∧ (sPad.Inv ∧ sPad.busy = true ∧ sPad.engineReady = true) ∧
    ((sAb.issue 5).Inv ∧ (sAb.issue 5).engineReady = true) ∧
    (sWait.Inv ∧ sWait.host.prog[sWait.host.next]? = some { labels := [5], op := .rd (sWait.params.base + 0x08) 4 } ∧
      sWait.host.prog[sWait.host.next + 1]? = some { labels := [], op := .bne 1 0 5 } ∧
      labelSites 5 0 sWait.host.prog = [sWait.host.next]) :=
  ⟨⟨inv_sDecRun, by decide, by decide, _, rfl⟩, ⟨inv_sSymRun, by decide, by decide⟩, ⟨inv_sPad.1, by decide, by decide⟩,
    ⟨inv_illegal, by decide⟩, inv_sWait, by decide, by decide, by decide⟩

/-- The turns of agents that have no step are passed over: an idle engine's, and a held engine's, with the host's turn after it. -/
theorem test_no_turn_without_a_step :
    ({ hostAt (.rd 0x08 4) sAb with sched := [.engine, .host] } : State).nextAgent = some .host ∧
    ({ hostAt (.wr 0x44 4 0x63) sDecHeld with sched := [.engine, .host] } : State).nextAgent = some .host ∧
    ({ sDecHeld with sched := [.host, .engine, .reset] } : State).nextAgent = some .reset ∧
    ({ sDecRun with sched := [.host, .engine] } : State).nextAgent = some .engine := by decide

end Sys2Proof.Machine.Tests
end

section
/-! SUPPORT. A step of the machine, told by the order: whose turn it takes and whose it passes over (rules R10, R12; log 3). -/

namespace Sys2Proof.Machine

/-- A step is told by the order with its passed-over turns dropped. -/
theorem step_congr_turns {s t : State} (h : s.withTurns = t.withTurns) : step s = step t := by
  simp only [step, State.nextAgent, State.turnTaken, h]

/-- The first turn is that of an agent that has a step. -/
theorem step_of_turn {s : State} {a : Agent} {rest : List Agent} (h : s.sched = a :: rest) (ha : s.hasStep a = true) :
    step s = agentStep a { s with sched := rest } := by
  rw [step_of_nextAgent (s.nextAgent_of_cons h ha), s.turnTaken_of_cons h ha]

/-- The first turn is that of an agent that has no step. -/
theorem step_of_skip {s : State} {a : Agent} {rest : List Agent} (h : s.sched = a :: rest) (ha : s.hasStep a = false) :
    step s = step { s with sched := rest } :=
  step_congr_turns (s.withTurns_of_skip h ha)

/-- Every turn is passed over exactly where none of the agents has a step. -/
theorem State.fromReady_eq_nil_iff (s : State) (turns : List Agent) : s.fromReady turns = [] ↔ turns.any s.hasStep = false := by
  simp [State.fromReady, List.dropWhile_eq_nil_iff]

/-- An order that has run out goes on with the drawn turns. -/
theorem State.withTurns_of_nil {s : State} (h : s.sched = []) :
    s.withTurns = { s with sched := s.drawnTurns, draws := s.draws + 1 } := by
  simp [State.withTurns, h]

/-- The draw has an agent with a step. -/
theorem step_of_drawn {s : State} {turns : List Agent} (h : s.sched = []) (ht : turns = Config.freeTurns s.draws ++ [.engine])
    (hany : turns.any s.hasStep = true) : step s = step { s with sched := turns, draws := s.draws + 1 } := by
  apply step_congr_turns
  rw [State.withTurns_of_nil h]
  cases hf : s.fromReady turns with
  | nil => simp [(s.fromReady_eq_nil_iff turns).1 hf] at hany
  | cons a l => simp [State.withTurns, State.drawnTurns, ← ht, hf]

/-- No agent of the draw has a step: it is the host's turn, if it has a step. -/
theorem State.drawnTurns_of_none {s : State} {turns : List Agent} (ht : turns = Config.freeTurns s.draws ++ [.engine])
    (hany : turns.any s.hasStep = false) : s.drawnTurns = if s.hostStmt ≠ none then [.host] else [] := by
  have hf : s.fromReady turns = [] := (s.fromReady_eq_nil_iff turns).2 hany
  cases hh : s.hostStmt <;> simp [State.drawnTurns, ← ht, hf, State.fromReady_cons, State.hasStep, hh]

/-- No agent of the draw has a step, and the host has. -/
theorem step_of_undrawn_host {s : State} {turns : List Agent} (h : s.sched = [])
    (ht : turns = Config.freeTurns s.draws ++ [.engine]) (hany : turns.any s.hasStep = false) (hh : s.hostStmt ≠ none) :
    step s = hostStep { s with draws := s.draws + 1 } := by
  have hw : s.withTurns = { s with sched := [.host], draws := s.draws + 1 } := by
    rw [State.withTurns_of_nil h, State.drawnTurns_of_none ht hany, if_pos hh]
  simp [step, State.nextAgent, State.turnTaken, hw, agentStep, h]

/-- Nobody has a step: only the draw passes. -/
theorem step_of_nobody {s : State} {turns : List Agent} (h : s.sched = [])
    (ht : turns = Config.freeTurns s.draws ++ [.engine]) (hany : turns.any s.hasStep = false) (hh : s.hostStmt = none) :
    step s = .next { s with draws := s.draws + 1 } := by
  have hw : s.withTurns = { s with sched := [], draws := s.draws + 1 } := by
    rw [State.withTurns_of_nil h, State.drawnTurns_of_none ht hany, if_neg (by simp [hh])]
  simp [step, State.nextAgent, State.turnTaken, hw, h]

theorem State.engineReady_iff (s : State) :
    s.engineReady = true ↔ s.busy = true ∧ s.waitOut = false ∧ s.waitIn = false := by
  simp [State.engineReady, and_assoc]

theorem State.engineReady_false_iff (s : State) :
    s.engineReady = false ↔ s.busy = false ∨ s.waitOut = true ∨ s.waitIn = true := by
  rw [← Bool.not_eq_true, engineReady_iff, not_and_or, not_and_or]
  simp

theorem State.busy_of_pend {s : State} {p : Pend} (h : s.pend = some p) : s.busy = true := by simp [State.busy, h]

/-- Settles O5: each turn by `step_of_turn` or `step_of_skip`, and an order that has run out by who of the draw has a step. -/
theorem stepRunsTheDecodedCommand : Obligations.StepRunsTheDecodedCommand := by
  unfold Obligations.StepRunsTheDecodedCommand
  intro s rest
  have engineTurn (h : s.sched = .engine :: rest) (hb : s.busy = true) (ho : s.waitOut = false) (hi : s.waitIn = false) :
      step s = engineStep { s with sched := rest } :=
    step_of_turn h (s.engineReady_iff.2 ⟨hb, ho, hi⟩)
  refine ⟨?decoded, engineTurn, ?host, fun h => step_of_turn h rfl, ?idle, ?ended, ⟨rfl, rfl, rfl⟩, ?drawn⟩
  case decoded =>
    intro p i h hp hd ho hi
    rw [engineTurn h (State.busy_of_pend hp) ho hi]
    simp [engineStep, hp, hd]
  case host => exact fun h hh => step_of_turn h (Option.isSome_iff_ne_none.2 hh)
  case idle => exact fun h hn => step_of_skip h (s.engineReady_false_iff.2 hn)
  case ended => exact fun h hh => step_of_skip h (by simp [State.hasStep, hh])
  case drawn =>
    intro turns h ht
    split
    · next hany => exact step_of_drawn h ht hany
    · next hany =>
      rw [Bool.not_eq_true] at hany
      split
      · next hh => exact step_of_undrawn_host h ht hany hh
      · next hh => exact step_of_nobody h ht hany (not_not.1 hh)

end Sys2Proof.Machine
end

section
/-! SUPPORT. Every step of the machine keeps the invariant, agent by agent (rule R35). -/

namespace Sys2Proof.Machine

/-! ### The commands -/

/-- The result registers are not in the invariant. -/
theorem State.Inv.withResults {s : State} (h : s.Inv) (lo hi res link : Word) :
    ({ s with dataLo := lo, dataHi := hi, result := res, link := link } : State).Inv :=
  ⟨h.params, h.counts, h.store, h.table, h.tree, h.codes, h.enc, h.dec, h.encPending, h.decPending, h.fifos, h.error, h.pend⟩

theorem inv_execFreqInc {k : Nat} {s t : State} (h : s.Inv) (ht : execFreqInc k s = .next t) : t.Inv := by
  unfold execFreqInc at ht
  split at ht
  · cases ht; exact h.raiseCmd _ _ (by decide)
  · next hk =>
    rw [not_not] at hk
    split at ht
    · cases ht; exact h.raiseCmd _ _ (by decide)
    · next hmax =>
      cases ht
      obtain ⟨hpos, hlt⟩ := maxCount_pos h
      have hle : (s.countAt k).toNat ≤ s.maxCount := countOf_le hpos h.counts.2 k
      refine h.afterCount _ (inv_setCount h hk ?_)
      rw [BitVec.toNat_add, show (1 : Word).toNat = 1 from rfl, Nat.mod_eq_of_lt (by omega)]
      omega

theorem inv_execFreqWrite {k : Nat} {s t : State} (h : s.Inv) (ht : execFreqWrite k s = .next t) : t.Inv := by
  unfold execFreqWrite at ht
  split at ht
  · cases ht; exact h.raiseCmd _ _ (by decide)
  · split at ht
    · cases ht; exact h.raiseCmd _ _ (by decide)
    · split at ht
      · cases ht; exact h.raiseCmd _ _ (by decide)
      · next hmax =>
        split at ht
        · next hk =>
          cases ht
          exact h.afterCount _ (inv_setCount h hk (by simpa [hk] using hmax))
        · cases ht; exact h.afterCount s.count h.counts

theorem inv_execFreqRead {k : Nat} {s t : State} (h : s.Inv) (ht : execFreqRead k s = .next t) : t.Inv := by
  unfold execFreqRead at ht
  split at ht
  · cases ht; exact h.raiseCmd _ _ (by decide)
  · cases ht; exact (h.withResults _ _ s.result s.link).complete

theorem inv_execNodeRead {i : Nat} {s t : State} (h : s.Inv) (ht : execNodeRead i s = .next t) : t.Inv := by
  unfold execNodeRead at ht
  split at ht
  · cases ht; exact h.raiseCmd _ _ (by decide)
  · split at ht
    · cases ht; exact h.raiseCmd _ _ (by decide)
    · cases ht; exact (h.withResults _ _ _ _).complete

theorem inv_execCodeRead {k w : Nat} {s t : State} (h : s.Inv) (ht : execCodeRead k w s = .next t) : t.Inv := by
  unfold execCodeRead at ht
  split at ht
  · cases ht; exact h.raiseCmd _ _ (by decide)
  · split at ht
    · cases ht; exact h.raiseCmd _ _ (by decide)
    · cases ht; exact (h.withResults _ _ _ s.link).complete

/-- The tree a `TREE_BUILD` leaves is that of the frequency table (rule R25). -/
theorem TreeBuilt.current {s t : State} (h : TreeBuilt s t) : t.TreeCurrent := by
  refine ⟨?_, ?_, ?_⟩
  · rw [h.nodes, h.nodeCount, h.count, List.take_left]
  · rw [h.nodeCount, h.count]
  · rw [h.root, h.count]

theorem inv_execTreeBuild {s t : State} (h : s.Inv) (ht : execTreeBuild s = .next t) : t.Inv := by
  have hb : TreeBuilt s t := treeBuilt ht
  have hstore : t.nodes.length ≤ Config.maxNodes := by
    have hle := buildTree_length_le s.count
    have hs := h.store
    rw [hb.nodes, List.length_append, List.length_drop]
    simp only [Config.maxNodes] at hs ⊢
    omega
  cases ht
  exact ⟨h.params, h.counts, hstore, h.table, fun _ => hb.current, fun hv => (by cases hv), fun hv => (by cases hv),
    fun hv => (by cases hv), h.encPending, h.decPending, h.fifos, h.error, fun p hp => (by cases hp)⟩

theorem inv_execCodeBuild {s t : State} (h : s.Inv) (ht : execCodeBuild s = .next t) : t.Inv := by
  unfold execCodeBuild at ht
  split at ht
  · cases ht; exact h.raiseCmd _ _ (by decide)
  · next hv =>
    rw [Bool.not_eq_false] at hv
    cases ht
    exact ⟨h.params, h.counts, h.store, (h.tree hv).holds.codes_wf, h.tree, fun _ => ⟨hv, rfl, rfl⟩, fun he => (by cases he), h.dec,
      h.encPending, h.decPending, h.fifos, h.error, fun p hp => (by cases hp)⟩

theorem inv_execEncStart {s t : State} (h : s.Inv) (ht : execEncStart s = .next t) : t.Inv := by
  unfold execEncStart at ht
  split at ht
  · cases ht; exact h.raiseCmd _ _ (by decide)
  · next hv =>
    rw [Bool.not_eq_false] at hv
    cases ht
    exact ⟨h.params, h.counts, h.store, h.table, h.tree, h.codes, fun _ => hv, h.dec, ⟨Nat.zero_le _, Nat.one_pos⟩, h.decPending,
      h.fifos, h.error, fun p hp => (by cases hp)⟩

/-- The root of a current tree is a place for the cursor (rules R35, R154). -/
theorem State.TreeCurrent.root_internal {s : State} (h : s.TreeCurrent) :
    s.root.toNat < s.nodeCount.toNat ∧ (s.node s.root).isLeaf = false :=
  ⟨by rw [h.2.1]; exact h.holds.root_lt, h.holds.root_internal⟩

theorem inv_execDecStart {s t : State} (h : s.Inv) (ht : execDecStart s = .next t) : t.Inv := by
  unfold execDecStart at ht
  split at ht
  · cases ht; exact h.raiseCmd _ _ (by decide)
  · next hv =>
    rw [Bool.not_eq_false] at hv
    cases ht
    exact ⟨h.params, h.counts, h.store, h.table, h.tree, h.codes, h.enc, fun _ => ⟨hv, (h.tree hv).root_internal⟩, h.encPending,
      ⟨Nat.zero_le _, by simp⟩, h.fifos, h.error, fun p hp => (by cases hp)⟩

/-! ### The streaming commands, by phase (rules R193, R194, R213) -/

/-- Only `ENC_EOF` is ever in phase `PAD`. -/
theorem State.Inv.pad_encEof {s : State} {p : Pend} (h : s.Inv) (hp : s.pend = some p) (hph : p.phase = .pad) :
    decode p.word = .ok .encEof := by
  have hok := h.pend p hp
  simp only [State.PendOk, hph] at hok
  exact hok.1

theorem inv_encSymValidate {k : Nat} {s : State} {p : Pend} (h : s.Inv) (hp : s.pend = some p)
    (hd : decode p.word = .ok (.encSym k)) : (encSymValidate k s).Inv := by
  unfold encSymValidate
  split
  · exact h.raiseCmd _ _ (by decide)
  · next hact =>
    split
    · exact h.raiseCmd _ _ (by decide)
    · next hreal =>
      split
      · exact h.raiseCmd _ _ (by decide)
      · next hcode =>
        refine inv_beginRun h hp ?_
        simp only [State.PendOk, hd]
        exact ⟨not_not.1 hact, not_not.1 hreal, List.length_pos_iff.2 hcode⟩

theorem inv_encEofValidate {s : State} {p : Pend} (h : s.Inv) (hp : s.pend = some p) (hd : decode p.word = .ok .encEof) :
    (encEofValidate s).Inv := by
  unfold encEofValidate
  split
  · exact h.raiseCmd _ _ (by decide)
  · next hact =>
    rw [not_not] at hact
    refine inv_beginRun h hp ?_
    simp only [State.PendOk, hd]
    exact ⟨hact, List.length_pos_iff.2 (h.eof_code (h.enc hact))⟩

theorem inv_decSymValidate {s : State} {p : Pend} (h : s.Inv) (hp : s.pend = some p) (hd : decode p.word = .ok .decSym) :
    (decSymValidate s).Inv := by
  unfold decSymValidate
  split
  · exact h.raiseCmd _ _ (by decide)
  · next hact =>
    refine inv_beginRun h hp ?_
    simp only [State.PendOk, hd]
    exact not_not.1 hact

theorem inv_execEncSym {k : Nat} {s t : State} {p : Pend} (h : s.Inv) (hp : s.pend = some p)
    (hd : decode p.word = .ok (.encSym k)) (ht : execEncSym k s = .next t) : t.Inv := by
  unfold execEncSym at ht
  rw [State.phase_of_pend hp] at ht
  cases hph : p.phase <;> rw [hph] at ht <;> cases ht
  case validate => exact inv_encSymValidate h hp hd
  case run => exact inv_encSymRun h hp hd hph
  case pad => exact absurd (hd.symm.trans (h.pad_encEof hp hph)) (by simp)

theorem inv_execEncEof {s t : State} {p : Pend} (h : s.Inv) (hp : s.pend = some p) (hd : decode p.word = .ok .encEof)
    (ht : execEncEof s = .next t) : t.Inv := by
  unfold execEncEof at ht
  rw [State.phase_of_pend hp] at ht
  cases hph : p.phase <;> rw [hph] at ht <;> cases ht
  case validate => exact inv_encEofValidate h hp hd
  case run => exact inv_encEofRun h hp hd hph
  case pad => exact inv_encEofPad h

theorem inv_execDecSym {s t : State} {p : Pend} (h : s.Inv) (hp : s.pend = some p) (hd : decode p.word = .ok .decSym)
    (ht : execDecSym s = .next t) : t.Inv := by
  unfold execDecSym at ht
  rw [State.phase_of_pend hp] at ht
  cases hph : p.phase <;> rw [hph] at ht <;> cases ht
  case validate => exact inv_decSymValidate h hp hd
  case run => exact inv_walk h hp hd hph
  case pad => exact absurd (hd.symm.trans (h.pad_encEof hp hph)) (by simp)

/-! ### The agents -/

/-- A step of the pending command keeps the invariant. -/
theorem inv_exec {i : Instr} {s t : State} {p : Pend} (h : s.Inv) (hp : s.pend = some p) (hd : decode p.word = .ok i)
    (ht : exec i s = .next t) : t.Inv := by
  cases i with
  | nop => cases ht; exact h.complete
  | freqClear => cases ht; exact h.afterCount [] ⟨Table.wf_nil _ _, by simp⟩
  | freqInc k => exact inv_execFreqInc h ht
  | freqWrite k => exact inv_execFreqWrite h ht
  | freqRead k => exact inv_execFreqRead h ht
  | treeBuild => exact inv_execTreeBuild h ht
  | nodeRead k => exact inv_execNodeRead h ht
  | codeBuild => exact inv_execCodeBuild h ht
  | codeRead k w => exact inv_execCodeRead h ht
  | encStart => exact inv_execEncStart h ht
  | encSym k => exact inv_execEncSym h hp hd ht
  | encEof => exact inv_execEncEof h hp hd ht
  | decStart => exact inv_execDecStart h ht
  | decSym => exact inv_execDecSym h hp hd ht

theorem inv_engineStep {s t : State} (h : s.Inv) (ht : engineStep s = .next t) : t.Inv := by
  unfold engineStep at ht
  split at ht
  · cases ht; exact h
  · next p hp =>
    split at ht
    · cases ht; exact h.raiseCmd _ _ (by decide)
    · next i hd => exact inv_exec h hp hd ht

/-- The cleared `ERROR` is in the form of rule R48. -/
theorem ErrorReg.clear_recordable :
    ErrorReg.clear.code ∈ recordableCodes ∧ (ErrorReg.clear.code = 0 → ErrorReg.clear = .clear) :=
  ⟨by decide, fun _ => rfl⟩

/-- The invariant holds at reset, for every choice of the parameters in the ranges of rule R6. -/
theorem inv_resetWith {p : Params} (hp : p.Wf) : (State.resetWith p).Inv where
  params := hp
  counts := ⟨Table.wf_nil _ _, by simp [State.resetWith]⟩
  store := Nat.zero_le _
  table := ⟨Table.wf_nil _ _, by simp [State.resetWith]⟩
  tree := fun h => by cases h
  codes := fun h => by cases h
  enc := fun h => by cases h
  dec := fun h => by cases h
  encPending := ⟨Nat.zero_le _, Nat.one_pos⟩
  decPending := ⟨Nat.zero_le _, by simp [State.resetWith]⟩
  fifos := ⟨Nat.zero_le _, Nat.zero_le _⟩
  error := ErrorReg.clear_recordable
  pend := fun p hp => by cases hp

theorem State.Inv.resetEvent {s : State} (h : s.Inv) : s.resetEvent.Inv :=
  (inv_resetWith h.params).host s.host s.sched s.draws

theorem State.Inv.afterRead {s : State} (h : s.Inv) (r : Reg) : (s.afterRead r).Inv := by
  cases r with
  | outData =>
    have hle : (s.outFifo.drop 1).length ≤ s.params.outDepth := by
      rw [List.length_drop]
      exact (Nat.sub_le _ _).trans h.fifos.1
    exact ⟨h.params, h.counts, h.store, h.table, h.tree, h.codes, h.enc, h.dec, h.encPending, h.decPending, ⟨hle, h.fifos.2⟩,
      h.error, h.pend⟩
  | _ => exact h

theorem inv_readAt {s : State} (h : s.Inv) (off : Nat) : (s.readAt off).2.Inv := by
  unfold State.readAt
  split
  · unfold State.readReg
    split
    · exact h.host s.host s.sched _
    · exact h.afterRead _
  · exact h

theorem State.Inv.pushIn {s : State} (h : s.Inv) (b : Byte) : (s.pushIn b).Inv := by
  unfold State.pushIn
  split
  · next hlt =>
    have hle : (s.inFifo ++ [b]).length ≤ s.params.inDepth := by
      rw [List.length_append]
      exact hlt
    exact ⟨h.params, h.counts, h.store, h.table, h.tree, h.codes, h.enc, h.dec, h.encPending, h.decPending, ⟨h.fifos.1, hle⟩,
      h.error, h.pend⟩
  · exact inv_access h _ (by decide)

theorem State.Inv.clearError {s : State} (h : s.Inv) : s.clearError.Inv :=
  ⟨h.params, h.counts, h.store, h.table, h.tree, h.codes, h.enc, h.dec, h.encPending, h.decPending, h.fifos,
    ErrorReg.clear_recordable, h.pend⟩

theorem State.Inv.issue {s : State} (h : s.Inv) (w : Word) : (s.issue w).Inv :=
  inv_setPend h _ (fun q hq => by cases hq; exact rfl)

theorem State.Inv.withInEnd {s : State} (h : s.Inv) (b : Bool) : ({ s with inEnd := b } : State).Inv :=
  ⟨h.params, h.counts, h.store, h.table, h.tree, h.codes, h.enc, h.dec, h.encPending, h.decPending, h.fifos, h.error, h.pend⟩

theorem State.Inv.storeReg {s : State} (h : s.Inv) (v : Word) (r : Reg) : (s.storeReg v r).Inv := by
  cases r with
  | ctrl => exact h.withInEnd _
  | cmd => exact h.issue v
  | dataLo => exact h.withResults v s.dataHi s.result s.link
  | dataHi => exact h.withResults s.dataLo v s.result s.link
  | error => exact h.clearError
  | inData => exact h.pushIn _
  | _ => exact h

theorem inv_writeAt {s : State} (h : s.Inv) (off : Nat) (v : Word) : (s.writeAt off v).Inv := by
  unfold State.writeAt
  split
  · unfold State.writeReg
    split
    · exact inv_access h _ (by decide)
    · exact h.storeReg v _
  · exact h

/-- A change of the host alone keeps the invariant. -/
theorem State.Inv.withHost {s : State} (h : s.Inv) (ho : HostAgent) : ({ s with host := ho } : State).Inv :=
  h.host ho s.sched s.draws

theorem State.Inv.testValue {s : State} (h : s.Inv) : s.testValue.2.Inv := by
  unfold State.testValue
  split
  · exact h
  · exact h.host s.host s.sched _

theorem inv_hostJump {s t : State} {l : Nat} (h : s.Inv) (ht : hostJump l s = .next t) : t.Inv := by
  unfold hostJump at ht
  split at ht <;> cases ht
  exact h.withHost _

theorem inv_hostDo {op : HostOp} {s t : State} (h : s.Inv) (ht : hostDo op s = .next t) : t.Inv := by
  cases op with
  | rd addr bytes =>
    simp only [hostDo, hostRead] at ht
    split at ht <;> cases ht
    exact (inv_readAt h _).withHost _
  | wr addr bytes v =>
    simp only [hostDo, hostWrite] at ht
    split at ht <;> cases ht
    exact (inv_writeAt h _ v).withHost _
  | beq mask want l =>
    simp only [hostDo] at ht
    split at ht
    · exact inv_hostJump h.testValue ht
    · cases ht; exact h.testValue.withHost _
  | bne mask want l =>
    simp only [hostDo] at ht
    split at ht
    · exact inv_hostJump h.testValue ht
    · cases ht; exact h.testValue.withHost _

theorem inv_hostStep {s t : State} (h : s.Inv) (ht : hostStep s = .next t) : t.Inv := by
  unfold hostStep at ht
  split at ht
  · exact inv_hostDo h ht
  · cases ht; exact h

theorem State.Inv.turnTaken {s : State} (h : s.Inv) : s.turnTaken.Inv := by
  obtain ⟨sc, d, he⟩ := s.turnTaken_eq
  rw [he]
  exact h.host s.host sc d

/-- Every step of the machine keeps the invariant, whichever agent takes it (rule R35). -/
theorem inv_step {s t : State} (h : s.Inv) (ht : step s = .next t) : t.Inv := by
  unfold step at ht
  split at ht
  · next a _ =>
    cases a with
    | host => exact inv_hostStep h.turnTaken ht
    | engine => exact inv_engineStep h.turnTaken ht
    | reset => cases ht; exact h.turnTaken.resetEvent
  · cases ht; exact h.turnTaken

/-- The invariant holds along every run. -/
theorem State.Inv.runFrom {s : State} (h : s.Inv) (n : Nat) : (runFrom n s).Inv := by
  induction n generalizing s with
  | zero => exact h
  | succ n ih =>
    unfold Machine.runFrom
    split
    · next t ht => exact ih (inv_step h ht)
    · exact h
    · exact h

end Sys2Proof.Machine
end

section
/-! SUPPORT. The bound `State.stepsLeft`: an engine step of a command that is not held makes it smaller (rules R109, R193, R194, R211,
R213). -/

namespace Sys2Proof.Machine

/-! ### The bound, by the phase and the command -/

@[simp] theorem State.stepsLeft_idle {s : State} (hp : s.pend = none) : s.stepsLeft = 0 := by simp [State.stepsLeft, hp]

theorem State.stepsLeft_validate {s : State} {p : Pend} (hp : s.pend = some p) (hph : p.phase = .validate) :
    s.stepsLeft = 1030 := by simp [State.stepsLeft, hp, hph]

theorem State.stepsLeft_encSym {s : State} {p : Pend} {k : Nat} (hp : s.pend = some p) (hph : p.phase = .run)
    (hd : decode p.word = .ok (.encSym k)) : s.stepsLeft = (s.code k).length + 2 - p.idx := by
  simp [State.stepsLeft, hp, hph, hd]

theorem State.stepsLeft_encEof {s : State} {p : Pend} (hp : s.pend = some p) (hph : p.phase = .run)
    (hd : decode p.word = .ok .encEof) : s.stepsLeft = (s.code Config.eofSymbol).length + 2 - p.idx := by
  simp [State.stepsLeft, hp, hph, hd]

theorem State.stepsLeft_decSym {s : State} {p : Pend} (hp : s.pend = some p) (hph : p.phase = .run)
    (hd : decode p.word = .ok .decSym) : s.stepsLeft = s.cursor.toNat + 1 := by
  simp [State.stepsLeft, hp, hph, hd]

theorem State.stepsLeft_pad {s : State} {p : Pend} (hp : s.pend = some p) (hph : p.phase = .pad) : s.stepsLeft = 1 := by
  simp [State.stepsLeft, hp, hph]

/-- In phase `RUN` the command is a streaming one, and an encoder's bit index is inside its code (rule R37). -/
theorem State.Inv.run_cases {s : State} {p : Pend} (h : s.Inv) (hp : s.pend = some p) (hph : p.phase = .run) :
    (∃ k, decode p.word = .ok (.encSym k) ∧ p.idx < (s.code k).length) ∨
    (decode p.word = .ok .encEof ∧ p.idx < (s.code Config.eofSymbol).length) ∨ decode p.word = .ok .decSym := by
  have hok := h.pend p hp
  simp only [State.PendOk, hph] at hok
  split at hok
  · next k hd => exact .inl ⟨k, hd, hok.2.2⟩
  · next hd => exact .inr (.inl ⟨hd, hok.2⟩)
  · next hd => exact .inr (.inr hd)
  · exact hok.elim

/-- A command pending has a step left, and no more of them than its validation allows for. -/
theorem State.stepsLeft_run_bounds {s : State} {p : Pend} (h : s.Inv) (hp : s.pend = some p) (hph : p.phase = .run) :
    0 < s.stepsLeft ∧ s.stepsLeft < 1030 := by
  rcases h.run_cases hp hph with ⟨k, hd, hidx⟩ | ⟨hd, hidx⟩ | hd
  · have hlen := h.code_length_le k
    rw [stepsLeft_encSym hp hph hd]
    omega
  · have hlen := h.code_length_le Config.eofSymbol
    rw [stepsLeft_encEof hp hph hd]
    omega
  · have hcur := s.cursor.isLt
    rw [stepsLeft_decSym hp hph hd]
    omega

/-- A command that has completed has fewer steps left than one pending. -/
theorem State.stepsLeft_lt_of_idle {s t : State} {p : Pend} (h : s.Inv) (hp : s.pend = some p) (ht : t.pend = none) :
    t.stepsLeft < s.stepsLeft := by
  rw [stepsLeft_idle ht]
  cases hph : p.phase with
  | validate => rw [stepsLeft_validate hp hph]; decide
  | run => exact (stepsLeft_run_bounds h hp hph).1
  | pad => rw [stepsLeft_pad hp hph]; decide

/-! ### Validation -/

/-- A command that is not streaming completes in one step (rule R109). -/
theorem exec_single_pend {i : Instr} {s t : State} (hi : streaming i = false) (ht : exec i s = .next t) : t.pend = none := by
  cases i <;> simp only [streaming, reduceCtorEq] at hi <;>
    simp only [exec, execNop, execFreqClear, execFreqInc, execFreqWrite, execFreqRead, execTreeBuild, execNodeRead, execCodeBuild,
      execCodeRead, execEncStart, execDecStart] at ht
  all_goals (repeat' split at ht)
  all_goals (cases ht; simp)

/-- The first step of a command completes it or begins its run steps (rules R109, R193, R194, R213). -/
theorem exec_validate {i : Instr} {s t : State} {p : Pend} (hp : s.pend = some p) (hph : p.phase = .validate)
    (ht : exec i s = .next t) : t.pend = none ∨ t = s.beginRun := by
  have hphase := (State.phase_of_pend hp).trans hph
  cases i with
  | encSym k =>
    simp only [exec, execEncSym, hphase] at ht
    cases ht
    unfold encSymValidate
    repeat' split
    all_goals simp
  | encEof =>
    simp only [exec, execEncEof, hphase] at ht
    cases ht
    unfold encEofValidate
    split <;> simp
  | decSym =>
    simp only [exec, execDecSym, hphase] at ht
    cases ht
    unfold decSymValidate
    split <;> simp
  | _ => exact .inl (exec_single_pend rfl ht)

/-! ### Run steps and padding -/

/-- An unheld code-bit step of `ENC_SYM` completes it or goes on to the next bit (rule R193). -/
theorem encSymRun_pend {k : Nat} {s : State} {p : Pend} (h : s.Inv) (hp : s.pend = some p) (hheld : ¬ s.EmitHeld) :
    (encSymRun k s).pend = none ∨ (encSymRun k s).pend = some { p with idx := p.idx + 1 } := by
  obtain ⟨hh, -⟩ | ⟨-, t, ht, he⟩ := emitBit_spec ((s.code k).getD s.idx false) h.encPending.1 h.encPending.2
  · exact absurd hh hheld
  · have hpt : t.pend = some p := by rw [he.frame]; exact hp
    unfold encSymRun
    rw [ht]
    dsimp only
    split
    · exact .inl rfl
    · exact .inr (by simp [hpt])

/-- An unheld code-bit step of `ENC_EOF` completes it, or goes on to the next bit or to the padding (rule R194). -/
theorem encEofRun_pend {s : State} {p : Pend} (h : s.Inv) (hp : s.pend = some p) (hheld : ¬ s.EmitHeld) :
    (encEofRun s).pend = none ∨ (encEofRun s).pend = some { p with idx := p.idx + 1 } ∨
      (encEofRun s).pend = some { p with idx := p.idx + 1, phase := .pad } := by
  obtain ⟨hh, -⟩ | ⟨-, t, ht, he⟩ := emitBit_spec ((s.code Config.eofSymbol).getD s.idx false) h.encPending.1 h.encPending.2
  · exact absurd hh hheld
  · have hpt : t.pend = some p := by rw [he.frame]; exact hp
    unfold encEofRun
    rw [ht]
    dsimp only
    split
    · split
      · exact .inl rfl
      · exact .inr (.inr (by simp [hpt]))
    · exact .inr (.inl (by simp [hpt]))

/-- An unheld padding step completes `ENC_EOF` (rules R191, R194). -/
theorem encEofPad_pend {s : State} (hfull : ¬ s.OutFull) : (encEofPad s).pend = none := by
  simp [encEofPad, padByte, hfull, State.encDone]

/-- A walk step that is not held completes `DEC_SYM` or moves the cursor down (rule R211). -/
theorem walkStep_pend {s : State} {p : Pend} (h : s.Inv) (hp : s.pend = some p) (hact : s.decState = .active)
    (hheld : ¬ s.ReadHeld) :
    (walkStep s).pend = none ∨ ((walkStep s).pend = some p ∧ (walkStep s).cursor.toNat < s.cursor.toNat) := by
  obtain ⟨hvalid, hlt, hinner⟩ := h.dec hact
  have htree := h.tree hvalid
  obtain ⟨hh, -⟩ | ⟨-, -, hr⟩ | ⟨-, b, t, hr, hb⟩ := readBit_spec h.decPending.1
  · exact absurd hh hheld
  · exact .inl (by simp [walkStep, hr])
  · have hpt : t.pend = some p := by rw [hb.frame]; exact hp
    have hw : walkStep s = moveTo (childOf (s.node s.cursor) b) t := by simp [walkStep, hr]
    obtain ⟨hnil, heof, hleaf, hdown⟩ := moveTo_spec t (childOf (s.node s.cursor) b)
    rw [hw]
    by_cases h1 : childOf (s.node s.cursor) b = Config.nil
    · exact .inl (by rw [hnil h1]; simp)
    · cases h2 : (t.node (childOf (s.node s.cursor) b)).isLeaf with
      | true =>
        by_cases h3 : (t.node (childOf (s.node s.cursor) b)).sym = 256
        · exact .inl (by rw [heof h1 h3])
        · exact .inl (by rw [hleaf h1 h3 h2])
      | false =>
        have hchild := htree.holds.child_lt (i := s.cursor) (b := b) (by rw [← htree.2.1]; exact hlt) hinner h1
        exact .inr (by rw [hdown h1 h2]; exact ⟨hpt, hchild⟩)

/-! ### Every step -/

theorem engineStep_ok {s : State} {p : Pend} {i : Instr} (hp : s.pend = some p) (hd : decode p.word = .ok i) :
    engineStep s = exec i s := by simp [engineStep, hp, hd]

/-- A validation step brings the command nearer its end. -/
theorem stepsLeft_validate_lt {s t : State} {p : Pend} (h : s.Inv) (hp : s.pend = some p) (hph : p.phase = .validate)
    (ht : engineStep s = .next t) : t.stepsLeft < s.stepsLeft := by
  cases hd : decode p.word with
  | error e =>
    simp only [engineStep, hp, hd] at ht
    cases ht
    exact State.stepsLeft_lt_of_idle h hp (by simp)
  | ok i =>
    have hinv := inv_engineStep h ht
    rw [engineStep_ok hp hd] at ht
    rcases exec_validate hp hph ht with hidle | rfl
    · exact State.stepsLeft_lt_of_idle h hp hidle
    · rw [State.stepsLeft_validate hp hph]
      have hrun : s.beginRun.pend = some { p with phase := .run, idx := 0 } := by simp [hp]
      exact (State.stepsLeft_run_bounds hinv hrun rfl).2

/-- An unheld run step brings the command nearer its end. -/
theorem stepsLeft_run_lt {s t : State} {p : Pend} (h : s.Inv) (hp : s.pend = some p) (hph : p.phase = .run)
    (hready : s.engineReady = true) (ht : engineStep s = .next t) : t.stepsLeft < s.stepsLeft := by
  obtain ⟨-, hout, hin⟩ := s.engineReady_iff.1 hready
  have hphase := (State.phase_of_pend hp).trans hph
  rcases h.run_cases hp hph with ⟨k, hd, hidx⟩ | ⟨hd, hidx⟩ | hd <;> rw [engineStep_ok hp hd] at ht
  · have hheld : ¬ s.EmitHeld := by
      simpa [State.waitOut, pendInstr_ok hp hd, State.heldOut, hphase] using hout
    simp only [exec, execEncSym, hphase] at ht
    cases ht
    rcases encSymRun_pend (k := k) h hp hheld with hidle | hnext
    · exact State.stepsLeft_lt_of_idle h hp hidle
    · have hcode : (encSymRun k s).code k = s.code k := by rw [encSymRun_frame]; rfl
      rw [State.stepsLeft_encSym hnext hph hd, State.stepsLeft_encSym hp hph hd, hcode]
      dsimp only
      omega
  · have hheld : ¬ s.EmitHeld := by
      simpa [State.waitOut, pendInstr_ok hp hd, State.heldOut, hphase] using hout
    simp only [exec, execEncEof, hphase] at ht
    cases ht
    rcases encEofRun_pend h hp hheld with hidle | hnext | hpad
    · exact State.stepsLeft_lt_of_idle h hp hidle
    · have hcode : (encEofRun s).code Config.eofSymbol = s.code Config.eofSymbol := by rw [encEofRun_frame]; rfl
      rw [State.stepsLeft_encEof hnext hph hd, State.stepsLeft_encEof hp hph hd, hcode]
      dsimp only
      omega
    · rw [State.stepsLeft_pad hpad rfl, State.stepsLeft_encEof hp hph hd]
      omega
  · have hheld : ¬ s.ReadHeld := by
      simpa [State.waitIn, pendInstr_ok hp hd, State.heldIn, hphase] using hin
    have hact : s.decState = .active := by simpa [State.PendOk, hph, hd] using h.pend p hp
    simp only [exec, execDecSym, hphase] at ht
    cases ht
    rcases walkStep_pend h hp hact hheld with hidle | ⟨hsame, hcur⟩
    · exact State.stepsLeft_lt_of_idle h hp hidle
    · rw [State.stepsLeft_decSym hsame hph hd, State.stepsLeft_decSym hp hph hd]
      omega

/-- An unheld padding step completes the command. -/
theorem stepsLeft_pad_lt {s t : State} {p : Pend} (h : s.Inv) (hp : s.pend = some p) (hph : p.phase = .pad)
    (hready : s.engineReady = true) (ht : engineStep s = .next t) : t.stepsLeft < s.stepsLeft := by
  obtain ⟨-, hout, -⟩ := s.engineReady_iff.1 hready
  have hphase := (State.phase_of_pend hp).trans hph
  have hd := h.pad_encEof hp hph
  have hfull : ¬ s.OutFull := by
    simpa [State.waitOut, pendInstr_ok hp hd, State.heldOut, hphase] using hout
  rw [engineStep_ok hp hd] at ht
  simp only [exec, execEncEof, hphase] at ht
  cases ht
  exact State.stepsLeft_lt_of_idle h hp (encEofPad_pend hfull)

/-- Each engine step of a command that is not held makes the bound on its steps smaller (rules R109, R299). -/
theorem stepsLeft_engineStep_lt {s t : State} (h : s.Inv) (hready : s.engineReady = true) (ht : engineStep s = .next t) :
    t.stepsLeft < s.stepsLeft := by
  obtain ⟨p, hp⟩ := Option.isSome_iff_exists.1 (s.engineReady_iff.1 hready).1
  cases hph : p.phase with
  | validate => exact stepsLeft_validate_lt h hp hph ht
  | run => exact stepsLeft_run_lt h hp hph hready ht
  | pad => exact stepsLeft_pad_lt h hp hph hready ht

end Sys2Proof.Machine
end

section
/-! SUPPORT. Progress of a run: the turns of the engine and of the host, and the loop of a `WAIT` (rules R10, R12, R113, R299). -/

namespace Sys2Proof.Machine

/-! ### One step of a run -/

theorem engineStep_next (s : State) : ∃ t, engineStep s = .next t := by
  unfold engineStep
  split
  · exact ⟨_, rfl⟩
  · split
    · exact ⟨_, rfl⟩
    · exact exec_next _ s

theorem State.exists_next_of_not_stops {s : State} (h : ¬ s.Stops) : ∃ t, step s = .next t := by
  simpa [State.Stops] using h

/-- A run goes on with the state its last one steps to. -/
theorem runFrom_step {s t : State} {n : Nat} (h : step (runFrom n s) = .next t) : runFrom (n + 1) s = t := by
  rw [runFrom_add, runFrom_succ h]
  rfl

/-- While a run does not stop, each of its states steps to the next. -/
theorem step_runFrom {s : State} {n : Nat} (h : ¬ (runFrom n s).Stops) : step (runFrom n s) = .next (runFrom (n + 1) s) := by
  obtain ⟨t, ht⟩ := State.exists_next_of_not_stops h
  rw [runFrom_step ht, ht]

/-- On the engine's turn the machine does not stop. -/
theorem not_stops_of_engineTurn {s : State} (h : s.nextAgent = some .engine) : ¬ s.Stops := by
  obtain ⟨t, ht⟩ := engineStep_next s.turnTaken
  exact fun hs => hs t ((step_of_nextAgent h).trans ht)

@[simp] theorem State.turnTaken_hasStep (s : State) (a : Agent) : s.turnTaken.hasStep a = s.hasStep a := by
  obtain ⟨sc, d, he⟩ := s.turnTaken_eq
  rw [he, hasStep_order]

@[simp] theorem State.turnTaken_stepsLeft (s : State) : s.turnTaken.stepsLeft = s.stepsLeft := by
  obtain ⟨sc, d, he⟩ := s.turnTaken_eq
  rw [he]
  rfl

/-- No agent's step changes the order. -/
theorem sched_of_step {s t : State} (h : step s = .next t) : t.sched = s.turnTaken.sched := by
  unfold step at h
  split at h
  · next a _ =>
    cases a with
    | host => exact (hostStep_frame h).sched
    | engine => exact (engineStep_frame h).1
    | reset => cases h; rfl
  · cases h; rfl

/-- The engine's turn brings the pending command nearer its end. -/
theorem stepsLeft_engineTurn_lt {s t : State} (h : s.Inv) (hn : s.nextAgent = some .engine) (ht : step s = .next t) :
    t.stepsLeft < s.stepsLeft := by
  rw [step_of_nextAgent hn] at ht
  have hready : s.turnTaken.engineReady = true := by
    have := s.hasStep_of_nextAgent hn
    rwa [← s.turnTaken_hasStep] at this
  simpa using stepsLeft_engineStep_lt h.turnTaken hready ht

/-- No step of the machine takes the pending command further from its end. -/
theorem stepsLeft_step_le {s t : State} (h : s.Inv) (hb : s.busy = true) (ht : step s = .next t) : t.stepsLeft ≤ s.stepsLeft := by
  cases hn : s.nextAgent with
  | none =>
    simp only [step, hn] at ht
    cases ht
    simp
  | some a =>
    cases a with
    | engine => exact (stepsLeft_engineTurn_lt h hn ht).le
    | host =>
      rw [step_of_nextAgent hn] at ht
      have hb' : s.turnTaken.busy = true := by simpa [State.busy] using hb
      rw [(hostStep_frame ht).stepsLeft hb', s.turnTaken_stepsLeft]
    | reset =>
      rw [step_of_nextAgent hn] at ht
      cases ht
      simp [State.resetEvent, State.resetWith]

/-! ### The engine's turn comes (rule R12) -/

/-- The engine takes a step, or has none at some time, or the machine stops. -/
def EngineTurn (s : State) : Prop :=
  ∃ n, (runFrom n s).nextAgent = some .engine ∨ (runFrom n s).engineReady = false ∨ (runFrom n s).Stops

theorem EngineTurn.of_step {s t : State} (h : step s = .next t) (ht : EngineTurn t) : EngineTurn s := by
  obtain ⟨n, hn⟩ := ht
  exact ⟨n + 1, by rwa [runFrom_succ h]⟩

/-- Either it is so at once, or the machine steps, with the engine kept waiting. -/
theorem EngineTurn.now_or_step (s : State) :
    EngineTurn s ∨ (s.hasStep .engine = true ∧ s.nextAgent ≠ some .engine ∧ ∃ t, step s = .next t) := by
  by_cases h : s.nextAgent = some .engine ∨ s.engineReady = false ∨ s.Stops
  · exact .inl ⟨0, h⟩
  · rw [not_or, not_or, Bool.not_eq_false] at h
    exact .inr ⟨h.2.1, h.1, State.exists_next_of_not_stops h.2.2⟩

/-- Where the order has a turn that is not passed over, the turns before the engine's grow fewer. -/
theorem State.turnTaken_sched_of_ready {s : State} {a : Agent} {l : List Agent} (h : s.fromReady s.sched = a :: l) :
    s.nextAgent = some a ∧ s.turnTaken.sched = l ∧ l.length < s.sched.length := by
  have hw : s.withTurns.sched = a :: l := by simp [withTurns, h]
  have hle := s.length_fromReady_le s.sched
  rw [h, List.length_cons] at hle
  exact ⟨by simp [nextAgent, hw], by simp [turnTaken, hw], hle⟩

/-- Where every turn of the order is passed over, the engine's turn is drawn. -/
theorem State.engine_mem_turnTaken {s : State} (h : s.fromReady s.sched = []) (he : s.hasStep .engine = true)
    (hn : s.nextAgent ≠ some .engine) : .engine ∈ s.turnTaken.sched := by
  have hw : s.withTurns.sched = s.drawnTurns := by simp [withTurns, h]
  have hmem : .engine ∈ s.drawnTurns := by
    have hready := s.mem_fromReady he (l := Config.freeTurns s.draws ++ [.engine]) (by simp)
    cases hf : s.fromReady (Config.freeTurns s.draws ++ [.engine]) with
    | nil => simp [hf] at hready
    | cons a l => simpa [drawnTurns, hf] using hready
  rw [nextAgent, hw] at hn
  show .engine ∈ s.withTurns.sched.tail
  rw [hw]
  cases hd : s.drawnTurns with
  | nil => simp [hd] at hmem
  | cons a l =>
    rw [hd] at hmem hn
    exact (List.mem_cons.1 hmem).resolve_left (fun e => hn (by simp [e]))

/-- With the engine in the order, its turn comes: the turns before it grow fewer. -/
theorem engineTurn_of_mem (s : State) (hmem : .engine ∈ s.sched) : EngineTurn s := by
  induction hlen : s.sched.length using Nat.strong_induction_on generalizing s with
  | _ n ih =>
    obtain hnow | ⟨hready, hn, t, ht⟩ := EngineTurn.now_or_step s
    · exact hnow
    · have hleft := s.mem_fromReady hready hmem
      cases hf : s.fromReady s.sched with
      | nil => simp [hf] at hleft
      | cons a l =>
        obtain ⟨hnext, htail, hlt⟩ := State.turnTaken_sched_of_ready hf
        have hsched : t.sched = l := (sched_of_step ht).trans htail
        rw [hf] at hleft
        have hl : .engine ∈ l := (List.mem_cons.1 hleft).resolve_left (fun e => hn (by rw [hnext, e]))
        exact (ih l.length (hlen ▸ hlt) t (hsched ▸ hl) (by rw [hsched])).of_step ht

/-- The engine's turn comes in every run: where the order has run out, it is drawn (rule R12; log 3). -/
theorem engineTurn (s : State) : EngineTurn s := by
  induction hlen : s.sched.length using Nat.strong_induction_on generalizing s with
  | _ n ih =>
    obtain hnow | ⟨hready, hn, t, ht⟩ := EngineTurn.now_or_step s
    · exact hnow
    · cases hf : s.fromReady s.sched with
      | nil =>
        have hmem : .engine ∈ t.sched := by
          rw [sched_of_step ht]
          exact State.engine_mem_turnTaken hf hready hn
        exact (engineTurn_of_mem t hmem).of_step ht
      | cons a l =>
        obtain ⟨-, htail, hlt⟩ := State.turnTaken_sched_of_ready hf
        have hsched : t.sched = l := (sched_of_step ht).trans htail
        exact (ih l.length (hlen ▸ hlt) t (by rw [hsched])).of_step ht

/-! ### A command completes, and the host has its turn (rules R299, R12) -/

/-- While a command is pending all along, the engine takes only finitely many steps: each makes the bound smaller. -/
theorem exists_no_engineTurn_after {s : State} (h : s.Inv) (hrun : ∀ n, (runFrom n s).busy = true ∧ ¬ (runFrom n s).Stops) :
    ∃ n, ∀ m, n ≤ m → (runFrom m s).nextAgent ≠ some .engine := by
  have hmono : Antitone fun n => (runFrom n s).stepsLeft :=
    antitone_nat_of_succ_le fun n => stepsLeft_step_le (h.runFrom n) (hrun n).1 (step_runFrom (hrun n).2)
  refine ⟨Function.argmin fun n => (runFrom n s).stepsLeft, fun m hm hn => ?_⟩
  have hlt := stepsLeft_engineTurn_lt (h.runFrom m) hn (step_runFrom (hrun m).2)
  have hle := hmono hm
  exact Function.not_lt_argmin (fun n => (runFrom n s).stepsLeft) (m + 1) (lt_of_lt_of_le hlt hle)

/-- A command completes or the machine stops, unless from some time on the engine takes no step and the command is held again and
again (rule R299). -/
theorem completes_or_held {s : State} (h : s.Inv) :
    (∃ n, (runFrom n s).busy = false ∨ (runFrom n s).Stops) ∨
      ∃ n, ∀ m, n ≤ m → (runFrom m s).nextAgent ≠ some .engine ∧
        ∃ m', m ≤ m' ∧ ((runFrom m' s).waitOut = true ∨ (runFrom m' s).waitIn = true) := by
  by_cases hend : ∃ n, (runFrom n s).busy = false ∨ (runFrom n s).Stops
  · exact .inl hend
  · have hrun (n : Nat) : (runFrom n s).busy = true ∧ ¬ (runFrom n s).Stops := by
      have := not_exists.1 hend n
      rwa [not_or, Bool.not_eq_false] at this
    obtain ⟨n, hn⟩ := exists_no_engineTurn_after h hrun
    refine .inr ⟨n, fun m hm => ⟨hn m hm, ?_⟩⟩
    obtain ⟨k, hk⟩ := engineTurn (runFrom m s)
    rw [← runFrom_add] at hk
    rcases hk with hturn | hready | hstop
    · exact absurd hturn (hn _ (by omega))
    · refine ⟨m + k, by omega, ?_⟩
      exact ((State.engineReady_false_iff _).1 hready).resolve_left (by simp [(hrun _).1])
    · exact absurd hstop (hrun _).2

/-- The engine cannot take every step from some time on: each makes the bound smaller. -/
theorem not_engineTurn_forever {s : State} (h : s.Inv) (n : Nat) :
    ¬ ∀ m, n ≤ m → (runFrom m s).nextAgent = some .engine := by
  intro hall
  let m := Function.argmin fun k => (runFrom (n + k) s).stepsLeft
  have hn := hall (n + m) (by omega)
  have hlt := stepsLeft_engineTurn_lt (h.runFrom _) hn (step_runFrom (not_stops_of_engineTurn hn))
  exact Function.not_lt_argmin (fun k => (runFrom (n + k) s).stepsLeft) (m + 1) hlt

/-- The host has its turn or its program has ended, unless resets never end (rule R299). -/
theorem hostTurn_or_resets {s : State} (h : s.Inv) :
    (∃ n, (runFrom n s).nextAgent = some .host ∨ (runFrom n s).hostStmt = none) ∨
      ∀ n, ∃ m, n ≤ m ∧ (runFrom m s).nextAgent = some .reset := by
  by_contra hno
  rw [not_or] at hno
  obtain ⟨hhost, hreset⟩ := hno
  obtain ⟨n, hn⟩ := not_forall.1 hreset
  refine not_engineTurn_forever h n fun m hm => ?_
  obtain ⟨hnext, hstmt⟩ := not_or.1 (not_exists.1 hhost m)
  obtain ⟨a, ha⟩ := (runFrom m s).nextAgent_of_ready (.inr (Option.isSome_iff_ne_none.2 hstmt))
  cases a with
  | host => exact absurd ha hnext
  | engine => exact ha
  | reset => exact absurd ⟨m, hm, ha⟩ hn

/-! ### A host at a `WAIT` (rule R113) -/

/-- The two statements of a `WAIT` stand at `k` and `k + 1` of the host's program, and its label at `k` alone. -/
structure HasWait (k label : Nat) (s : State) : Prop where
  rd : ∃ labels, s.host.prog[k]? = some { labels := labels, op := .rd (s.params.base + 0x08) 4 }
  bne : ∃ labels, s.host.prog[k + 1]? = some { labels := labels, op := .bne 1 0 label }
  site : labelSites label 0 s.host.prog = [k]

/-- The host is at one of the two. -/
structure AtWait (k label : Nat) (s : State) : Prop extends HasWait k label s where
  next : s.host.next = k ∨ s.host.next = k + 1

section

variable {k label : Nat} {s : State}

theorem HasWait.congr {t : State} (h : HasWait k label s) (hprog : t.host.prog = s.host.prog) (hparams : t.params = s.params) :
    HasWait k label t :=
  ⟨by rw [hprog, hparams]; exact h.rd, by rw [hprog]; exact h.bne, by rw [hprog]; exact h.site⟩

theorem AtWait.congr {t : State} (h : AtWait k label s) (hhost : t.host = s.host) (hparams : t.params = s.params) :
    AtWait k label t :=
  ⟨h.toHasWait.congr (by rw [hhost]) hparams, by rw [hhost]; exact h.next⟩

theorem AtWait.turnTaken (h : AtWait k label s) : AtWait k label s.turnTaken := h.congr s.turnTaken_host s.turnTaken_params

/-- The `RD STATUS` of a `WAIT` (rules R42, R75). -/
theorem HasWait.hostStep_rd (h : HasWait k label s) (hk : s.host.next = k) :
    ∃ t, hostStep s = .next t ∧ HasWait k label t ∧ t.host.next = k + 1 ∧ t.host.v = some s.status ∧ t.pend = s.pend := by
  obtain ⟨_, hrd⟩ := h.rd
  have hadm : admitted s.params (s.params.base + 0x08) 4 = some 0x08 := by simp [admitted]
  have hread : s.readAt 0x08 = (s.status, s) := by
    simp [State.readAt, Reg.at?, State.readReg, Reg.openWhileBusy, State.regValue, State.afterRead]
  have hs : hostStep s = .next (s.hostGot 0x08 s.status).hostNext := by
    simp [hostStep, State.hostStmt, hk, hrd, hostDo, hostRead, hadm, hread]
  exact ⟨_, hs, h.congr rfl rfl, by simp [hk], rfl, rfl⟩

theorem State.testValue_frame (s : State) :
    s.testValue.2.host = s.host ∧ s.testValue.2.params = s.params ∧ s.testValue.2.pend = s.pend := by
  unfold State.testValue
  split <;> exact ⟨rfl, rfl, rfl⟩

/-- The `BNE` of a `WAIT`: back to the read while the tested value has the busy bit (rule R115). -/
theorem HasWait.hostStep_bne (h : HasWait k label s) (hk : s.host.next = k + 1) :
    ∃ t, hostStep s = .next t ∧ HasWait k label t ∧ t.host.next = (if s.testValue.1 &&& 1 = 0 then k + 2 else k) ∧
      t.pend = s.pend := by
  obtain ⟨_, hbne⟩ := h.bne
  obtain ⟨hhost, hparams, hpend⟩ := s.testValue_frame
  have hs : hostStep s = if s.testValue.1 &&& 1 = 0 then .next s.testValue.2.hostNext else hostJump label s.testValue.2 := by
    simp [hostStep, State.hostStmt, hk, hbne, hostDo]
  rw [hs]
  split
  · exact ⟨_, rfl, h.congr (by simp [hhost]) hparams, by simp [hhost, hk], hpend⟩
  · have hjump : hostJump label s.testValue.2 = .next { s.testValue.2 with host := { s.testValue.2.host with next := k } } := by
      simp [hostJump, hhost, h.site]
    exact ⟨_, hjump, h.congr (by simp [hhost]) hparams, rfl, hpend⟩

/-- A host step in a `WAIT` answers, stays in it or leaves it by its end, and issues no command. -/
theorem AtWait.hostStep (h : AtWait k label s) :
    ∃ t, hostStep s = .next t ∧ (AtWait k label t ∨ t.host.next = k + 2) ∧ t.pend = s.pend := by
  rcases h.next with hk | hk
  · obtain ⟨t, ht, hw, hnext, -, hpend⟩ := h.hostStep_rd hk
    exact ⟨t, ht, .inl ⟨hw, .inr hnext⟩, hpend⟩
  · obtain ⟨t, ht, hw, hnext, hpend⟩ := h.hostStep_bne hk
    refine ⟨t, ht, ?_, hpend⟩
    split at hnext
    · exact .inr hnext
    · exact .inl ⟨hw, .inl hnext⟩

/-- In a `WAIT` the host has a statement, so somebody steps. -/
theorem AtWait.nextAgent (h : AtWait k label s) : ∃ a, s.nextAgent = some a := by
  obtain ⟨_, hrd⟩ := h.rd
  obtain ⟨_, hbne⟩ := h.bne
  refine s.nextAgent_of_ready (.inr ?_)
  rcases h.next with hk | hk <;> simp [State.hasStep, State.hostStmt, hk, hrd, hbne]

/-- In a `WAIT`, but for a reset, the machine steps, and the host stays there or leaves by its end. -/
theorem AtWait.step (h : AtWait k label s) (hn : s.nextAgent ≠ some .reset) :
    ∃ t, step s = .next t ∧ (AtWait k label t ∨ t.host.next = k + 2) := by
  obtain ⟨a, ha⟩ := h.nextAgent
  rw [step_of_nextAgent ha]
  cases a with
  | host =>
    obtain ⟨t, ht, hat, -⟩ := h.turnTaken.hostStep
    exact ⟨t, ht, hat⟩
  | engine =>
    obtain ⟨t, ht⟩ := engineStep_next s.turnTaken
    obtain ⟨-, -, hhost, hparams⟩ := engineStep_frame ht
    exact ⟨t, ht, .inl (h.turnTaken.congr hhost hparams)⟩
  | reset => exact absurd ha hn

/-- In a `WAIT` with the block idle, but for a reset, it is the host's turn. -/
theorem AtWait.step_idle (h : AtWait k label s) (hb : s.busy = false) (hn : s.nextAgent ≠ some .reset) :
    Machine.step s = Machine.hostStep s.turnTaken := by
  obtain ⟨a, ha⟩ := h.nextAgent
  cases a with
  | host => exact step_of_nextAgent ha
  | engine => simp [(s.engineReady_iff.1 (s.hasStep_of_nextAgent ha)).1] at hb
  | reset => exact absurd ha hn

/-- Bit 0 of `STATUS` is `BUSY` (rule R42). -/
theorem State.status_bit_zero (s : State) : s.status.getLsbD 0 = s.busy := by
  unfold State.status
  rw [BitVec.getLsbD_append]
  simp

/-- While idle, a `STATUS` read has no busy bit. -/
theorem State.status_idle (h : s.busy = false) : s.status &&& 1 = 0 := by
  apply BitVec.eq_of_getLsbD_eq
  intro i _
  cases i with
  | zero => rw [BitVec.getLsbD_and, s.status_bit_zero, h]; simp
  | succ i => simp [BitVec.getLsbD_one]

/-- The host comes to the statement after the `WAIT`, or a reset comes, or the command is held. -/
def WaitLeft (k : Nat) (s : State) : Prop :=
  ∃ n, (runFrom n s).host.next = k + 2 ∨ (runFrom n s).nextAgent = some .reset ∨ (runFrom n s).waitOut = true ∨
    (runFrom n s).waitIn = true

theorem WaitLeft.of_runFrom (m : Nat) (h : WaitLeft k (runFrom m s)) : WaitLeft k s := by
  obtain ⟨n, hn⟩ := h
  exact ⟨m + n, by rwa [runFrom_add]⟩

theorem WaitLeft.of_step {t : State} (hs : step s = .next t) (h : WaitLeft k t) : WaitLeft k s :=
  .of_runFrom 1 (by rwa [runFrom_succ hs])

/-- At the branch, with a `STATUS` read while idle, the host goes on past the `WAIT`. -/
theorem AtWait.waitLeft_of_idle_value (h : AtWait k label s) (hk : s.host.next = k + 1) (hb : s.busy = false) {v : Word}
    (hv : s.host.v = some v) (hv0 : v &&& 1 = 0) : WaitLeft k s := by
  by_cases hn : s.nextAgent = some .reset
  · exact ⟨0, .inr (.inl hn)⟩
  · obtain ⟨t, ht, -, hnext, -⟩ := h.turnTaken.hostStep_bne (by simpa using hk)
    have htest : s.turnTaken.testValue.1 = v := by simp [State.testValue, hv]
    rw [htest, if_pos hv0] at hnext
    exact .of_step ((h.step_idle hb hn).trans ht) ⟨0, .inl hnext⟩

/-- At the read, with the block idle, the host reads so and goes on past the `WAIT`. -/
theorem AtWait.waitLeft_of_idle_read (h : AtWait k label s) (hk : s.host.next = k) (hb : s.busy = false) : WaitLeft k s := by
  by_cases hn : s.nextAgent = some .reset
  · exact ⟨0, .inr (.inl hn)⟩
  · obtain ⟨t, ht, hw, hnext, hv, hpend⟩ := h.turnTaken.hostStep_rd (by simpa using hk)
    have hbt : t.busy = false := by simpa [State.busy, hpend] using hb
    refine .of_step ((h.step_idle hb hn).trans ht) ?_
    exact AtWait.waitLeft_of_idle_value ⟨hw, .inr hnext⟩ hnext hbt hv (State.status_idle (by simpa [State.busy] using hb))

/-- From either statement of a `WAIT` the host leaves it where the block is idle. -/
theorem AtWait.waitLeft_of_idle (h : AtWait k label s) (hb : s.busy = false) : WaitLeft k s := by
  rcases h.next with hk | hk
  · exact h.waitLeft_of_idle_read hk hb
  · by_cases hn : s.nextAgent = some .reset
    · exact ⟨0, .inr (.inl hn)⟩
    · obtain ⟨t, ht, hw, hnext, hpend⟩ := h.turnTaken.hostStep_bne (by simpa using hk)
      have hbt : t.busy = false := by simpa [State.busy, hpend] using hb
      refine .of_step ((h.step_idle hb hn).trans ht) ?_
      split at hnext
      · exact ⟨0, .inl hnext⟩
      · exact AtWait.waitLeft_of_idle_read ⟨hw, .inl hnext⟩ hnext hbt

/-- A host that never leaves a `WAIT` stays at it. -/
theorem AtWait.runFrom (h : AtWait k label s) (hno : ¬ WaitLeft k s) (n : Nat) : AtWait k label (runFrom n s) := by
  induction n with
  | zero => exact h
  | succ n ih =>
    have hreset : (Machine.runFrom n s).nextAgent ≠ some .reset := fun hr => hno ⟨n, .inr (.inl hr)⟩
    obtain ⟨t, ht, hat⟩ := ih.step hreset
    rw [runFrom_step ht]
    refine hat.resolve_right fun hleft => hno ⟨n + 1, .inl ?_⟩
    rw [runFrom_step ht, hleft]

/-- A host at a `WAIT` leaves it, unless a reset comes or the command is held (rules R113, R299). -/
theorem AtWait.waitLeft (h : AtWait k label s) (hinv : s.Inv) : WaitLeft k s := by
  by_contra hno
  have hat := h.runFrom hno
  rcases completes_or_held hinv with ⟨n, hidle | hstop⟩ | ⟨n, hheld⟩
  · exact hno (.of_runFrom n ((hat n).waitLeft_of_idle hidle))
  · have hreset : (Machine.runFrom n s).nextAgent ≠ some .reset := fun hr => hno ⟨n, .inr (.inl hr)⟩
    obtain ⟨t, ht, -⟩ := (hat n).step hreset
    exact hstop t ht
  · obtain ⟨-, m, -, hwait⟩ := hheld n le_rfl
    exact hno ⟨m, .inr (.inr hwait)⟩

end

/-- Settles O60: the bound by `stepsLeft_engineStep_lt`, and a clause of every run by each of `engineTurn`, `completes_or_held`,
`hostTurn_or_resets` and `AtWait.waitLeft`. -/
theorem unheldCommandsProgress : Obligations.UnheldCommandsProgress := by
  unfold Obligations.UnheldCommandsProgress
  refine ⟨fun s t h _ hready ht => stepsLeft_engineStep_lt h hready ht, fun s hs => ?_, fun s h => ?_⟩
  · obtain ⟨a, ha⟩ := s.nextAgent_of_ready (hs.imp_right Option.isSome_iff_ne_none.2)
    exact ⟨a, ha, s.hasStep_of_nextAgent ha⟩
  · refine ⟨engineTurn s, completes_or_held h, hostTurn_or_resets h, fun label labels hrd hbne hsite => ?_⟩
    exact AtWait.waitLeft ⟨⟨⟨labels, hrd⟩, hbne, hsite⟩, .inl rfl⟩ h

end Sys2Proof.Machine
end

section
/-! SUPPORT. The invariant over a step and at reset, the reset values, and the weight of the root (rules R28, R35, R61). -/

namespace Sys2Proof.Machine

/-- Settles O56, by `inv_step`. -/
theorem everyStepKeepsTheInvariant : Obligations.EveryStepKeepsTheInvariant :=
  fun _ _ => inv_step

/-- Settles O55: the default parameters are in the ranges of rule R6, and for all of those `inv_resetWith` holds. -/
theorem invariantAtReset : Obligations.InvariantAtReset :=
  ⟨inv_resetWith (by decide), fun _ => inv_resetWith⟩

/-- The parameter registers show the parameters alone (rules R58, R59). -/
theorem regValue_params_congr {s t : State} (h : t.params = s.params) :
    t.regValue .param0 = s.regValue .param0 ∧ t.regValue .param1 = s.regValue .param1 := by
  simp [State.regValue, h]

/-- `STATUS` after a reset (rules R42, R61). -/
theorem State.status_resetEvent (s : State) : s.resetEvent.status = 0 := by
  simp [State.status, State.waitIn, State.waitOut, State.pendInstr, State.err, State.busy, State.resetEvent, State.resetWith,
    ErrorReg.clear, UnitState.bits]

/-- The `ERROR` register after a reset reads 0 (rules R48, R61). -/
theorem ErrorReg.word_clear : ErrorReg.clear.word = 0 := by decide

/-- Settles O54: the step is the reset event on the state with the turn taken, which holds every value of rule R61. -/
theorem resetGivesTheResetValues : Obligations.ResetGivesTheResetValues := by
  unfold Obligations.ResetGivesTheResetValues
  intro s h
  obtain ⟨hparam0, hparam1⟩ : s.turnTaken.resetEvent.regValue .param0 = s.regValue .param0 ∧
      s.turnTaken.resetEvent.regValue .param1 = s.regValue .param1 := regValue_params_congr s.turnTaken_params
  exact ⟨s.turnTaken.resetEvent, step_of_nextAgent h, fun k hk => countOf_nil hk, rfl, rfl, rfl, rfl, rfl, rfl, rfl, rfl, rfl, rfl,
    rfl, rfl, rfl, rfl, rfl, rfl, rfl, rfl, rfl, rfl, rfl, rfl, ErrorReg.word_clear, rfl, rfl, s.turnTaken.status_resetEvent, rfl,
    hparam0, hparam1⟩

/-- Settles O22: the root's record is the built tree's, whose weight is the sum over the present symbols, and the others count 0. -/
theorem rootWeighsAllCounts : Obligations.RootWeighsAllCounts := by
  unfold Obligations.RootWeighsAllCounts
  intro s t h
  have hb := treeBuilt h
  have hroot : t.node t.root = recordAt (buildTree s.count).nodes (buildTree s.count).root := by
    rw [hb.node hb.holds.root_lt, hb.root]
  calc (t.node t.root).weight.toNat
      = ((presentSymbols s.count).map fun k => (s.countAt k).toNat).sum := by
        rw [hroot, (buildTree_shape s.count).weight]; rfl
    _ = ((List.range 257).map fun k => (s.countAt k).toNat).sum := sum_present s _ fun k _ hk => by simp [hk]
    _ = ((List.range 256).map fun k => (s.countAt k).toNat).sum + 1 := by
        rw [List.range_succ, List.map_append, List.sum_append]; rfl

end Sys2Proof.Machine
end

section
/-! SUPPORT. The register window: what a write while idle stores, and the fields of the packed registers (10_state.md). -/

namespace Sys2Proof.Machine

/-! ### Writes while idle (rules R41, R44, R45, R60, R77, R258) -/

theorem State.writeReg_idle {s : State} (h : s.busy = false) (r : Reg) (v : Word) : s.writeReg r v = s.storeReg v r := by
  simp [State.writeReg, h]

/-- Only six registers take a write; the others ignore it (rule R60). -/
theorem State.storeReg_of_readOnly {s : State} {r : Reg} {v : Word} (hcmd : r ≠ .cmd) (hlo : r ≠ .dataLo) (hhi : r ≠ .dataHi)
    (herr : r ≠ .error) (hctrl : r ≠ .ctrl) (hin : r ≠ .inData) : s.storeReg v r = s := by
  cases r with
  | cmd => exact absurd rfl hcmd
  | dataLo => exact absurd rfl hlo
  | dataHi => exact absurd rfl hhi
  | error => exact absurd rfl herr
  | ctrl => exact absurd rfl hctrl
  | inData => exact absurd rfl hin
  | _ => rfl

/-- Settles O51: a write while idle is accepted, and what it stores is told by its register. -/
theorem idleWritesStore : Obligations.IdleWritesStore := by
  unfold Obligations.IdleWritesStore
  intro s r v h
  rw [State.writeReg_idle h]
  refine ⟨?lo, ?hi, ?ctrl, ?error, State.storeReg_of_readOnly⟩
  all_goals (rintro rfl; rfl)

/-! ### The fields of a packed word, each told by the fields that stand below it -/

namespace PackedWord

section

variable {v w i start len : Nat} {hi : BitVec v} {lo : BitVec w}

/-- A field that stands above the lowest one. -/
theorem above {x : BitVec len} (h : hi.extractLsb' (start - w) len = x) (hle : w ≤ start := by decide) :
    (hi ++ lo).extractLsb' start len = x := by
  rw [BitVec.extractLsb'_append_eq_of_le hle, h]

/-- A bit that stands above the lowest field. -/
theorem bit_above {b : Bool} (h : hi.getLsbD (i - w) = b) (hle : w ≤ i := by decide) : (hi ++ lo).getLsbD i = b := by
  rw [BitVec.getLsbD_append, if_neg (by omega), h]

/-- A flag at the bottom. -/
theorem flag {b : Bool} : (hi ++ BitVec.ofBool b).getLsbD 0 = b := by
  rw [BitVec.getLsbD_append]
  simp

end

end PackedWord

/-- The number of a unit's state (rules R32, R33). -/
theorem UnitState.bits_eq (u : UnitState) : u.bits = (match u with | .idle => 0 | .active => 1 | .done => 2 | .failed => 3) := by
  cases u <;> rfl

open PackedWord
open BitVec (extractLsb'_append_eq_right extractLsb'_eq_self)

/-- Settles O52: a register kept whole shows itself, and a field of a packed one is told by those below it. -/
theorem packedRegisterFields : Obligations.PackedRegisterFields := by
  unfold Obligations.PackedRegisterFields
  intro s
  refine ⟨⟨rfl, rfl, ?inEnd, ?ctrlReserved, rfl, rfl, rfl, rfl⟩, ⟨rfl, rfl, rfl, rfl, rfl, rfl⟩, ?status, ?error, ?decPos, ?encPos,
    ?fifoLevel, ?treeInfo, ?param0, ?param1⟩
  case inEnd => simp [State.regValue]
  case ctrlReserved =>
    ext j hj
    simp [State.regValue]
  case status =>
    refine ⟨flag, bit_above flag, bit_above (bit_above flag), bit_above (bit_above (bit_above flag)), ?enc, ?dec, ?waitOut, ?waitIn,
      above (above (above (above (above (above (above (above extractLsb'_eq_self)))))))⟩
    case enc =>
      exact (above (above (above (above extractLsb'_append_eq_right)))).trans (UnitState.bits_eq s.encState)
    case dec =>
      exact (above (above (above (above (above extractLsb'_append_eq_right))))).trans (UnitState.bits_eq s.decState)
    case waitOut => exact bit_above (bit_above (bit_above (bit_above (bit_above (bit_above flag)))))
    case waitIn => exact bit_above (bit_above (bit_above (bit_above (bit_above (bit_above (bit_above flag))))))
  case error =>
    exact ⟨extractLsb'_append_eq_right, above extractLsb'_append_eq_right, above (above extractLsb'_append_eq_right),
      above (above (above extractLsb'_append_eq_right)), bit_above (bit_above (bit_above (bit_above (by simp))))⟩
  case decPos =>
    exact ⟨extractLsb'_append_eq_right, above extractLsb'_append_eq_right, above (above extractLsb'_append_eq_right),
      above (above (above extractLsb'_append_eq_right)), above (above (above (above extractLsb'_eq_self)))⟩
  case encPos => exact ⟨extractLsb'_append_eq_right, above extractLsb'_append_eq_right, above (above extractLsb'_eq_self)⟩
  case fifoLevel => exact ⟨extractLsb'_append_eq_right, above extractLsb'_eq_self⟩
  case treeInfo =>
    exact ⟨extractLsb'_append_eq_right, above extractLsb'_append_eq_right, above (above extractLsb'_append_eq_right),
      above (above (above extractLsb'_eq_self))⟩
  case param0 => exact ⟨extractLsb'_append_eq_right, above extractLsb'_eq_self⟩
  case param1 =>
    exact ⟨extractLsb'_append_eq_right, above extractLsb'_append_eq_right, above (above extractLsb'_append_eq_right),
      above (above (above extractLsb'_eq_self))⟩

end Sys2Proof.Machine
end

section
/-! SUPPORT. The holds: where `WAIT_OUT` and `WAIT_IN` are 1, and that a held step changes nothing (rules R11, R42, R85, R190, R191,
R210). -/

namespace Sys2Proof.Machine

/-! ### The flags -/

/-- A property of the command pending is one of the command its word decodes to. -/
theorem State.pendInstr_any_iff (s : State) (f : Instr → Bool) :
    s.pendInstr.any f = true ↔ ∃ p i, s.pend = some p ∧ decode p.word = .ok i ∧ f i = true := by
  cases hp : s.pend with
  | none => simp [State.pendInstr, hp]
  | some p =>
    cases hd : decode p.word with
    | error e => simp [pendInstr_error hp hd, hd]
    | ok i => simp [pendInstr_ok hp hd, hd]

theorem State.heldOut_encSym {s : State} (h : s.phase = .run) (k : Nat) : s.heldOut (.encSym k) = true ↔ s.EmitHeld := by
  simp [State.heldOut, h]

theorem State.heldOut_encEof_run {s : State} (h : s.phase = .run) : s.heldOut .encEof = true ↔ s.EmitHeld := by
  simp [State.heldOut, h]

theorem State.heldOut_encEof_pad {s : State} (h : s.phase = .pad) : s.heldOut .encEof = true ↔ s.OutFull := by
  simp [State.heldOut, h]

theorem State.heldIn_decSym {s : State} (h : s.phase = .run) : s.heldIn .decSym = true ↔ s.ReadHeld := by
  simp [State.heldIn, h]

/-- No command is held in its validation. -/
theorem State.not_held_validate {s : State} (h : s.phase = .validate) (i : Instr) : s.heldOut i = false ∧ s.heldIn i = false := by
  cases i <;> simp [State.heldOut, State.heldIn, h]

/-- Where the output hold is, in the states of the invariant (rules R190, R191). -/
theorem State.Inv.waitOut_iff {s : State} (h : s.Inv) :
    s.waitOut = true ↔ s.OutFull ∧ ∃ p, s.pend = some p ∧
      ((p.phase = .run ∧ s.encN = 7 ∧ ((∃ k, decode p.word = .ok (.encSym k)) ∨ decode p.word = .ok .encEof)) ∨
        (p.phase = .pad ∧ decode p.word = .ok .encEof)) := by
  rw [State.waitOut, s.pendInstr_any_iff]
  constructor
  · rintro ⟨p, i, hp, hd, hheld⟩
    have hphase := State.phase_of_pend hp
    cases hph : p.phase with
    | validate => simp [(State.not_held_validate (hphase.trans hph) i).1] at hheld
    | run =>
      cases i with
      | encSym k =>
        obtain ⟨hn, hfull⟩ := (State.heldOut_encSym (hphase.trans hph) k).1 hheld
        exact ⟨hfull, p, hp, .inl ⟨hph, hn, .inl ⟨k, hd⟩⟩⟩
      | encEof =>
        obtain ⟨hn, hfull⟩ := (State.heldOut_encEof_run (hphase.trans hph)).1 hheld
        exact ⟨hfull, p, hp, .inl ⟨hph, hn, .inr hd⟩⟩
      | _ => cases hheld
    | pad =>
      have hpad := h.pad_encEof hp hph
      obtain rfl : i = .encEof := Except.ok.inj (hd.symm.trans hpad)
      exact ⟨(State.heldOut_encEof_pad (hphase.trans hph)).1 hheld, p, hp, .inr ⟨hph, hpad⟩⟩
  · rintro ⟨hfull, p, hp, ⟨hph, hn, ⟨k, hd⟩ | hd⟩ | ⟨hph, hd⟩⟩ <;> have hphase := (State.phase_of_pend hp).trans hph
    · exact ⟨p, _, hp, hd, (State.heldOut_encSym hphase k).2 ⟨hn, hfull⟩⟩
    · exact ⟨p, _, hp, hd, (State.heldOut_encEof_run hphase).2 ⟨hn, hfull⟩⟩
    · exact ⟨p, _, hp, hd, (State.heldOut_encEof_pad hphase).2 hfull⟩

/-- Where the input hold is, in the states of the invariant (rule R210). -/
theorem State.Inv.waitIn_iff {s : State} (h : s.Inv) :
    s.waitIn = true ↔ s.ReadHeld ∧ ∃ p, s.pend = some p ∧ p.phase = .run ∧ decode p.word = .ok .decSym := by
  rw [State.waitIn, s.pendInstr_any_iff]
  constructor
  · rintro ⟨p, i, hp, hd, hheld⟩
    have hphase := State.phase_of_pend hp
    cases i with
    | decSym =>
      cases hph : p.phase with
      | validate => simp [(State.not_held_validate (hphase.trans hph) .decSym).2] at hheld
      | run => exact ⟨(State.heldIn_decSym (hphase.trans hph)).1 hheld, p, hp, hph, hd⟩
      | pad => exact absurd (hd.symm.trans (h.pad_encEof hp hph)) (by simp)
    | _ => cases hheld
  · rintro ⟨hheld, p, hp, hph, hd⟩
    exact ⟨p, _, hp, hd, (State.heldIn_decSym ((State.phase_of_pend hp).trans hph)).2 hheld⟩

/-! ### A held step changes nothing -/

theorem emitBit_held (b : Bool) {s : State} (h : s.EmitHeld) : emitBit b s = none := if_pos h

theorem padByte_held {s : State} (h : s.OutFull) : padByte s = none := if_pos h

theorem readBit_held {s : State} (h : s.ReadHeld) : readBit s = .hold := by
  obtain ⟨havail, hfifo, hend⟩ := h
  simp [readBit, havail, hfifo, hend]

theorem encSymRun_held (k : Nat) {s : State} (h : s.EmitHeld) : encSymRun k s = s := by
  simp [encSymRun, emitBit_held _ h]

theorem encEofRun_held {s : State} (h : s.EmitHeld) : encEofRun s = s := by
  simp [encEofRun, emitBit_held _ h]

theorem encEofPad_held {s : State} (h : s.OutFull) : encEofPad s = s := by
  simp [encEofPad, padByte_held h]

theorem walkStep_held {s : State} (h : s.ReadHeld) : walkStep s = s := by
  simp [walkStep, readBit_held h]

/-- A step held for output space changes nothing (rules R190, R191). -/
theorem engineStep_of_waitOut {s : State} (h : s.Inv) (hw : s.waitOut = true) : engineStep s = .next s := by
  obtain ⟨hfull, p, hp, ⟨hph, hn, ⟨k, hd⟩ | hd⟩ | ⟨hph, hd⟩⟩ := h.waitOut_iff.1 hw <;>
    have hphase := (State.phase_of_pend hp).trans hph <;> rw [engineStep_ok hp hd]
  · simp [exec, execEncSym, hphase, encSymRun_held k ⟨hn, hfull⟩]
  · simp [exec, execEncEof, hphase, encEofRun_held ⟨hn, hfull⟩]
  · simp [exec, execEncEof, hphase, encEofPad_held hfull]

/-- A step held for input changes nothing (rule R210). -/
theorem engineStep_of_waitIn {s : State} (h : s.Inv) (hw : s.waitIn = true) : engineStep s = .next s := by
  obtain ⟨hheld, p, hp, hph, hd⟩ := h.waitIn_iff.1 hw
  rw [engineStep_ok hp hd]
  simp [exec, execDecSym, (State.phase_of_pend hp).trans hph, walkStep_held hheld]

/-- An engine step that changes nothing is held: one that is not brings its command nearer its end (rule R299). -/
theorem waits_of_engineStep_self {s : State} (h : s.Inv) (hb : s.busy = true) (hs : engineStep s = .next s) :
    s.waitOut = true ∨ s.waitIn = true := by
  cases hready : s.engineReady with
  | true => exact absurd (stepsLeft_engineStep_lt h hready hs) (lt_irrefl _)
  | false => exact (s.engineReady_false_iff.1 hready).resolve_left (by simp [hb])

/-- Settles O9: where the flags are 1 by `waitOut_iff` and `waitIn_iff`; a step is held there, and only there by the bound on its
command's steps. -/
theorem heldExactlyWhereWaitSays : Obligations.HeldExactlyWhereWaitSays := by
  unfold Obligations.HeldExactlyWhereWaitSays
  exact fun s h => ⟨h.waitOut_iff, h.waitIn_iff, fun hb => ⟨waits_of_engineStep_self h hb, fun hw =>
    hw.elim (engineStep_of_waitOut h) (engineStep_of_waitIn h)⟩⟩

end Sys2Proof.Machine
end

section
/-! SUPPORT. What a step of each agent can do to `ERROR`, to the frequency table and to the node store, said once (rules R62, R71,
R255, R258, R259). -/

namespace Sys2Proof.Machine

/-! ### Recording keeps the first error (rule R259) -/

/-- `q` is `r`, or `r` with one more error recorded. -/
def ErrorReg.After (r q : ErrorReg) : Prop := q = r ∨ ∃ e src info, q = r.record e src info

theorem ErrorReg.After.first_kept {r q : ErrorReg} (h : r.After q) (h0 : r.code ≠ 0) :
    q.code = r.code ∧ q.src = r.src ∧ q.info = r.info ∧ (r.multi = true → q.multi = true) := by
  rcases h with rfl | ⟨e, src, info, rfl⟩
  · exact ⟨rfl, rfl, rfl, id⟩
  · rw [record_later h0]
    exact ⟨rfl, rfl, rfl, fun _ => rfl⟩

/-! ### The engine -/

/-- What an engine step can do to `ERROR` and the two stores. -/
structure EngineEffect (s t : State) : Prop where
  error : s.error.After t.error
  count : t.count = s.count ∨ (t.treeValid = false ∧ t.codeValid = false ∧ t.encState = .idle ∧ t.decState = .idle)
  nodes : t.nodes = s.nodes ∨ (t.codeValid = false ∧ t.encState = .idle ∧ t.decState = .idle)

namespace EngineEffect

variable {s t u : State}

/-- A step that leaves all three alone. -/
theorem of_eq (he : t.error = s.error) (hc : t.count = s.count) (hn : t.nodes = s.nodes) : EngineEffect s t :=
  ⟨.inl he, .inl hc, .inl hn⟩

/-- A step after one that leaves all three alone. -/
theorem after (he : t.error = s.error) (hc : t.count = s.count) (hn : t.nodes = s.nodes) (h : EngineEffect t u) :
    EngineEffect s u :=
  ⟨he ▸ h.error, hc ▸ h.count, hn ▸ h.nodes⟩

theorem raiseCmd (unit : FailedUnit) (e : ErrorKind) (info : BitVec 10) : EngineEffect s (s.raiseCmd unit e info) :=
  ⟨.inr ⟨e, s.pendOp, info, by simp⟩, .inl (by simp), .inl (by simp)⟩

/-- A new frequency table, with what was derived from the old one invalidated (rule R62). -/
theorem newCounts (c : Table Word) : EngineEffect s ({ s with count := c } : State).invalidate.complete :=
  ⟨.inl rfl, .inr ⟨rfl, rfl, rfl, rfl⟩, .inl rfl⟩

theorem of_execFreqInc {k : Nat} (ht : execFreqInc k s = .next t) : EngineEffect s t := by
  unfold execFreqInc at ht
  split at ht
  · cases ht; exact raiseCmd _ _ _
  · split at ht
    · cases ht; exact raiseCmd _ _ _
    · cases ht; exact newCounts _

theorem of_execFreqWrite {k : Nat} (ht : execFreqWrite k s = .next t) : EngineEffect s t := by
  unfold execFreqWrite at ht
  split at ht
  · cases ht; exact raiseCmd _ _ _
  · split at ht
    · cases ht; exact raiseCmd _ _ _
    · split at ht
      · cases ht; exact raiseCmd _ _ _
      · split at ht
        · cases ht; exact newCounts _
        · cases ht; exact newCounts s.count

theorem of_execFreqRead {k : Nat} (ht : execFreqRead k s = .next t) : EngineEffect s t := by
  unfold execFreqRead at ht
  split at ht
  · cases ht; exact raiseCmd _ _ _
  · cases ht; exact of_eq rfl rfl rfl

theorem of_execTreeBuild (ht : execTreeBuild s = .next t) : EngineEffect s t := by
  cases ht
  exact ⟨.inl rfl, .inl rfl, .inr ⟨rfl, rfl, rfl⟩⟩

theorem of_execNodeRead {i : Nat} (ht : execNodeRead i s = .next t) : EngineEffect s t := by
  unfold execNodeRead at ht
  split at ht
  · cases ht; exact raiseCmd _ _ _
  · split at ht
    · cases ht; exact raiseCmd _ _ _
    · cases ht; exact of_eq rfl rfl rfl

theorem of_execCodeBuild (ht : execCodeBuild s = .next t) : EngineEffect s t := by
  unfold execCodeBuild at ht
  split at ht
  · cases ht; exact raiseCmd _ _ _
  · cases ht; exact of_eq rfl rfl rfl

theorem of_execCodeRead {k w : Nat} (ht : execCodeRead k w s = .next t) : EngineEffect s t := by
  unfold execCodeRead at ht
  split at ht
  · cases ht; exact raiseCmd _ _ _
  · split at ht
    · cases ht; exact raiseCmd _ _ _
    · cases ht; exact of_eq rfl rfl rfl

theorem of_execEncStart (ht : execEncStart s = .next t) : EngineEffect s t := by
  unfold execEncStart at ht
  split at ht
  · cases ht; exact raiseCmd _ _ _
  · cases ht; exact of_eq rfl rfl rfl

theorem of_execDecStart (ht : execDecStart s = .next t) : EngineEffect s t := by
  unfold execDecStart at ht
  split at ht
  · cases ht; exact raiseCmd _ _ _
  · cases ht; exact of_eq rfl rfl rfl

theorem of_encSymValidate (k : Nat) : EngineEffect s (encSymValidate k s) := by
  unfold encSymValidate
  split
  · exact raiseCmd _ _ _
  · split
    · exact raiseCmd _ _ _
    · split
      · exact raiseCmd _ _ _
      · exact of_eq rfl rfl rfl

theorem of_encSymRun (k : Nat) : EngineEffect s (encSymRun k s) := by
  rw [encSymRun_frame]
  exact of_eq rfl rfl rfl

theorem of_execEncSym {k : Nat} (ht : execEncSym k s = .next t) : EngineEffect s t := by
  unfold execEncSym at ht
  split at ht <;> cases ht
  · exact of_encSymValidate k
  · exact of_encSymRun k
  · exact of_encSymRun k

theorem of_encEofValidate : EngineEffect s (encEofValidate s) := by
  unfold encEofValidate
  split
  · exact raiseCmd _ _ _
  · exact of_eq rfl rfl rfl

theorem of_execEncEof (ht : execEncEof s = .next t) : EngineEffect s t := by
  unfold execEncEof at ht
  split at ht <;> cases ht
  · exact of_encEofValidate
  · rw [encEofRun_frame]
    exact of_eq rfl rfl rfl
  · rw [encEofPad_frame]
    exact of_eq rfl rfl rfl

theorem of_moveTo (c : NodeIdx) : EngineEffect s (moveTo c s) := by
  unfold moveTo
  split
  · exact raiseCmd _ _ _
  · split
    · exact of_eq rfl rfl rfl
    · split <;> exact of_eq rfl rfl rfl

theorem of_walkStep : EngineEffect s (walkStep s) := by
  unfold walkStep
  split
  · next b t hr =>
    have hf := readBit_frame hr
    exact after (by rw [hf]) (by rw [hf]) (by rw [hf]) (of_moveTo _)
  · exact raiseCmd _ _ _
  · exact of_eq rfl rfl rfl

theorem of_decSymValidate : EngineEffect s (decSymValidate s) := by
  unfold decSymValidate
  split
  · exact raiseCmd _ _ _
  · exact of_eq rfl rfl rfl

theorem of_execDecSym (ht : execDecSym s = .next t) : EngineEffect s t := by
  unfold execDecSym at ht
  split at ht <;> cases ht
  · exact of_decSymValidate
  · exact of_walkStep
  · exact of_walkStep

theorem of_exec {i : Instr} (ht : exec i s = .next t) : EngineEffect s t := by
  cases i with
  | nop => cases ht; exact of_eq rfl rfl rfl
  | freqClear => cases ht; exact newCounts []
  | freqInc k => exact of_execFreqInc ht
  | freqWrite k => exact of_execFreqWrite ht
  | freqRead k => exact of_execFreqRead ht
  | treeBuild => exact of_execTreeBuild ht
  | nodeRead k => exact of_execNodeRead ht
  | codeBuild => exact of_execCodeBuild ht
  | codeRead k w => exact of_execCodeRead ht
  | encStart => exact of_execEncStart ht
  | encSym k => exact of_execEncSym ht
  | encEof => exact of_execEncEof ht
  | decStart => exact of_execDecStart ht
  | decSym => exact of_execDecSym ht

theorem of_engineStep (ht : engineStep s = .next t) : EngineEffect s t := by
  unfold engineStep at ht
  split at ht
  · cases ht; exact of_eq rfl rfl rfl
  · split at ht
    · cases ht; exact raiseCmd _ _ _
    · exact of_exec ht

/-- An engine's turn: taking it leaves all three alone. -/
theorem engineTurn (ht : engineStep s.turnTaken = .next t) : EngineEffect s t :=
  after s.turnTaken_error s.turnTaken_count s.turnTaken_nodes (of_engineStep ht)

end EngineEffect

/-! ### The host -/

theorem Reg.offset_of_at? {off : Nat} {r : Reg} (h : Reg.at? off = some r) : r.offset = off := by
  unfold Reg.at? at h
  split at h <;> cases h <;> rfl

theorem admitted_eq_some {p : Params} {addr bytes off : Nat} (h : admitted p addr bytes = some off) :
    bytes = 4 ∧ addr = p.base + off := by
  unfold admitted at h
  split at h
  · next hin =>
    obtain ⟨hbytes, hbase, -, -⟩ := hin
    obtain rfl := Option.some.inj h
    exact ⟨hbytes, by omega⟩
  · cases h

/-- What a host step can do to the block: draw a value, read a register, or write one, where its statement is a write of that
register. -/
inductive HostAccess (s : State) : State → Prop where
  | draw (d : Nat) : HostAccess s { s with draws := d }
  | read (r : Reg) : HostAccess s (s.afterRead r)
  | write (r : Reg) (v : Word) (st : Stmt) (hst : s.hostStmt = some st) (hop : st.op = .wr (s.params.base + r.offset) 4 v) :
      HostAccess s (s.writeReg r v)

theorem HostAccess.none (s : State) : HostAccess s s := .draw s.draws

theorem HostAccess.readAt (off : Nat) (s : State) : HostAccess s (s.readAt off).2 := by
  unfold State.readAt
  split
  · next r _ =>
    unfold State.readReg
    split
    · exact .draw _
    · exact .read r
  · exact .none s

theorem HostAccess.testValue (s : State) : HostAccess s s.testValue.2 := by
  unfold State.testValue
  split
  · exact .none s
  · exact .draw _

theorem HostAccess.of_hostJump {s u t : State} {l : Nat} (h : HostAccess s u) (ht : hostJump l u = .next t) :
    ∃ u ho, HostAccess s u ∧ t = { u with host := ho } := by
  unfold hostJump at ht
  split at ht <;> cases ht
  exact ⟨u, _, h, rfl⟩

/-- A host step is one access to the block, and a change of the host (rules R110, R115). -/
theorem hostStep_access {s t : State} (ht : hostStep s = .next t) : ∃ u ho, HostAccess s u ∧ t = { u with host := ho } := by
  unfold hostStep at ht
  split at ht
  · next st hst =>
    cases hop : st.op with
    | rd addr bytes =>
      simp only [hop, hostDo, hostRead] at ht
      split at ht <;> cases ht
      exact ⟨_, _, .readAt _ s, rfl⟩
    | wr addr bytes v =>
      simp only [hop, hostDo, hostWrite] at ht
      split at ht <;> cases ht
      next off hadm =>
        obtain ⟨rfl, rfl⟩ := admitted_eq_some hadm
        refine ⟨s.writeAt off v, _, ?_, rfl⟩
        unfold State.writeAt
        split
        · next r hr => exact .write r v st hst (by rw [hop, Reg.offset_of_at? hr])
        · exact .none s
    | beq mask want l =>
      simp only [hop, hostDo] at ht
      split at ht
      · exact (HostAccess.testValue s).of_hostJump ht
      · cases ht; exact ⟨_, _, .testValue s, rfl⟩
    | bne mask want l =>
      simp only [hop, hostDo] at ht
      split at ht
      · exact (HostAccess.testValue s).of_hostJump ht
      · cases ht; exact ⟨_, _, .testValue s, rfl⟩
  · cases ht
    exact ⟨s, s.host, .none s, rfl⟩

theorem State.afterRead_keeps (r : Reg) (s : State) :
    (s.afterRead r).error = s.error ∧ (s.afterRead r).count = s.count ∧ (s.afterRead r).nodes = s.nodes := by
  cases r <;> exact ⟨rfl, rfl, rfl⟩

theorem State.pushIn_keeps (b : Byte) (s : State) :
    s.error.After (s.pushIn b).error ∧ (s.pushIn b).count = s.count ∧ (s.pushIn b).nodes = s.nodes := by
  unfold State.pushIn
  split
  · exact ⟨.inl rfl, rfl, rfl⟩
  · exact ⟨.inr ⟨_, _, _, rfl⟩, rfl, rfl⟩

/-- No write changes a store, and of `ERROR` it can only record, unless it is a write of `ERROR` while idle (rules R71, R258). -/
theorem State.writeReg_keeps (r : Reg) (v : Word) (s : State) :
    (s.error.After (s.writeReg r v).error ∨ (r = .error ∧ s.busy = false ∧ (s.writeReg r v).error = .clear)) ∧
      (s.writeReg r v).count = s.count ∧ (s.writeReg r v).nodes = s.nodes := by
  unfold State.writeReg
  split
  · exact ⟨.inl (.inr ⟨_, _, _, rfl⟩), rfl, rfl⟩
  · next hfree =>
    cases r with
    | inData => exact ⟨.inl (s.pushIn_keeps _).1, (s.pushIn_keeps _).2⟩
    | error => exact ⟨.inr ⟨rfl, by simpa [Reg.lockedWhileBusy] using hfree, rfl⟩, rfl, rfl⟩
    | _ => exact ⟨.inl (.inl rfl), rfl, rfl⟩

/-- A host step can record an error, or clear `ERROR` by a write of it while idle (rules R254, R258). -/
theorem hostStep_error {s t : State} (ht : hostStep s = .next t) :
    s.error.After t.error ∨ (t.error = .clear ∧ s.busy = false ∧
      ∃ st v, s.hostStmt = some st ∧ st.op = .wr (s.params.base + 0x20) 4 v) := by
  obtain ⟨u, ho, hacc, rfl⟩ := hostStep_access ht
  cases hacc with
  | draw d => exact .inl (.inl rfl)
  | read r => exact .inl (.inl (s.afterRead_keeps r).1)
  | write r v st hst hop =>
    rcases (s.writeReg_keeps r v).1 with hrec | ⟨rfl, hidle, hclear⟩
    · exact .inl hrec
    · exact .inr ⟨hclear, hidle, st, v, hst, hop⟩

/-- No host step changes a store (rule R71). -/
theorem hostStep_stores {s t : State} (ht : hostStep s = .next t) : t.count = s.count ∧ t.nodes = s.nodes := by
  obtain ⟨u, ho, hacc, rfl⟩ := hostStep_access ht
  cases hacc with
  | draw d => exact ⟨rfl, rfl⟩
  | read r => exact (s.afterRead_keeps r).2
  | write r v => exact (s.writeReg_keeps r v).2

/-! ### The machine -/

/-- A step of the machine, by the agent that takes it. -/
theorem step_cases {s t : State} (ht : step s = .next t) :
    (s.nextAgent = some .engine ∧ engineStep s.turnTaken = .next t) ∨
    (s.nextAgent = some .host ∧ hostStep s.turnTaken = .next t) ∨
    (s.nextAgent = some .reset ∧ t = s.turnTaken.resetEvent) ∨ (s.nextAgent = none ∧ t = s.turnTaken) := by
  unfold step at ht
  split at ht
  · next a ha =>
    cases a with
    | engine => exact .inl ⟨ha, ht⟩
    | host => exact .inr (.inl ⟨ha, ht⟩)
    | reset => cases ht; exact .inr (.inr (.inl ⟨ha, rfl⟩))
  · next ha => cases ht; exact .inr (.inr (.inr ⟨ha, rfl⟩))

/-- Settles O58: the engine and the host can record, which keeps the first error; a host step that clears `ERROR` is a write of it
while idle. -/
theorem firstErrorIsKept : Obligations.FirstErrorIsKept := by
  unfold Obligations.FirstErrorIsKept
  intro s t ht h0
  rcases step_cases ht with ⟨hn, ht⟩ | ⟨hn, ht⟩ | ⟨hn, rfl⟩ | ⟨hn, rfl⟩
  · exact .inl ((EngineEffect.engineTurn ht).error.first_kept h0)
  · rcases hostStep_error ht with hrec | ⟨hclear, hidle, st, v, hst, hop⟩
    · exact .inl (ErrorReg.After.first_kept (s.turnTaken_error ▸ hrec) h0)
    · refine .inr ⟨hclear, .inr ⟨hn, by simpa [State.busy] using hidle, st, v, ?_, by simpa using hop⟩⟩
      simpa [State.hostStmt] using hst
  · exact .inr ⟨rfl, .inl hn⟩
  · exact .inl (by simp)

/-- Settles O59: an engine step that changes a store invalidates what was derived from it, the host changes none, and a reset leaves
nothing valid. -/
theorem staleStateIsInvalidated : Obligations.StaleStateIsInvalidated := by
  unfold Obligations.StaleStateIsInvalidated
  intro s t ht
  rcases step_cases ht with ⟨-, ht⟩ | ⟨-, ht⟩ | ⟨-, rfl⟩ | ⟨-, rfl⟩
  · have heffect := EngineEffect.engineTurn ht
    exact ⟨heffect.count.resolve_left, heffect.nodes.resolve_left⟩
  · obtain ⟨hcount, hnodes⟩ := hostStep_stores ht
    exact ⟨fun h => absurd (hcount.trans s.turnTaken_count) h, fun h => absurd (hnodes.trans s.turnTaken_nodes) h⟩
  · exact ⟨fun _ => ⟨rfl, rfl, rfl, rfl⟩, fun _ => ⟨rfl, rfl, rfl⟩⟩
  · exact ⟨fun h => absurd s.turnTaken_count h, fun h => absurd s.turnTaken_nodes h⟩

end Sys2Proof.Machine
end

section
/-! SUPPORT. Which stores and result registers a command writes (rules R38, R71): the table of the names, and, command by command, that
a step changes nothing else. -/

namespace Sys2Proof.Machine

/-- The stores of rule R71 and the result registers of rule R38, and, as `outside`, what no command writes. -/
inductive Store where
  | freq
  | tree
  | codes
  | outFifo
  | inFifo
  | data
  | link
  | result
  | outside

/-- The store holds something else in `t` than in `s`. -/
def Store.Changed (s t : State) : Store → Prop
  | .freq => t.count ≠ s.count
  | .tree => t.nodes ≠ s.nodes ∨ t.nodeCount ≠ s.nodeCount ∨ t.root ≠ s.root
  | .codes => t.codes ≠ s.codes ∨ t.totalBits ≠ s.totalBits
  | .outFifo => t.outFifo ≠ s.outFifo
  | .inFifo => t.inFifo ≠ s.inFifo
  | .data => t.dataLo ≠ s.dataLo ∨ t.dataHi ≠ s.dataHi
  | .link => t.link ≠ s.link
  | .result => t.result ≠ s.result
  | .outside => t.params ≠ s.params ∨ t.inEnd ≠ s.inEnd ∨ t.host ≠ s.host ∨ t.sched ≠ s.sched ∨ t.draws ≠ s.draws

/-- The stores named for each command (rule R71). -/
def storesOf : Instr → List Store
  | .nop => []
  | .freqClear => [.freq]
  | .freqInc _ => [.freq]
  | .freqWrite _ => [.freq]
  | .freqRead _ => [.data]
  | .treeBuild => [.tree]
  | .nodeRead _ => [.data, .link, .result]
  | .codeBuild => [.codes]
  | .codeRead _ _ => [.data, .result]
  | .encStart => []
  | .encSym _ => [.outFifo]
  | .encEof => [.outFifo]
  | .decStart => []
  | .decSym => [.inFifo, .result]

/-- A change from `s` to `t` in no store but those of `ws`. -/
def WritesOnly (ws : List Store) (s t : State) : Prop := ∀ x : Store, x.Changed s t → x ∈ ws

namespace WritesOnly

variable {ws : List Store} {s t : State}

/-- A step that changes units, flags, `ERROR` and `PEND` alone writes no store. -/
theorem of_frame (h : t = { s with
    treeValid := t.treeValid, codeValid := t.codeValid, encState := t.encState, encAcc := t.encAcc, encN := t.encN,
    encBits := t.encBits, decState := t.decState, cursor := t.cursor, decShift := t.decShift, decAvail := t.decAvail,
    decBits := t.decBits, error := t.error, pend := t.pend }) : WritesOnly ws s t := by
  intro x hx
  rw [h] at hx
  cases x <;> simp [Store.Changed] at hx

theorem raiseCmd (unit : FailedUnit) (e : ErrorKind) (info : BitVec 10) : WritesOnly ws s (s.raiseCmd unit e info) :=
  of_frame (by cases unit <;> rfl)

theorem newCounts (c : Table Word) : WritesOnly [.freq] s ({ s with count := c } : State).invalidate.complete := by
  intro x hx
  cases x <;> simp [Store.Changed] at hx ⊢

/-! ### The frequency table -/

theorem of_execFreqInc {k : Nat} (ht : execFreqInc k s = .next t) : WritesOnly [.freq] s t := by
  unfold execFreqInc at ht
  split at ht
  · cases ht; exact raiseCmd _ _ _
  · split at ht
    · cases ht; exact raiseCmd _ _ _
    · cases ht; exact newCounts _

theorem of_execFreqWrite {k : Nat} (ht : execFreqWrite k s = .next t) : WritesOnly [.freq] s t := by
  unfold execFreqWrite at ht
  split at ht
  · cases ht; exact raiseCmd _ _ _
  · split at ht
    · cases ht; exact raiseCmd _ _ _
    · split at ht
      · cases ht; exact raiseCmd _ _ _
      · split at ht
        · cases ht; exact newCounts _
        · cases ht; exact of_frame rfl

theorem of_execFreqRead {k : Nat} (ht : execFreqRead k s = .next t) : WritesOnly [.data] s t := by
  unfold execFreqRead at ht
  split at ht
  · cases ht; exact raiseCmd _ _ _
  · cases ht
    intro x hx
    cases x <;> simp [Store.Changed] at hx ⊢

/-! ### The tree and the codes -/

theorem of_execTreeBuild (ht : execTreeBuild s = .next t) : WritesOnly [.tree] s t := by
  cases ht
  intro x hx
  cases x <;> simp [Store.Changed] at hx ⊢

theorem of_execNodeRead {i : Nat} (ht : execNodeRead i s = .next t) : WritesOnly [.data, .link, .result] s t := by
  unfold execNodeRead at ht
  split at ht
  · cases ht; exact raiseCmd _ _ _
  · split at ht
    · cases ht; exact raiseCmd _ _ _
    · cases ht
      intro x hx
      cases x <;> simp [Store.Changed] at hx ⊢

theorem of_execCodeBuild (ht : execCodeBuild s = .next t) : WritesOnly [.codes] s t := by
  unfold execCodeBuild at ht
  split at ht
  · cases ht; exact raiseCmd _ _ _
  · cases ht
    intro x hx
    cases x <;> simp [Store.Changed] at hx ⊢

theorem of_execCodeRead {k w : Nat} (ht : execCodeRead k w s = .next t) : WritesOnly [.data, .result] s t := by
  unfold execCodeRead at ht
  split at ht
  · cases ht; exact raiseCmd _ _ _
  · split at ht
    · cases ht; exact raiseCmd _ _ _
    · cases ht
      intro x hx
      cases x <;> simp [Store.Changed] at hx ⊢

/-! ### The encoder -/

theorem of_execEncStart (ht : execEncStart s = .next t) : WritesOnly [] s t := by
  unfold execEncStart at ht
  split at ht
  · cases ht; exact raiseCmd _ _ _
  · cases ht; exact of_frame rfl

theorem encSymValidate (k : Nat) : WritesOnly ws s (encSymValidate k s) := by
  unfold Machine.encSymValidate
  split
  · exact raiseCmd _ _ _
  · split
    · exact raiseCmd _ _ _
    · split
      · exact raiseCmd _ _ _
      · exact of_frame rfl

theorem encSymRun (k : Nat) : WritesOnly [.outFifo] s (encSymRun k s) := by
  intro x hx
  rw [encSymRun_frame] at hx
  cases x <;> simp [Store.Changed] at hx ⊢

theorem of_execEncSym {k : Nat} (ht : execEncSym k s = .next t) : WritesOnly [.outFifo] s t := by
  unfold execEncSym at ht
  split at ht <;> cases ht
  · exact encSymValidate k
  · exact encSymRun k
  · exact encSymRun k

theorem encEofValidate : WritesOnly ws s (encEofValidate s) := by
  unfold Machine.encEofValidate
  split
  · exact raiseCmd _ _ _
  · exact of_frame rfl

theorem encEofRun : WritesOnly [.outFifo] s (encEofRun s) := by
  intro x hx
  rw [encEofRun_frame] at hx
  cases x <;> simp [Store.Changed] at hx ⊢

theorem encEofPad : WritesOnly [.outFifo] s (encEofPad s) := by
  intro x hx
  rw [encEofPad_frame] at hx
  cases x <;> simp [Store.Changed] at hx ⊢

theorem of_execEncEof (ht : execEncEof s = .next t) : WritesOnly [.outFifo] s t := by
  unfold execEncEof at ht
  split at ht <;> cases ht
  · exact encEofValidate
  · exact encEofRun
  · exact encEofPad

/-! ### The decoder -/

theorem of_execDecStart (ht : execDecStart s = .next t) : WritesOnly [] s t := by
  unfold execDecStart at ht
  split at ht
  · cases ht; exact raiseCmd _ _ _
  · cases ht; exact of_frame rfl

theorem decSymValidate : WritesOnly ws s (decSymValidate s) := by
  unfold Machine.decSymValidate
  split
  · exact raiseCmd _ _ _
  · exact of_frame rfl

theorem walkStep : WritesOnly [.inFifo, .result] s (walkStep s) := by
  intro x hx
  rw [walkStep_frame] at hx
  cases x <;> simp [Store.Changed] at hx ⊢

theorem of_execDecSym (ht : execDecSym s = .next t) : WritesOnly [.inFifo, .result] s t := by
  unfold execDecSym at ht
  split at ht <;> cases ht
  · exact decSymValidate
  · exact walkStep
  · exact walkStep

/-! ### Every command -/

theorem of_exec {i : Instr} (ht : exec i s = .next t) : WritesOnly (storesOf i) s t := by
  cases i with
  | nop => cases ht; exact of_frame rfl
  | freqClear => cases ht; exact newCounts []
  | freqInc k => exact of_execFreqInc ht
  | freqWrite k => exact of_execFreqWrite ht
  | freqRead k => exact of_execFreqRead ht
  | treeBuild => exact of_execTreeBuild ht
  | nodeRead k => exact of_execNodeRead ht
  | codeBuild => exact of_execCodeBuild ht
  | codeRead k w => exact of_execCodeRead ht
  | encStart => exact of_execEncStart ht
  | encSym k => exact of_execEncSym ht
  | encEof => exact of_execEncEof ht
  | decStart => exact of_execDecStart ht
  | decSym => exact of_execDecSym ht

end WritesOnly

/-! ### The table read by store -/

/-- The commands of each store, read off `storesOf`. -/
theorem named_of_mem_storesOf {i : Instr} {x : Store} (h : x ∈ storesOf i) :
    match x with
    | .freq => i = .freqClear ∨ (∃ k, i = .freqInc k) ∨ ∃ k, i = .freqWrite k
    | .tree => i = .treeBuild
    | .codes => i = .codeBuild
    | .outFifo => (∃ k, i = .encSym k) ∨ i = .encEof
    | .inFifo => i = .decSym
    | .data => (∃ k, i = .freqRead k) ∨ (∃ k, i = .nodeRead k) ∨ ∃ k w, i = .codeRead k w
    | .link => ∃ k, i = .nodeRead k
    | .result => (∃ k, i = .nodeRead k) ∨ (∃ k w, i = .codeRead k w) ∨ i = .decSym
    | .outside => False := by
  cases i with
  | nop | encStart | decStart => cases h
  | freqClear | freqInc | freqWrite | freqRead | treeBuild | codeBuild | encSym | encEof =>
    obtain rfl := List.mem_singleton.1 h
    simp
  | codeRead | decSym =>
    obtain rfl | rfl := List.mem_pair.1 h <;> simp
  | nodeRead =>
    obtain rfl | h := List.mem_cons.1 h
    · simp
    · obtain rfl | rfl := List.mem_pair.1 h <;> simp

/-- Settles O57: a step of a command changes only the stores the table names for it, and no command is named for what stands outside. -/
theorem onlyNamedCommandsWriteAStore : Obligations.OnlyNamedCommandsWriteAStore := by
  unfold Obligations.OnlyNamedCommandsWriteAStore
  intro i s t ht
  have named (x : Store) (hx : x.Changed s t) := named_of_mem_storesOf (WritesOnly.of_exec ht x hx)
  have houtside : ¬ Store.outside.Changed s t := named .outside
  simp only [Store.Changed, not_or, not_not] at houtside
  exact ⟨named .freq, named .tree, named .codes, named .outFifo, named .inFifo, named .data, named .link, named .result, houtside⟩

end Sys2Proof.Machine
end

section
/-! SUPPORT. The host's window: which accesses are admitted, which register each offset reaches, and what a read and a write of a register
do, idle and busy (10_state.md section 10, 20_memory.md). -/

namespace Sys2Proof.Machine

/-! ### Admission (rule R72) -/

theorem admitted_eq_some_iff {p : Params} {addr bytes off : Nat} :
    admitted p addr bytes = some off ↔ bytes = 4 ∧ addr = p.base + off ∧ off ≤ 0xFC ∧ off % 4 = 0 := by
  constructor
  · intro h
    obtain ⟨hbytes, rfl⟩ := admitted_eq_some h
    unfold admitted at h
    split at h
    · next hin =>
      obtain ⟨-, -, hwindow, haligned⟩ := hin
      rw [Nat.add_sub_cancel_left] at hwindow haligned
      exact ⟨hbytes, rfl, hwindow, haligned⟩
    · cases h
  · rintro ⟨rfl, rfl, hwindow, haligned⟩
    unfold admitted
    rw [Nat.add_sub_cancel_left, if_pos ⟨rfl, Nat.le_add_right _ _, hwindow, haligned⟩]

theorem hostRead_of_admitted {s : State} {addr bytes off : Nat} (h : admitted s.params addr bytes = some off) :
    hostRead addr bytes s = .next (((s.readAt off).2.hostGot off (s.readAt off).1).hostNext) := by
  unfold hostRead
  rw [h]

theorem hostWrite_of_admitted {s : State} {addr bytes off : Nat} (h : admitted s.params addr bytes = some off) (v : Word) :
    hostWrite addr bytes v s = .next (s.writeAt off v).hostNext := by
  unfold hostWrite
  rw [h]

theorem hostRead_of_not_admitted {s : State} {addr bytes : Nat} (h : admitted s.params addr bytes = none) :
    hostRead addr bytes s = .refused .accessNotAdmitted := by
  unfold hostRead
  rw [h]

theorem hostWrite_of_not_admitted {s : State} {addr bytes : Nat} (h : admitted s.params addr bytes = none) (v : Word) :
    hostWrite addr bytes v s = .refused .accessNotAdmitted := by
  unfold hostWrite
  rw [h]

/-! ### An access of the block leaves the host alone -/

@[simp] theorem State.readReg_host (r : Reg) (s : State) : (s.readReg r).2.host = s.host := by
  unfold State.readReg
  split
  · rfl
  · cases r <;> rfl

@[simp] theorem State.readAt_host (off : Nat) (s : State) : (s.readAt off).2.host = s.host := by
  unfold State.readAt
  split
  · exact s.readReg_host _
  · rfl

@[simp] theorem State.pushIn_host (b : Byte) (s : State) : (s.pushIn b).host = s.host := by
  unfold State.pushIn
  split <;> rfl

@[simp] theorem State.writeReg_host (r : Reg) (v : Word) (s : State) : (s.writeReg r v).host = s.host := by
  unfold State.writeReg
  split
  · rfl
  · cases r with
    | inData => exact s.pushIn_host _
    | _ => rfl

@[simp] theorem State.writeAt_host (off : Nat) (v : Word) (s : State) : (s.writeAt off v).host = s.host := by
  unfold State.writeAt
  split
  · exact s.writeReg_host _ v
  · rfl

/-- Settles O46: the admitted accesses are those of `admitted_eq_some_iff`, and an access leaves the host's own state to the host. -/
theorem onlyAlignedWordsAreAdmitted : Obligations.OnlyAlignedWordsAreAdmitted := by
  unfold Obligations.OnlyAlignedWordsAreAdmitted
  intro s v
  refine ⟨fun off hwindow haligned => ?admitted, fun addr bytes hnot => ?refused⟩
  case admitted =>
    have hadm : admitted s.params (s.params.base + off) 4 = some off :=
      admitted_eq_some_iff.2 ⟨rfl, rfl, hwindow, haligned⟩
    refine ⟨⟨_, hostRead_of_admitted hadm, ?_, rfl, ?_, ?_⟩, (hostWrite_of_admitted hadm v).trans ?_⟩
    · rw [← s.readAt_host off]
      rfl
    · simp
    · simp
    · rw [← s.writeAt_host off v]
      rfl
  case refused =>
    have hadm : admitted s.params addr bytes = none := Option.eq_none_iff_forall_ne_some.2 fun off h =>
      have ⟨hbytes, haddr, hoff⟩ := admitted_eq_some_iff.1 h
      hnot ⟨hbytes, off, haddr, hoff⟩
    exact ⟨hostRead_of_not_admitted hadm, hostWrite_of_not_admitted hadm v⟩

/-! ### The offsets (rules R39, R73) -/

@[simp] theorem Reg.at?_offset (r : Reg) : Reg.at? r.offset = some r := by cases r <;> rfl

theorem Reg.offset_lt (r : Reg) : r.offset < 0x5C := by cases r <;> decide

theorem Reg.at?_eq_none {off : Nat} (h : 0x5C ≤ off) : Reg.at? off = none :=
  Option.eq_none_iff_forall_ne_some.2 fun r hr => by
    have := r.offset_lt
    rw [Reg.offset_of_at? hr] at this
    omega

theorem State.readAt_offset (s : State) (r : Reg) : s.readAt r.offset = s.readReg r := by simp [State.readAt]

theorem State.writeAt_offset (s : State) (r : Reg) (v : Word) : s.writeAt r.offset v = s.writeReg r v := by simp [State.writeAt]

theorem State.readAt_unmapped (s : State) {off : Nat} (h : 0x5C ≤ off) : s.readAt off = (0, s) := by
  simp [State.readAt, Reg.at?_eq_none h]

theorem State.writeAt_unmapped (s : State) {off : Nat} (h : 0x5C ≤ off) (v : Word) : s.writeAt off v = s := by
  simp [State.writeAt, Reg.at?_eq_none h]

/-- Settles O47: the offsets are those of the map, and no register stands above the last. -/
theorem unmappedOffsetsReadZero : Obligations.UnmappedOffsetsReadZero := by
  unfold Obligations.UnmappedOffsetsReadZero
  refine ⟨by decide, fun s r v => ⟨r.at?_offset, s.readAt_offset r, s.writeAt_offset r v⟩, fun s off v h =>
    ⟨s.readAt_unmapped h, s.writeAt_unmapped h v⟩⟩

/-! ### Reads (rules R75, R77, R81, R231) -/

theorem State.readReg_free {s : State} {r : Reg} (hbusy : s.busy = true) (hopen : r.openWhileBusy = true) :
    s.readReg r = (Config.freeWord s.draws, { s with draws := s.draws + 1 }) := if_pos ⟨hbusy, hopen⟩

theorem State.readReg_idle {s : State} (hidle : s.busy = false) (r : Reg) : s.readReg r = (s.regValue r, s.afterRead r) :=
  if_neg (by simp [hidle])

theorem State.readReg_exact {r : Reg} (hexact : r.openWhileBusy = false) (s : State) :
    s.readReg r = (s.regValue r, s.afterRead r) := if_neg (by simp [hexact])

theorem State.afterRead_of_ne {r : Reg} (h : r ≠ .outData) (s : State) : s.afterRead r = s := by
  cases r with
  | outData => exact absurd rfl h
  | _ => rfl

/-- Settles O48: a read that draws no free value shows the register, and only one of `OUT_DATA` has an effect. -/
theorem readsHaveNoSideEffect : Obligations.ReadsHaveNoSideEffect := by
  unfold Obligations.ReadsHaveNoSideEffect
  intro s r
  have hseven : ∀ q ∈ [Reg.id, .ctrl, .status, .error, .fifoLevel, .param0, .param1],
      q.openWhileBusy = false ∧ q ≠ .outData := by decide
  have hthirteen : ∀ q ∈ [Reg.dataLo, .dataHi, .result, .link, .encBitsLo, .encBitsHi, .decBitsLo, .decBitsHi, .decPos, .encPos,
      .totalLo, .totalHi, .treeInfo], q.openWhileBusy = true := by decide
  refine ⟨fun hidle hr => ?idle, fun _ hr => ?exact, fun hbusy hr => State.readReg_free hbusy (hthirteen r hr), ?writeOnly⟩
  case idle => rw [State.readReg_idle hidle, State.afterRead_of_ne hr]
  case exact =>
    obtain ⟨hexact, hne⟩ := hseven r hr
    rw [State.readReg_exact hexact, State.afterRead_of_ne hne]
  case writeOnly =>
    rintro (rfl | rfl)
    · exact State.readReg_exact rfl s
    · exact State.readReg_exact rfl s

/-! ### The FIFOs (rules R81, R83) -/

theorem State.readReg_outData_cons {s : State} {b : Byte} {rest : List Byte} (h : s.outFifo = b :: rest) :
    s.readReg .outData = (0#23 ++ 1#1 ++ b, { s with outFifo := rest }) := by
  rw [State.readReg_exact rfl]
  simp [State.regValue, State.afterRead, h]

theorem State.readReg_outData_nil {s : State} (h : s.outFifo = []) : s.readReg .outData = (0, s) := by
  have hsame : s.afterRead .outData = s := by
    simp only [State.afterRead, h, List.drop_nil]
    rw [← h]
  rw [State.readReg_exact rfl, hsame]
  simp [State.regValue, h]

theorem State.pushIn_of_room {s : State} (h : s.inFifo.length < s.params.inDepth) (b : Byte) :
    s.pushIn b = { s with inFifo := s.inFifo ++ [b] } := if_pos h

theorem State.pushIn_of_full {s : State} (h : s.params.inDepth ≤ s.inFifo.length) (b : Byte) :
    s.pushIn b = s.raiseAccess .inOverflow (b.setWidth 10) := if_neg (Nat.not_lt.2 h)

/-- A write of a register that is not locked acts as while idle (rule R76). -/
theorem State.writeReg_unlocked {r : Reg} (h : r.lockedWhileBusy = false) (s : State) (v : Word) :
    s.writeReg r v = s.storeReg v r := if_neg (by simp [h])

theorem State.writeReg_inData (s : State) (v : Word) : s.writeReg .inData v = s.pushIn (v.extractLsb' 0 8) :=
  State.writeReg_unlocked rfl s v

/-- Settles O49: neither register asks whether a command is pending, so each access is that of its FIFO. -/
theorem fifoAccesses : Obligations.FifoAccesses := by
  unfold Obligations.FifoAccesses
  intro s v
  exact ⟨fun b rest => State.readReg_outData_cons, State.readReg_outData_nil,
    fun h => (s.writeReg_inData v).trans (State.pushIn_of_room h _),
    fun h => (s.writeReg_inData v).trans (State.pushIn_of_full h _)⟩

/-! ### Writes while busy (rules R76, R254) -/

theorem State.writeReg_locked {s : State} {r : Reg} (hbusy : s.busy = true) (hlocked : r.lockedWhileBusy = true) (v : Word) :
    s.writeReg r v = s.raiseAccess .busyWrite (BitVec.ofNat 10 r.offset) := if_pos ⟨hbusy, hlocked⟩

theorem Reg.lockedWhileBusy_iff (r : Reg) : r.lockedWhileBusy = true ↔ r = .cmd ∨ r = .dataLo ∨ r = .dataHi ∨ r = .error := by
  cases r <;> decide

/-- Settles O50: four registers are locked; a write of any other acts as while idle. -/
theorem busyWritesAreDropped : Obligations.BusyWritesAreDropped := by
  unfold Obligations.BusyWritesAreDropped
  intro s r v hbusy
  refine ⟨fun h => State.writeReg_locked hbusy (r.lockedWhileBusy_iff.2 h) v, ?ctrl, ?room, ?full, ?readOnly,
    fun off h => s.writeAt_unmapped h v⟩
  case ctrl =>
    rintro rfl
    exact State.writeReg_unlocked rfl s v
  case room =>
    rintro rfl h
    exact (s.writeReg_inData v).trans (State.pushIn_of_room h _)
  case full =>
    rintro rfl h
    exact (s.writeReg_inData v).trans (State.pushIn_of_full h _)
  case readOnly =>
    intro hcmd hlo hhi herr hctrl hin
    have hfree : r.lockedWhileBusy = false := by simp [← Bool.not_eq_true, r.lockedWhileBusy_iff, hcmd, hlo, hhi, herr]
    rw [State.writeReg_unlocked hfree, State.storeReg_of_readOnly hcmd hlo hhi herr hctrl hin]

end Sys2Proof.Machine
end

section
/-! SUPPORT. The decoder and the encoder are inverse to each other, and the table of rule R104 tells the legal words (rules R100 to
R106). -/

namespace Sys2Proof

/-! ### The decoder, row by row -/

/-- What the decoder does with a word whose `OP` is that of command `i` (rules R102, R103, R105). -/
def decodeRow (w : Word) : Instr → Except Illegal Instr
  | .freqInc _ => decodeOperand w .freqInc
  | .freqWrite _ => decodeOperand w .freqWrite
  | .freqRead _ => decodeOperand w .freqRead
  | .nodeRead _ => decodeOperand w .nodeRead
  | .encSym _ => decodeOperand w .encSym
  | .codeRead _ _ => decodeCodeRead w
  | i => decodePlain w i

theorem decode_of_opField {w : Word} {i : Instr} (h : opField w = i.opcode) : decode w = decodeRow w i := by
  unfold decode
  rw [h]
  cases i <;> rfl

theorem decode_eq_ok_iff_row {w : Word} {i : Instr} : decode w = .ok i ↔ opField w = i.opcode ∧ decodeRow w i = .ok i := by
  constructor
  · intro h
    have hop := opField_of_decode h
    exact ⟨hop, (decode_of_opField hop).symm.trans h⟩
  · rintro ⟨hop, h⟩
    exact (decode_of_opField hop).trans h

/-! ### Decoding is the inverse of encoding (rules R101 to R105) -/

/-- `AUX` as `CODE_READ` reads it: a word index and nothing above it (rule R103). -/
theorem aux_eq_wordIndex_iff (a : BitVec 8) (n : Nat) :
    a.extractLsb' 3 5 = 0 ∧ (a.extractLsb' 0 3).toNat = n ↔ FitsWordIndex n ∧ a = 0#5 ++ BitVec.ofNat 3 n := by
  rw [BitVec.toNat_eq_nat]
  constructor
  · rintro ⟨hhigh, hn, hlow⟩
    exact ⟨hn, by rw [aux_eq_parts a, hhigh, hlow]; rfl⟩
  · rintro ⟨hn, rfl⟩
    exact ⟨auxHigh_append _ _, hn, auxLow_append _ _⟩

theorem encode_eq_iff {i : Instr} {w : Word} :
    encode i = w ↔ opField w = i.opcode ∧ rsvField w = 0 ∧ auxField w = i.aux ∧ opndField w = i.opnd := by
  constructor
  · rintro rfl
    simp
  · rintro ⟨hop, hrsv, haux, hopnd⟩
    apply word_ext <;> simp [hop, hrsv, haux, hopnd]

/-- The row of a command reads it back exactly where its operands fit and the fields besides `OP` are the command's. -/
theorem decodeRow_eq_self_iff {w : Word} {i : Instr} :
    decodeRow w i = .ok i ↔ i.WellFormed ∧ rsvField w = 0 ∧ auxField w = i.aux ∧ opndField w = i.opnd := by
  cases i with
  | freqInc k | freqWrite k | freqRead k | nodeRead k | encSym k =>
    simp [decodeRow, decodeOperand_ok, BitVec.toNat_eq_nat, Instr.WellFormed, Instr.wellFormed, Instr.aux, Instr.opnd,
      and_left_comm]
  | codeRead k n =>
    have haux := aux_eq_wordIndex_iff (auxField w) n
    have hopnd : (opndField w).toNat = k ↔ FitsOpnd k ∧ opndField w = BitVec.ofNat 10 k := BitVec.toNat_eq_nat
    simp only [decodeRow, decodeCodeRead_ok, Instr.codeRead.injEq, Instr.WellFormed, Instr.wellFormed, Instr.aux, Instr.opnd,
      Bool.and_eq_true, decide_eq_true_eq]
    tauto
  | _ => simp [decodeRow, decodePlain_ok, Instr.WellFormed, Instr.wellFormed, Instr.aux, Instr.opnd]

/-- The decoder reads a word as command `i` exactly where it is the word of `i`, and `i` has one. -/
theorem decode_eq_ok_iff {w : Word} {i : Instr} : decode w = .ok i ↔ i.WellFormed ∧ encode i = w := by
  rw [decode_eq_ok_iff_row, decodeRow_eq_self_iff, encode_eq_iff]
  exact and_left_comm

/-- Settles O1: a well-formed command is read from its own word, by `decode_eq_ok_iff`. -/
theorem decodeOfEncode : Obligations.DecodeOfEncode := by
  unfold Obligations.DecodeOfEncode
  exact fun i hi => decode_eq_ok_iff.2 ⟨hi, rfl⟩

/-- Settles O2, the converse, by `decode_eq_ok_iff` too. -/
theorem decodedWordIsItsEncoding : Obligations.DecodedWordIsItsEncoding := by
  unfold Obligations.DecodedWordIsItsEncoding
  exact fun w i => decode_eq_ok_iff.1

/-- What rule R114 says of a word and its command. -/
theorem encode_and_decode {i : Instr} {w : Word} (hi : i.WellFormed) (h : encode i = w) : encode i = w ∧ decode w = .ok i :=
  ⟨h, decode_eq_ok_iff.2 ⟨hi, h⟩⟩

/-- Settles O4: each word is computed by the encoder, and decodes by `decode_eq_ok_iff`. -/
theorem wordsOfRule114Decode : Obligations.WordsOfRule114Decode := by
  unfold Obligations.WordsOfRule114Decode
  refine ⟨?_, ?_, ?_, ?_, ?_, ?_, ?_⟩
  all_goals exact encode_and_decode rfl rfl

/-! ### The table of rule R104 -/

/-- One command of each row, in the order of the table. -/
def rowInstrs : List Instr :=
  [.nop, .freqClear, .freqInc 0, .freqWrite 0, .freqRead 0, .treeBuild, .nodeRead 0, .codeBuild, .codeRead 0 0, .encStart, .encSym 0,
    .encEof, .decStart, .decSym]

theorem opcodeRows_eq : opcodeRows = rowInstrs.map (fun i => (i.rowMask, i.rowMatch)) := rfl

theorem rowsMatched_eq (w : Word) :
    rowsMatched w = (rowInstrs.filter (fun i => w &&& i.rowMask = i.rowMatch)).map (fun i => (i.rowMask, i.rowMatch)) := by
  rw [rowsMatched, opcodeRows_eq, List.filter_map]
  rfl

/-- No two rows have the same opcode. -/
theorem rows_of_opcode (j : Instr) :
    (rowInstrs.filter (fun i => j.opcode = i.opcode)).map (fun i => (i.rowMask, i.rowMatch)) = [(j.rowMask, j.rowMatch)] := by
  cases j <;> rfl

/-- The mask and match of a row test what its decoder tests: the opcode, and the fields that must be 0. -/
theorem matches_row_iff_decodeRow {w : Word} {i : Instr} :
    w &&& i.rowMask = i.rowMatch ↔ opField w = i.opcode ∧ ∃ j, decodeRow w i = .ok j := by
  cases i with
  | freqInc k | freqWrite k | freqRead k | nodeRead k | encSym k =>
    exact (matches_operand w _).trans (by simp [decodeRow, decodeOperand_ok, and_assoc, and_comm, and_left_comm])
  | codeRead k n => exact (matches_codeRead w _).trans (by simp [decodeRow, decodeCodeRead_ok, and_assoc, and_comm, and_left_comm])
  | _ => exact (matches_plain w _).trans (by simp [decodeRow, decodePlain_ok, and_assoc, and_comm, and_left_comm])

/-- A word matches a row exactly where it decodes to a command of that row. -/
theorem matches_row_iff {w : Word} {i : Instr} :
    w &&& i.rowMask = i.rowMatch ↔ ∃ j, decode w = .ok j ∧ j.opcode = i.opcode := by
  rw [matches_row_iff_decodeRow]
  constructor
  · rintro ⟨hop, j, hj⟩
    have hd : decode w = .ok j := (decode_of_opField hop).trans hj
    exact ⟨j, hd, (opField_of_decode hd).symm.trans hop⟩
  · rintro ⟨j, hd, hji⟩
    have hop : opField w = i.opcode := (opField_of_decode hd).trans hji
    exact ⟨hop, j, (decode_of_opField hop).symm.trans hd⟩

theorem rowsMatched_of_ok {w : Word} {j : Instr} (h : decode w = .ok j) : rowsMatched w = [(j.rowMask, j.rowMatch)] := by
  simp [rowsMatched_eq, matches_row_iff, h, rows_of_opcode]

theorem rowsMatched_of_error {w : Word} {e : Illegal} (h : decode w = .error e) : rowsMatched w = [] := by
  simp [rowsMatched_eq, matches_row_iff, h]

/-- Settles O3: the rows matched are those of the decoded command's opcode, by `matches_row_iff`. -/
theorem legalWordMatchesOneRow : Obligations.LegalWordMatchesOneRow := by
  unfold Obligations.LegalWordMatchesOneRow
  exact fun w => ⟨fun i => rowsMatched_of_ok, fun e => rowsMatched_of_error⟩

end Sys2Proof
end

section
/-! SUPPORT. The issue of a command word, an illegal word, the first step of a command, and the host's branches (30_encoding.md, sections
5 and 6). -/

namespace Sys2Proof.Machine

/-! ### The pending word (rules R105, R107, R108, R109) -/

/-- An error of no unit is recorded and completes the command, and that is all (rules R255, R257). -/
theorem State.raiseCmd_noUnit (e : ErrorKind) (info : BitVec 10) (s : State) :
    s.raiseCmd .noUnit e info = { s with error := s.error.record e s.pendOp info, pend := none } := rfl

theorem engineStep_error {s : State} {p : Pend} {e : Illegal} (hp : s.pend = some p) (hd : decode p.word = .error e) :
    engineStep s = .next (s.raiseCmd .noUnit .illegalCmd (opndField p.word)) := by simp [engineStep, hp, hd]

/-- Settles O6: the step raises `ILLEGAL_CMD`, which fails no unit. -/
theorem illegalWordRaisesOnly : Obligations.IllegalWordRaisesOnly := by
  unfold Obligations.IllegalWordRaisesOnly
  intro s p e hp hd
  rw [engineStep_error hp hd, State.raiseCmd_noUnit, State.pendOp_of_pend hp]
  rfl

/-- Settles O7: `CMD` is locked while busy, and while idle a write of it is its issue. -/
theorem cmdWriteIssues : Obligations.CmdWriteIssues := by
  unfold Obligations.CmdWriteIssues
  refine fun s w => ⟨fun hidle => ?_, fun hbusy => State.writeReg_locked hbusy rfl w⟩
  rw [State.writeReg_idle hidle]
  exact ⟨rfl, rfl⟩

/-- Settles O10: a command answers a next state, and one that is not streaming leaves nothing pending there. -/
theorem singleStepCommandsComplete : Obligations.SingleStepCommandsComplete := by
  unfold Obligations.SingleStepCommandsComplete
  intro i s hi
  obtain ⟨t, ht⟩ := exec_next i s
  exact ⟨t, ht, by simp [State.busy, exec_single_pend hi ht]⟩

/-! ### Branches (rule R115) -/

theorem State.testValue_of_read {s : State} {v : Word} (h : s.host.v = some v) : s.testValue = (v, s) := by
  simp [State.testValue, h]

theorem hostJump_of_site {s : State} {label k : Nat} (h : labelSites label 0 s.host.prog = [k]) :
    hostJump label s = .next { s with host := { s.host with next := k } } := by
  simp [hostJump, h]

theorem hostDo_beq {s : State} {v : Word} (h : s.host.v = some v) (mask want : Word) (label : Nat) :
    hostDo (.beq mask want label) s = if v &&& mask = want then hostJump label s else .next s.hostNext := by
  simp [hostDo, State.testValue_of_read h]

theorem hostDo_bne {s : State} {v : Word} (h : s.host.v = some v) (mask want : Word) (label : Nat) :
    hostDo (.bne mask want label) s = if v &&& mask = want then .next s.hostNext else hostJump label s := by
  simp [hostDo, State.testValue_of_read h]

/-- Settles O53: the two branches test the same condition, and go opposite ways. -/
theorem hostBranches : Obligations.HostBranches := by
  unfold Obligations.HostBranches
  intro s v mask want label k hv hsite
  rw [hostDo_beq hv, hostDo_bne hv, hostJump_of_site hsite]
  exact ⟨fun heq => ⟨if_pos heq, if_pos heq⟩, fun hne => ⟨if_neg hne, if_neg hne⟩⟩

end Sys2Proof.Machine
end

section
/-! SUPPORT. The words of the commands, a command run by itself for one step, and the frequency table under its commands
(40_frequency.md). -/

namespace Sys2Proof.Machine

/-! ### The word of a command (rules R102, R105) -/

/-- A command without an operand has one word. -/
theorem decode_eq_ok_iff_eq {i : Instr} {v : Word} (hi : i.WellFormed) (hv : encode i = v) (w : Word) :
    decode w = .ok i ↔ w = v := by
  rw [decode_eq_ok_iff, hv]
  exact ⟨fun h => h.2.symm, fun h => ⟨hi, h.symm⟩⟩

/-- A command whose one operand is `OPND` has the words with its opcode and that operand. -/
theorem decode_eq_ok_iff_operand {mk : Nat → Instr} {k : Nat} {w : Word} (hmk : Function.Injective mk)
    (hrow : decodeRow w (mk k) = decodeOperand w mk) : decode w = .ok (mk k) ↔ IsOperandWord (mk k).opcode k w := by
  rw [decode_eq_ok_iff_row, hrow, decodeOperand_ok, hmk.eq_iff, IsOperandWord]
  tauto

/-! ### One engine step of a command issued while idle (rules R107, R108) -/

theorem runCommand_one {i : Instr} {s t : State} (hi : i.WellFormed) (ht : exec i (s.issue (encode i)) = .next t) :
    runCommand 1 i s = t :=
  engineNext_eq (s.issue_pend _) (decode_eq_ok_iff.2 ⟨hi, rfl⟩) ht

/-! ### `FREQ_CLEAR` (rule R130) -/

/-- Settles O12: the empty table counts 0 for every real symbol, and the entry of `EOF_SYMBOL` is not stored. -/
theorem freqClearEmptiesTheTable : Obligations.FreqClearEmptiesTheTable := by
  unfold Obligations.FreqClearEmptiesTheTable
  exact ⟨decode_eq_ok_iff_eq rfl rfl, fun s => ⟨_, rfl, rfl, fun _ hk => countOf_nil hk, countOf_eof _⟩⟩

/-! ### `FREQ_INC` (rule R131) -/

/-- A real symbol's new count is read for it and for no other, whatever is invalidated beside (rules R22, R62). -/
theorem State.countAt_setCount (s : State) {k : Nat} (hk : k < 256) (x : Word) (j : Nat) :
    ({ s with count := setCount s.count k x } : State).invalidate.complete.countAt j = if j = k then x else s.countAt j :=
  countOf_setCount s.count j x hk

theorem execFreqInc_badSymbol {k : Nat} (hk : 256 ≤ k) (s : State) :
    execFreqInc k s = .next (s.raiseCmd .noUnit .badSymbol (BitVec.ofNat 10 k)) :=
  if_pos hk.not_gt

theorem execFreqInc_countOverflow {k : Nat} {s : State} (hk : k < 256) (hmax : (s.countAt k).toNat = s.maxCount) :
    execFreqInc k s = .next (s.raiseCmd .noUnit .countOverflow (BitVec.ofNat 10 k)) :=
  (if_neg (not_not.2 hk)).trans (if_pos hmax)

theorem execFreqInc_counts {k : Nat} {s : State} (hk : k < 256) (hmax : (s.countAt k).toNat ≠ s.maxCount) :
    execFreqInc k s = .next { s with count := setCount s.count k (s.countAt k + 1) }.invalidate.complete :=
  (if_neg (not_not.2 hk)).trans (if_neg hmax)

/-- Settles O13: the two checks in their order, and read after write of a count. -/
theorem freqIncCountsOne : Obligations.FreqIncCountsOne := by
  unfold Obligations.FreqIncCountsOne
  intro k s
  exact ⟨fun w => decode_eq_ok_iff_operand @Instr.freqInc.inj rfl, fun hk => execFreqInc_badSymbol hk s,
    fun hk hmax => execFreqInc_countOverflow hk hmax,
    fun hk hmax => ⟨_, execFreqInc_counts hk hmax, rfl, s.countAt_setCount hk _⟩⟩

/-! ### `FREQ_WRITE` (rule R132) -/

theorem execFreqWrite_badSymbol {k : Nat} (hk : 256 < k) (s : State) :
    execFreqWrite k s = .next (s.raiseCmd .noUnit .badSymbol (BitVec.ofNat 10 k)) :=
  if_pos hk.not_ge

/-- `EOF_SYMBOL` stores nothing, and takes no count but its own. -/
theorem execFreqWrite_eof (s : State) :
    execFreqWrite 256 s =
      if s.dataLo = 1 then .next s.invalidate.complete else .next (s.raiseCmd .noUnit .malformedHeader (BitVec.ofNat 10 256)) := by
  by_cases hdata : s.dataLo = 1 <;> simp [execFreqWrite, Config.eofSymbol, Config.nReal, hdata]

/-- A real symbol takes every count that fits `COUNT_BITS`. -/
theorem execFreqWrite_real {k : Nat} (hk : k < 256) (s : State) :
    execFreqWrite k s =
      if s.maxCount < s.dataLo.toNat then .next (s.raiseCmd .noUnit .countOverflow (BitVec.ofNat 10 k))
      else .next { s with count := setCount s.count k s.dataLo }.invalidate.complete := by
  simp [execFreqWrite, Config.eofSymbol, Config.nReal, hk, hk.le, hk.ne]

theorem State.maxCount_lt_iff (s : State) (n : Nat) : s.maxCount < n ↔ 2 ^ s.params.countBits ≤ n := by
  have hpos := Nat.two_pow_pos s.params.countBits
  unfold State.maxCount
  omega

/-- Settles O14: the checks by the kind of symbol (above `EOF_SYMBOL`, `EOF_SYMBOL`, real), and read after write of a count. -/
theorem freqWriteSetsTheCount : Obligations.FreqWriteSetsTheCount := by
  unfold Obligations.FreqWriteSetsTheCount
  intro k s
  refine ⟨fun w => decode_eq_ok_iff_operand @Instr.freqWrite.inj rfl, fun hk => execFreqWrite_badSymbol hk s, ?malformed,
    ?overflow, ?eof, ?real⟩
  case malformed =>
    rintro rfl hdata
    exact (execFreqWrite_eof s).trans (if_neg hdata)
  case overflow =>
    intro hk hdata
    exact (execFreqWrite_real hk s).trans (if_pos ((s.maxCount_lt_iff _).2 hdata))
  case eof =>
    rintro rfl hdata
    exact (execFreqWrite_eof s).trans (if_pos hdata)
  case real =>
    intro hk hdata
    have hfits : ¬ s.maxCount < s.dataLo.toNat := fun h => hdata.not_ge ((s.maxCount_lt_iff _).1 h)
    exact ⟨_, (execFreqWrite_real hk s).trans (if_neg hfits), rfl, s.countAt_setCount hk _⟩

/-! ### `FREQ_READ` (rule R133) -/

theorem execFreqRead_badSymbol {k : Nat} (hk : 256 < k) (s : State) :
    execFreqRead k s = .next (s.raiseCmd .noUnit .badSymbol (BitVec.ofNat 10 k)) :=
  if_pos hk.not_ge

theorem execFreqRead_reads {k : Nat} (hk : k ≤ 256) (s : State) :
    execFreqRead k s = .next { s with dataLo := s.countAt k, dataHi := 0 }.complete :=
  if_neg (not_not.2 hk)

/-- Settles O15: the symbol is stored or it is not, and the entry of `EOF_SYMBOL` is hardwired. -/
theorem freqReadReadsTheCount : Obligations.FreqReadReadsTheCount := by
  unfold Obligations.FreqReadReadsTheCount
  exact fun k s => ⟨fun w => decode_eq_ok_iff_operand @Instr.freqRead.inj rfl, fun hk => execFreqRead_badSymbol hk s,
    fun hk => execFreqRead_reads hk s, countOf_eof _⟩

/-! ### Counting an input (rule R134) -/

theorem runCommand_freqClear (s : State) : runCommand 1 .freqClear s = { s with count := [] }.invalidate.complete :=
  runCommand_one rfl rfl

theorem runCommand_freqInc {k : Nat} {s : State} (hk : k < 256) (hmax : (s.countAt k).toNat ≠ s.maxCount) :
    runCommand 1 (.freqInc k) s = { s with count := setCount s.count k (s.countAt k + 1) }.invalidate.complete := by
  have hword : (Instr.freqInc k).WellFormed := decide_eq_true (hk.trans (by decide))
  exact runCommand_one hword (execFreqInc_counts (s := s.issue _) hk hmax)

/-- `t` is a state after `s` in which the frequency table counts the symbols of `done`. -/
structure Counts (s : State) (done : List Nat) (t : State) : Prop where
  params : t.params = s.params
  error : t.error = s.error
  counts : ∀ k, k < 256 → (t.countAt k).toNat = done.count k

theorem counts_freqClear (s : State) : Counts s [] (runCommand 1 .freqClear s) := by
  rw [runCommand_freqClear]
  exact ⟨rfl, rfl, fun k hk => congrArg BitVec.toNat (countOf_nil hk)⟩

/-- `FREQ_INC` counts one symbol more, where its new count fits `COUNT_BITS`. -/
theorem Counts.freqInc {s u : State} {done : List Nat} {k : Nat} (h : Counts s done u) (hk : k < 256)
    (hfits : done.count k + 1 < 2 ^ s.params.countBits) (hbits : s.params.countBits ≤ 32) :
    Counts s (done ++ [k]) (runCommand 1 (.freqInc k) u) := by
  have hcount : (u.countAt k).toNat = done.count k := h.counts k hk
  have hmax : (u.countAt k).toNat ≠ u.maxCount := by
    rw [hcount, State.maxCount, h.params]
    omega
  have hinc : (u.countAt k + 1).toNat = done.count k + 1 := by
    have hword : 2 ^ s.params.countBits ≤ 2 ^ 32 := Nat.pow_le_pow_right (by decide) hbits
    rw [BitVec.toNat_add, hcount]
    exact Nat.mod_eq_of_lt (hfits.trans_le hword)
  rw [runCommand_freqInc hk hmax]
  refine ⟨h.params, h.error, fun j hj => ?_⟩
  rw [u.countAt_setCount hk, List.count_append]
  by_cases hjk : j = k
  · rw [hjk, if_pos rfl, hinc, List.count_singleton_self]
  · simp [hjk, Ne.symm hjk, h.counts j hj]

theorem counts_input (s : State) (hbits : s.params.countBits ≤ 32) (input : List Nat) (hreal : ∀ k ∈ input, k < 256)
    (hfits : ∀ k, input.count k < 2 ^ s.params.countBits) :
    Counts s input (input.foldl (fun u k => runCommand 1 (.freqInc k) u) (runCommand 1 .freqClear s)) := by
  induction input using List.reverseRecOn with
  | nil => exact counts_freqClear s
  | append_singleton done k ih =>
    have hdone (j : Nat) : done.count j < 2 ^ s.params.countBits :=
      ((List.sublist_append_left done [k]).count_le j).trans_lt (hfits j)
    rw [List.foldl_concat]
    exact (ih (fun j hj => hreal j (List.mem_append_left _ hj)) hdone).freqInc (hreal k (by simp)) (by simpa using hfits k) hbits

theorem sum_count_range {n : Nat} {input : List Nat} (h : ∀ k ∈ input, k < n) :
    ((List.range n).map (fun k => input.count k)).sum = input.length := by
  have hsum := Multiset.sum_count_eq_card (m := (input : Multiset Nat)) fun k hk => Finset.mem_range.2 (h k hk)
  rw [← List.sum_toFinset _ List.nodup_range, List.toFinset_range]
  simpa using hsum

/-- Settles O16, by induction over the input (`counts_input`); the occurrences of the real symbols add up to its length. -/
theorem frequencyConservation : Obligations.FrequencyConservation := by
  unfold Obligations.FrequencyConservation
  rintro s t input hreal hfits hbits rfl
  have h := counts_input s hbits input hreal hfits
  refine ⟨h.counts, ?_, h.error⟩
  rw [← sum_count_range hreal]
  exact congrArg List.sum (List.map_congr_left fun k hk => h.counts k (List.mem_range.1 hk))

end Sys2Proof.Machine
end

section
/-! SUPPORT. The node store after `TREE_BUILD`: the leaves, the internal nodes and the order of the merges, the root paths of the leaves, and
what `NODE_READ` shows of a record (41_tree.md). -/

namespace Sys2Proof.Machine

/-! ### The records (rules R150 to R154) -/

section
variable {s t : State}

theorem TreeBuilt.root_succ (h : TreeBuilt s t) : t.root.toNat + 1 = t.nodeCount.toNat := by
  rw [h.root, h.nodeCount, (buildTree_shape s.count).root]

theorem TreeBuilt.nodeCount_le (h : TreeBuilt s t) : t.nodeCount.toNat ≤ t.nodes.length := by
  rw [h.nodes, h.nodeCount, List.length_append]
  exact Nat.le_add_right _ _

theorem TreeBuilt.record_stale (h : TreeBuilt s t) {i : Nat} (hi : t.nodeCount.toNat ≤ i) : t.nodes[i]? = s.nodes[i]? := by
  rw [h.nodeCount] at hi
  rw [h.nodes, List.getElem?_append_right hi, List.getElem?_drop, Nat.add_sub_cancel' hi]

theorem TreeBuilt.node_leaf (h : TreeBuilt s t) {i : NodeIdx} (hi : i.toNat < (presentSymbols s.count).length) :
    t.node i = leafNode s.count (presentSymbols s.count)[i.toNat] := by
  rw [h.node (hi.trans (length_lt_buildTree s.count)), recordAt_leaf hi]

/-- The internal nodes are those of the built tree, in the store too. -/
theorem TreeBuilt.innerAt (h : TreeBuilt s t) (hL : 2 ≤ (presentSymbols s.count).length) {i : Nat}
    (hi : (presentSymbols s.count).length ≤ i) (hlt : i < t.nodeCount.toNat) : InnerAt t.nodes i := by
  rw [h.nodeCount] at hlt
  rw [h.nodes]
  exact ((buildTree_shape s.count).inner hL i hi hlt).append _ hlt

/-- Later records change nothing of what a merge took. -/
theorem MergeFirst.append {ns : List Node} {L m : Nat} (ms : List Node) (hm : m < ns.length) (hin : InnerAt ns m)
    (h : MergeFirst ns L m) : MergeFirst (ns ++ ms) L m := by
  have hrec : recordAt (ns ++ ms) m = recordAt ns m := recordAt_append_left ns ms hm
  have helem {j : Nat} (hj : j < m) : elemAt (ns ++ ms) j = elemAt ns j := by
    rw [elemAt, recordAt_append_left ns ms (hj.trans hm)]
  have htaken (j : Nat) : TakenBelow (ns ++ ms) L m j ↔ TakenBelow ns L m j := TakenBelow.append ms hm.le
  constructor
  · rw [hrec, helem hin.zero, helem hin.one]
    exact h.order
  · intro j hj
    rw [hrec, helem hin.one, helem hj, htaken]
    exact h.first j hj
  · rw [hrec, htaken, htaken]
    exact h.fresh

theorem TreeBuilt.mergeFirst (h : TreeBuilt s t) (hL : 2 ≤ (presentSymbols s.count).length) {m : Nat}
    (hm : (presentSymbols s.count).length ≤ m) (hlt : m < t.nodeCount.toNat) :
    MergeFirst t.nodes (presentSymbols s.count).length m := by
  rw [h.nodeCount] at hlt
  rw [h.nodes]
  exact (buildTree_merges hL hm hlt).append _ hlt ((buildTree_shape s.count).inner hL m hm hlt)

end

theorem not_takenBelow_iff {ns : List Node} {L : Nat} {m j : NodeIdx} :
    ¬ TakenBelow ns L m.toNat j.toNat ↔
      ∀ i : NodeIdx, L ≤ i.toNat → i.toNat < m.toNat → (nodeOf ns i).zero ≠ j ∧ (nodeOf ns i).one ≠ j := by
  constructor
  · intro h i hL hi
    exact ⟨fun hz => h ⟨i.toNat, hL, hi, .inl (congrArg BitVec.toNat hz)⟩,
      fun ho => h ⟨i.toNat, hL, hi, .inr (congrArg BitVec.toNat ho)⟩⟩
  · rintro h ⟨i, hL, hi, hchild⟩
    have hidx : (BitVec.ofNat 10 i).toNat = i := by
      rw [BitVec.toNat_ofNat, Nat.mod_eq_of_lt (hi.trans m.isLt)]
    have hnot := h (BitVec.ofNat 10 i) (hidx.symm ▸ hL) (hidx.symm ▸ hi)
    rw [nodeOf_eq_recordAt, hidx] at hnot
    rcases hchild with hz | ho
    · exact hnot.1 (BitVec.eq_of_toNat_eq hz)
    · exact hnot.2 (BitVec.eq_of_toNat_eq ho)

/-- Settles O17: the step answers what `treeBuilt` says of it, and the root is an internal node of the tree held. -/
theorem treeBuildEffect : Obligations.TreeBuildEffect := by
  unfold Obligations.TreeBuildEffect
  refine ⟨decode_eq_ok_iff_eq rfl rfl, fun s => ⟨_, rfl, rfl, ?_⟩⟩
  have hb := treeBuilt (s := s) rfl
  exact ⟨hb.root_succ, hb.nodeCount_le, hb.holds.root_internal, fun i hi => hb.record_stale hi⟩

/-- Settles O18: the symbols are the present ones, whose leaves stand first in the store, and the length is the built tree's. -/
theorem leavesInSymbolOrder : Obligations.LeavesInSymbolOrder := by
  unfold Obligations.LeavesInSymbolOrder
  intro s t syms h hsyms
  rw [← presentSymbols_eq_filter] at hsyms
  subst hsyms
  have hb := treeBuilt h
  refine ⟨presentSymbols_length_pos _, presentSymbols_length_le _, ?_, ?_, fun i hi => hb.node_leaf hi⟩
  · rw [hb.nodeCount, (buildTree_shape s.count).length]
  · rw [hb.nodeCount]
    exact buildTree_length_le _

/-- Settles O19, by the shape of the internal nodes (`InnerAt`). -/
theorem internalNodesJoinEarlierNodes : Obligations.InternalNodesJoinEarlierNodes := by
  unfold Obligations.InternalNodesJoinEarlierNodes
  intro s t h hL i hi hlt
  have hin := (treeBuilt h).innerAt hL hi hlt
  exact ⟨hin.sym, hin.zero, hin.one, hin.sum, hin.order⟩

/-- Settles O20: what each merge took (`MergeFirst`), with the order of rule R151 written out. -/
theorem eachMergeTakesTheTwoFirst : Obligations.EachMergeTakesTheTwoFirst := by
  unfold Obligations.EachMergeTakesTheTwoFirst
  intro s t h hL m hm hlt
  have hmerge := (treeBuilt h).mergeFirst hL hm hlt
  refine ⟨(comesBefore_iff _ _).1 hmerge.order, fun i hi him => ?_, fun j hj hz ho hfree => ?_⟩
  · obtain ⟨hzero, hone⟩ := hmerge.fresh
    obtain ⟨hzz, hoz⟩ := not_takenBelow_iff.1 hzero i hi him
    obtain ⟨hzo, hoo⟩ := not_takenBelow_iff.1 hone i hi him
    exact ⟨hzz, hoz, hzo, hoo⟩
  · have hne {i : NodeIdx} (hi : j ≠ i) : j.toNat ≠ i.toNat := fun e => hi (BitVec.eq_of_toNat_eq e)
    exact (comesBefore_iff _ _).1 (hmerge.first j.toNat hj (hne hz) (hne ho) (not_takenBelow_iff.2 hfree))

/-- Settles O21: `EOF_SYMBOL` alone is present, and the built tree is that of rule R153. -/
theorem oneLeafTree : Obligations.OneLeafTree := by
  unfold Obligations.OneLeafTree
  intro s t h hzero
  have hb := treeBuilt h
  have hmem (k : Nat) : k ∈ presentSymbols s.count ↔ k ∈ [256] := by
    rw [mem_presentSymbols_iff, List.mem_singleton]
    exact or_iff_left fun ⟨hk, hne⟩ => hne (hzero k hk)
  have hsingle : presentSymbols s.count = [256] :=
    List.perm_singleton.1 ((List.perm_ext_iff_of_nodup (presentSymbols_nodup _) (List.nodup_singleton _)).2 hmem)
  have htree := buildTree_single (congrArg List.length hsingle)
  have hcount : t.nodeCount.toNat = 2 := by rw [hb.nodeCount, htree]; rfl
  have hroot : t.root.toNat = 1 := by rw [hb.root, htree]
  have hnode {i : NodeIdx} (hi : i.toNat < 2) :
      t.node i = recordAt [leafNode s.count 256, syntheticRoot (leafNode s.count 256)] i.toNat := by
    rw [hb.node (by rw [← hb.nodeCount, hcount]; exact hi), htree]
  exact ⟨BitVec.eq_of_toNat_eq hcount, BitVec.eq_of_toNat_eq hroot, hnode (by decide), hnode (by decide)⟩

/-! ### Root paths, and what the tree depends on (rules R156, R158) -/

/-- Settles O23, by what holds of every store that holds a table's tree. -/
theorem leafPathsAreUniqueAndPrefixFree : Obligations.LeafPathsAreUniqueAndPrefixFree := by
  unfold Obligations.LeafPathsAreUniqueAndPrefixFree
  intro s t h
  have hT := (treeBuilt h).holds
  refine ⟨fun k => ?_, fun k p q => hT.codePath_unique, fun j k p q => codePath_prefix⟩
  rw [← mem_presentSymbols_iff]
  exact ⟨fun ⟨p, hp⟩ => hT.codePath_present hp, hT.present_codePath⟩

/-- Settles O24: the built trees are the same, and the registers and records below `NODE_COUNT` are the tree's. -/
theorem treeDependsOnCountsOnly : Obligations.TreeDependsOnCountsOnly := by
  unfold Obligations.TreeDependsOnCountsOnly
  intro s s' t t' hcounts h h'
  have hb := treeBuilt h
  have hb' := treeBuilt h'
  have htree : buildTree s.count = buildTree s'.count := buildTree_congr hcounts
  refine ⟨BitVec.eq_of_toNat_eq ?_, BitVec.eq_of_toNat_eq ?_, fun i hi => ?_⟩
  · rw [hb.nodeCount, hb'.nodeCount, htree]
  · rw [hb.root, hb'.root, htree]
  · rw [hb.nodeCount] at hi
    rw [hb.node hi, hb'.node (htree ▸ hi), htree]

/-! ### The code lengths (rule R157) -/

theorem execCodeBuild_of_treeValid {s : State} (h : s.treeValid = true) :
    execCodeBuild s = .next ({ s with
      codes := buildCodes s.nodes s.root,
      totalBits := BitVec.ofNat 64 (totalBitsOf (buildCodes s.nodes s.root) (s.nodes.take s.nodeCount.toNat)),
      codeValid := true,
      encState := .idle } : State).complete :=
  if_neg (by simp [h])

/-- Settles O25: the built tree, read as a tree of symbols, is the best one (`buildTree_best`), and the codes are its root paths. -/
theorem builtTreeIsOptimal : Obligations.BuiltTreeIsOptimal := by
  unfold Obligations.BuiltTreeIsOptimal
  intro s t u other hL h hu hother
  have hb := treeBuilt h
  have hT := hb.holds
  obtain ⟨best, hrep, hsyms, hbest⟩ := buildTree_best hL
  rw [← hT.root] at hrep
  replace hrep : Represents t.nodes best t.root := by
    rw [hb.nodes]
    exact hrep.append (buildTree_closed _) _ hT.root_lt
  have hcode (k : Nat) : u.code k = codeOf (buildCodes t.nodes t.root) k := by
    cases (execCodeBuild_of_treeValid hb.treeValid).symm.trans hu
    rfl
  have hpath : ∀ k ∈ best.symbols, IsCodePath t.nodes t.root k (u.code k) := fun k hk => by
    rw [hcode]
    exact hT.code_path (hsyms.mem_iff.1 hk)
  have hdepth := hrep.weightedDepth (hsyms.nodup_iff.2 (presentSymbols_nodup _)) (fun k => (s.countAt k).toNat) u.code hpath 0
  simp only [Nat.zero_add] at hdepth
  rw [← (hsyms.map _).sum_eq, hdepth]
  exact hbest other hother

/-! ### `NODE_READ` (rule R155) -/

theorem execNodeRead_noTree {s : State} (h : s.treeValid = false) (i : Nat) :
    execNodeRead i s = .next (s.raiseCmd .noUnit .noTree (BitVec.ofNat 10 i)) :=
  if_pos h

theorem execNodeRead_badIndex {s : State} {i : Nat} (h : s.treeValid = true) (hi : s.nodeCount.toNat ≤ i) :
    execNodeRead i s = .next (s.raiseCmd .noUnit .badIndex (BitVec.ofNat 10 i)) :=
  (if_neg (by simp [h])).trans (if_pos hi)

theorem execNodeRead_reads {s : State} {i : Nat} (h : s.treeValid = true) (hi : i < s.nodeCount.toNat) :
    execNodeRead i s = .next ({ s with
      result := nodeResult (s.node (BitVec.ofNat 10 i)),
      link := nodeLink (s.node (BitVec.ofNat 10 i)),
      dataLo := (s.node (BitVec.ofNat 10 i)).weight.extractLsb' 0 32,
      dataHi := ((s.node (BitVec.ofNat 10 i)).weight.extractLsb' 32 9).setWidth 32 } : State).complete :=
  (if_neg (by simp [h])).trans (if_neg hi.not_ge)

/-- The two halves of a weight in the data registers are the weight (rules R44, R45). -/
theorem weight_halves (x : Weight) :
    ((x.extractLsb' 32 9).setWidth 32).toNat * 2 ^ 32 + (x.extractLsb' 0 32).toNat = x.toNat := by
  have hx := x.isLt
  simp only [BitVec.toNat_setWidth, BitVec.extractLsb'_toNat, Nat.shiftRight_eq_div_pow]
  omega

/-- Settles O26: the two checks in their order, and the fields of the record. -/
theorem nodeReadShowsTheRecord : Obligations.NodeReadShowsTheRecord := by
  unfold Obligations.NodeReadShowsTheRecord
  exact fun i s => ⟨fun w => decode_eq_ok_iff_operand @Instr.nodeRead.inj rfl, fun h => execNodeRead_noTree h i,
    fun h hi => execNodeRead_badIndex h hi, fun h hi => ⟨_, execNodeRead_reads h hi, rfl, rfl, rfl, weight_halves _⟩⟩

end Sys2Proof.Machine
end

section
/-! SUPPORT. Streams whose commands are each run by themselves: what a block's encoder leaves in its FIFO, what another block's decoder reads
from it, and that the two agree (rules R193 to R195, R213 to R215). -/

namespace Sys2Proof.Machine

/-! ### A streaming command that has passed its validation (rules R109, R298) -/

/-- The pending command `i` at the start of its run steps. -/
abbrev State.running (i : Instr) (s : State) : State := { s with pend := some { word := encode i, phase := .run, idx := 0 } }

theorem runCommand_run {i : Instr} {s : State} (hi : i.WellFormed) (hv : exec i (s.issue (encode i)) = .next (s.running i)) (n : Nat) :
    runCommand (1 + n) i s = engineRun n (s.running i) := by
  have hnext : engineRun 1 (s.issue (encode i)) = s.running i := runCommand_one hi hv
  rw [runCommand, engineRun_add, hnext]

theorem execEncSym_running {k : Nat} {s : State} (hact : s.encState = .active) (hk : k < 256) (hcode : s.code k ≠ []) :
    exec (.encSym k) (s.issue (encode (.encSym k))) = .next (s.running (.encSym k)) :=
  congrArg Host.Outcome.next ((if_neg (not_not.2 hact)).trans ((if_neg (not_not.2 hk)).trans (if_neg hcode)))

theorem execEncEof_running {s : State} (hact : s.encState = .active) :
    exec .encEof (s.issue (encode .encEof)) = .next (s.running .encEof) :=
  congrArg Host.Outcome.next (if_neg (not_not.2 hact))

theorem execDecSym_running {s : State} (hact : s.decState = .active) :
    exec .decSym (s.issue (encode .decSym)) = .next (s.running .decSym) :=
  congrArg Host.Outcome.next (if_neg (not_not.2 hact))

/-! ### The encoder's stream (rules R193 to R195) -/

theorem Emits.refl {s : State} (h : EncOk s) : Emits [] s s := ⟨rfl, (List.append_nil _).symm, by simp, h⟩

theorem ofNat_length_append {α : Type} (a b : List α) :
    BitVec.ofNat 64 a.length + BitVec.ofNat 64 b.length = BitVec.ofNat 64 (a ++ b).length := by
  rw [List.length_append, BitVec.ofNat_add]

section
variable {a b : List Bool} {s t u : State}

/-- The command that was pending does not matter to what was emitted since. -/
theorem Emits.of_pend {p : Option Pend} (h : Emits a { s with pend := p } t) : Emits a s t :=
  ⟨h.frame, h.stream, h.bits, h.ok⟩

theorem Emits.trans (h : Emits a s t) (h' : Emits b t u) : Emits (a ++ b) s u where
  frame := by rw [h'.frame, h.frame]
  stream := by rw [h'.stream, h.stream, List.append_assoc]
  bits := by rw [h'.bits, h.bits, BitVec.add_assoc, ofNat_length_append]
  ok := h'.ok

theorem Emits.code (h : Emits a s t) : t.code = s.code := by rw [h.frame]; rfl
theorem Emits.encState (h : Emits a s t) : t.encState = s.encState := by rw [h.frame]
theorem Emits.params (h : Emits a s t) : t.params = s.params := by rw [h.frame]

end

/-- `ENC_SYM` of a symbol with a code, with room for it, appends the code to the stream and completes (rule R193). -/
theorem runCommand_encSym {s : State} {k : Nat} (hact : s.encState = .active) (hok : EncOk s) (hk : k < 256) (hcode : s.code k ≠ [])
    (hroom : s.outStream.length + (s.code k).length ≤ 8 * s.params.outDepth) :
    (runCommand (1 + (s.code k).length) (.encSym k) s).pend = none ∧
      Emits (s.code k) s (runCommand (1 + (s.code k).length) (.encSym k) s) := by
  have hword : (Instr.encSym k).WellFormed := decide_eq_true (hk.trans (by decide))
  obtain ⟨n, hn⟩ := Nat.exists_eq_succ_of_ne_zero (mt List.length_eq_zero_iff.1 hcode)
  rw [runCommand_run hword (execEncSym_running hact hk hcode)]
  rw [hn] at hroom ⊢
  obtain ⟨hpend, hemit⟩ := encSym_run k n (s.running (.encSym k)) _ rfl (decode_eq_ok_iff.2 ⟨hword, rfl⟩) rfl
    ((Nat.zero_add _).trans hn.symm) ⟨hok.n, hok.a⟩ hroom
  exact ⟨hpend, hemit.of_pend⟩

/-- The commands of a list of symbols with codes, with room for them, append the codes in order. -/
theorem encSyms_emit {s : State} (hact : s.encState = .active) (hok : EncOk s) (syms : List Nat)
    (hcodes : ∀ k ∈ syms, k < 256 ∧ s.code k ≠ [])
    (hroom : s.outStream.length + (syms.flatMap s.code).length ≤ 8 * s.params.outDepth) :
    Emits (syms.flatMap s.code) s (syms.foldl (fun u k => runCommand (1 + (s.code k).length) (.encSym k) u) s) := by
  induction syms using List.reverseRecOn with
  | nil => exact Emits.refl hok
  | append_singleton done k ih =>
    rw [List.flatMap_append, List.flatMap_singleton] at hroom ⊢
    rw [List.length_append] at hroom
    rw [List.foldl_concat]
    have hdone := ih (fun j hj => hcodes j (List.mem_append_left _ hj)) (by omega)
    obtain ⟨hk, hcode⟩ := hcodes k (by simp)
    rw [← hdone.code] at hcode
    obtain ⟨-, hlast⟩ := runCommand_encSym (hdone.encState.trans hact) hdone.ok hk hcode (by
      rw [hdone.stream, hdone.code, hdone.params, List.length_append]
      omega)
    rw [hdone.code] at hlast
    exact hdone.trans hlast

/-- `u` is `s` with `bits` appended to its stream, and the stream ended: filled up with zeros to the byte, which are not counted. -/
structure StreamEnded (bits : List Bool) (s u : State) : Prop where
  frame : u = { s with outFifo := u.outFifo, encAcc := u.encAcc, encN := u.encN, encBits := u.encBits, encState := .done,
                       pend := none }
  content : ∃ z, z < 8 ∧ bytesBits u.outFifo = s.outStream ++ bits ++ List.replicate z false
  bits : u.encBits = s.encBits + BitVec.ofNat 64 bits.length

theorem Emits.streamEnded {a b : List Bool} {s t u : State} (h : Emits a s t) (h' : StreamEnded b t u) :
    StreamEnded (a ++ b) s u where
  frame := by rw [h'.frame, h.frame]
  content := by
    obtain ⟨z, hz, hcontent⟩ := h'.content
    exact ⟨z, hz, by rw [hcontent, h.stream, ← List.append_assoc]⟩
  bits := by rw [h'.bits, h.bits, BitVec.add_assoc, ofNat_length_append]

/-- After the last code bit, where it filled a byte, the stream ends at once (rule R194). -/
theorem Emits.ended {bits : List Bool} {s t : State} (h : Emits bits s t) (h0 : t.encN = 0) : StreamEnded bits s t.encDone where
  frame := by
    show ({ t with encState := .done, pend := none } : State) = _
    rw [h.frame]
    rfl
  content := by
    refine ⟨0, by decide, ?_⟩
    have hpending : t.pendingBits = [] := by rw [pendingBits_eq, h0]; rfl
    rw [← h.stream, State.outStream, hpending]
    simp [State.encDone]
  bits := h.bits

/-- Elsewhere the padding step fills the byte up, where the FIFO has room for it (rules R191, R194). -/
theorem Emits.padded {bits : List Bool} {s t : State} (h : Emits bits s t) (h0 : t.encN ≠ 0)
    (hroom : t.outStream.length ≤ 8 * t.params.outDepth) : StreamEnded bits s (encEofPad t.beginPad) := by
  have hpos : 0 < t.encN.toNat := Nat.pos_of_ne_zero fun h' => h0 (BitVec.eq_of_toNat_eq h')
  have hfree : ¬ t.beginPad.OutFull := by
    intro hfull
    have hfull' : t.outFifo.length = t.params.outDepth := hfull
    rw [length_outStream, hfull'] at hroom
    omega
  obtain ⟨hfull, -⟩ | ⟨-, v, hpad, hframe, hstream, -⟩ := padByte_spec (s := t.beginPad) h.ok.n
  · exact absurd hfull hfree
  · have hend : encEofPad t.beginPad = v.encDone := by rw [encEofPad, hpad]
    have hn : v.encN = 0 := by rw [hframe]
    have hpending : v.pendingBits = [] := by rw [pendingBits_eq, hn]; rfl
    rw [State.outStream, hpending, List.append_nil] at hstream
    rw [hend]
    refine ⟨?_, ⟨8 - t.encN.toNat, by omega, ?_⟩, ?_⟩
    · show ({ v with encState := .done, pend := none } : State) = _
      rw [hframe, State.beginPad, h.frame]
      rfl
    · rw [← h.stream]
      exact hstream
    · rw [← h.bits]
      show v.encBits = t.encBits
      rw [hframe]
      rfl

/-- `ENC_EOF`, with room for the code of `EOF_SYMBOL`, appends it and ends the stream (rule R194). -/
theorem runCommand_encEof {s : State} (hact : s.encState = .active) (hok : EncOk s) (hcode : s.code 256 ≠ [])
    (hroom : s.outStream.length + (s.code 256).length ≤ 8 * s.params.outDepth) :
    StreamEnded (s.code 256) s (runCommand (2 + (s.code 256).length) .encEof s) := by
  obtain ⟨n, hn⟩ := Nat.exists_eq_succ_of_ne_zero (mt List.length_eq_zero_iff.1 hcode)
  rw [show 2 + (s.code 256).length = 1 + (n + 1 + 1) by omega, runCommand_run rfl (execEncEof_running hact), engineRun_add]
  obtain ⟨t, hrun, hemit, q, hq, hword⟩ := encEof_run n (s.running .encEof) _ rfl rfl rfl
    ((Nat.zero_add _).trans hn.symm) ⟨hok.n, hok.a⟩ (by rw [hn] at hroom; exact hroom)
  replace hemit : Emits (s.code 256) s t := hemit.of_pend
  rw [hrun]
  by_cases h0 : t.encN = 0
  · rw [if_pos h0, engineRun_idle 1 rfl]
    exact hemit.ended h0
  · have hd : decode q.word = .ok .encEof := by rw [hword]; rfl
    have hpend : t.beginPad.pend = some { q with phase := .pad } := by simp [hq]
    have hexec : exec .encEof t.beginPad = .next (encEofPad t.beginPad) := by
      simp [exec, execEncEof, State.phase_of_pend hpend]
    have hnext : engineRun 1 t.beginPad = encEofPad t.beginPad := engineNext_eq hpend hd hexec
    rw [if_neg h0, hnext]
    refine hemit.padded h0 ?_
    rw [hemit.stream, hemit.params, List.length_append]
    exact hroom

/-- `ENC_START` empties the encoder's pending bits and counts from 0 (rule R192). -/
theorem runCommand_encStart {s : State} (h : s.codeValid = true) :
    runCommand 1 .encStart s = { s with encState := .active, encAcc := 0, encN := 0, encBits := 0, pend := none } :=
  runCommand_one rfl (if_neg (by simp [h]))

theorem outStream_encStart {s : State} (hvalid : s.codeValid = true) (hfifo : s.outFifo = []) :
    (runCommand 1 .encStart s).outStream = [] := by
  simp [runCommand_encStart hvalid, State.outStream, pendingBits_eq, hfifo]

/-- The symbols of a list and then `EOF_SYMBOL`, encoded by an `ACTIVE` encoder with room for their codes (rule R195). -/
theorem encSyms_encEof {s : State} {syms : List Nat} (hact : s.encState = .active) (hok : EncOk s)
    (hcodes : ∀ k ∈ syms, k < 256 ∧ s.code k ≠ []) (heof : s.code 256 ≠ [])
    (hroom : s.outStream.length + (syms.flatMap s.code ++ s.code 256).length ≤ 8 * s.params.outDepth) :
    StreamEnded (syms.flatMap s.code ++ s.code 256) s (runCommand (2 + (s.code 256).length) .encEof
      (syms.foldl (fun u k => runCommand (1 + (s.code k).length) (.encSym k) u) s)) := by
  rw [List.length_append] at hroom
  have hsyms := encSyms_emit hact hok syms hcodes (by omega)
  rw [← hsyms.code] at heof
  have hend := runCommand_encEof (hsyms.encState.trans hact) hsyms.ok heof (by
    rw [hsyms.stream, hsyms.code, hsyms.params, List.length_append]
    omega)
  rw [hsyms.code] at hend
  exact hsyms.streamEnded hend

/-- A whole stream: after `ENC_START`, the codes of the symbols and of `EOF_SYMBOL` in order (rule R195). -/
theorem encodeStream_ends {s : State} {syms : List Nat} (hvalid : s.codeValid = true) (hfifo : s.outFifo = [])
    (hcodes : ∀ k ∈ syms, k < 256 ∧ s.code k ≠ []) (heof : s.code 256 ≠ [])
    (hroom : (syms.flatMap s.code ++ s.code 256).length ≤ 8 * s.params.outDepth) :
    StreamEnded (syms.flatMap s.code ++ s.code 256) (runCommand 1 .encStart s) (encodeStream syms s) := by
  have hempty := outStream_encStart hvalid hfifo
  rw [encodeStream]
  rw [runCommand_encStart hvalid] at hempty ⊢
  refine encSyms_encEof (s := { s with encState := .active, encAcc := 0, encN := 0, encBits := 0, pend := none }) rfl
    ⟨Nat.zero_le 7, Nat.one_pos⟩ hcodes heof ?_
  rw [hempty, List.length_nil, Nat.zero_add]
  exact hroom

/-- What the host finds in the FIFO and in `ENC_BITS` (rules R79, R195). -/
theorem encodeStream_content {s : State} {syms : List Nat} (hvalid : s.codeValid = true) (hfifo : s.outFifo = [])
    (hcodes : ∀ k ∈ syms, k < 256 ∧ s.code k ≠ []) (heof : s.code 256 ≠ [])
    (hroom : (syms.flatMap s.code ++ s.code 256).length ≤ 8 * s.params.outDepth) :
    (encodeStream syms s).encBits = BitVec.ofNat 64 (syms.flatMap s.code ++ s.code 256).length ∧
      ∃ z, z < 8 ∧ bytesBits (encodeStream syms s).outFifo = syms.flatMap s.code ++ s.code 256 ++ List.replicate z false := by
  have hend := encodeStream_ends hvalid hfifo hcodes heof hroom
  obtain ⟨z, hz, hcontent⟩ := hend.content
  rw [outStream_encStart hvalid hfifo, List.nil_append] at hcontent
  have hbits := hend.bits
  rw [runCommand_encStart hvalid] at hbits
  exact ⟨hbits.trans (BitVec.zero_add _), z, hz, hcontent⟩

/-! ### The decoder's reading (rules R213 to R215) -/

/-- `t` is `s` with its decoder gone on by `bits`, read from its input and counted. -/
structure Reads (bits : List Bool) (s t : State) : Prop where
  frame : t = { s with inFifo := t.inFifo, decShift := t.decShift, decAvail := t.decAvail, decBits := t.decBits,
                       cursor := t.cursor, result := t.result, decState := t.decState, pend := t.pend }
  stream : s.inStream = bits ++ t.inStream
  bits : t.decBits = s.decBits + BitVec.ofNat 64 bits.length
  avail : t.decAvail.toNat ≤ 8

theorem Reads.refl {s : State} (h : s.decAvail.toNat ≤ 8) : Reads [] s s := ⟨rfl, rfl, by simp, h⟩

theorem Reads.trans {a b : List Bool} {s t u : State} (h : Reads a s t) (h' : Reads b t u) : Reads (a ++ b) s u where
  frame := by rw [h'.frame, h.frame]
  stream := by rw [h.stream, h'.stream, List.append_assoc]
  bits := by rw [h'.bits, h.bits, BitVec.add_assoc, ofNat_length_append]
  avail := h'.avail

theorem Reads.nodes {bits : List Bool} {s t : State} (h : Reads bits s t) : t.nodes = s.nodes := by rw [h.frame]
theorem Reads.root {bits : List Bool} {s t : State} (h : Reads bits s t) : t.root = s.root := by rw [h.frame]
theorem Reads.error {bits : List Bool} {s t : State} (h : Reads bits s t) : t.error = s.error := by rw [h.frame]

theorem Reads.inStream_eq {bits rest : List Bool} {s t : State} (h : Reads bits s t) (hin : s.inStream = bits ++ rest) :
    t.inStream = rest :=
  List.append_cancel_left (h.stream.symm.trans hin)

/-- Where less than a byte of padding is left, no byte is: the padding is the unread bits of the last one (rules R84, R215). -/
theorem Reads.padding_left {bits : List Bool} {s t : State} {z : Nat} (h : Reads bits s t)
    (hin : s.inStream = bits ++ List.replicate z false) (hz : z < 8) : t.inFifo = [] ∧ t.decAvail.toNat = z := by
  have hlen : t.decAvail.toNat + 8 * t.inFifo.length = z := by
    simpa [State.inStream] using congrArg List.length (h.inStream_eq hin)
  have hnone : t.inFifo.length = 0 := by omega
  exact ⟨List.length_eq_zero_iff.1 hnone, by omega⟩

/-- The decoder is `ACTIVE` with its cursor at the root of a stored tree: where a symbol's bits begin (rules R211, R212). -/
structure AtRoot (c : Table Word) (s : State) : Prop where
  holds : HoldsTree c s.nodes s.root
  active : s.decState = .active
  cursor : s.cursor = s.root
  avail : s.decAvail.toNat ≤ 8

/-- `t` is `s` after a `DEC_SYM` that has read symbol `k` by its root path: `k` is the result, and the cursor is at the root again, or,
for `EOF_SYMBOL`, on its leaf (rules R211, R213). -/
structure SymbolRead (c : Table Word) (k : Nat) (path : List Bool) (s t : State) : Prop where
  reads : Reads path s t
  result : t.result = BitVec.ofNat 32 k
  idle : t.pend = none
  next : k ≠ 256 → AtRoot c t
  eof : k = 256 → t.decState = .done ∧ (t.node t.cursor).sym = 256

/-- `DEC_SYM` at the root, with the root path of a leaf at the head of the input, reads that leaf's symbol (rule R213). -/
theorem AtRoot.runCommand_decSym {c : Table Word} {s : State} {k : Nat} {path rest : List Bool} (h : AtRoot c s)
    (hpath : IsCodePath s.nodes s.root k path) (hin : s.inStream = path ++ rest) :
    SymbolRead c k path s (runCommand (1 + path.length) .decSym s) := by
  have hne : path ≠ [] := by
    obtain ⟨j, hp, hj, -⟩ := hpath
    exact h.holds.leaf_path_ne_nil hp hj
  have hle : k ≤ 256 := presentSymbols_le (h.holds.codePath_present hpath)
  rw [runCommand_run rfl (execDecSym_running h.active)]
  obtain ⟨t, hrun, hrest, hresult, hbits, havail, hframe, hroot, heof⟩ :=
    decode_run path (s.running .decSym) _ k rest rfl rfl rfl h.holds (h.cursor.symm ▸ h.holds.root_lt) h.avail hne
      (h.cursor.symm ▸ hpath) hin hle
  rw [hrun]
  refine ⟨⟨by rw [hframe], by rw [hrest]; exact hin, hbits, havail⟩, hresult, by rw [hframe], fun hk => ⟨?_, ?_, ?_, havail⟩,
    fun hk => ⟨?_, heof hk⟩⟩
  · rw [hframe]
    exact h.holds
  · rw [hframe, if_neg hk]
    exact h.active
  · rw [hroot hk, hframe]
  · rw [hframe, if_pos hk]

/-- The same where the decoder has come to the root by reading `bits`. -/
theorem AtRoot.decSym_next {c : Table Word} {s u : State} {k : Nat} {bits path rest : List Bool} (h : AtRoot c u) (hreads : Reads bits s u)
    (hpath : IsCodePath s.nodes s.root k path) (hin : s.inStream = bits ++ (path ++ rest)) :
    SymbolRead c k path u (runCommand (1 + path.length) .decSym u) := by
  rw [← hreads.nodes, ← hreads.root] at hpath
  exact h.runCommand_decSym hpath (hreads.inStream_eq hin)

theorem decodeSymbols_concat (code : Nat → List Bool) (syms : List Nat) (k : Nat) (s : State) :
    decodeSymbols code (syms ++ [k]) s = runCommand (1 + (code k).length) .decSym (decodeSymbols code syms s) := by
  rw [decodeSymbols, List.foldl_concat, ← decodeSymbols]

/-- A list of real symbols is decoded, with their root paths at the head of the input. -/
theorem AtRoot.reads_symbols {c : Table Word} {s : State} {code : Nat → List Bool} {syms : List Nat} {rest : List Bool} (h : AtRoot c s)
    (hpaths : ∀ k ∈ syms, k < 256 ∧ IsCodePath s.nodes s.root k (code k)) (hin : s.inStream = syms.flatMap code ++ rest) :
    AtRoot c (decodeSymbols code syms s) ∧ Reads (syms.flatMap code) s (decodeSymbols code syms s) := by
  induction syms using List.reverseRecOn generalizing rest with
  | nil => exact ⟨h, Reads.refl h.avail⟩
  | append_singleton done k ih =>
    rw [List.flatMap_append, List.flatMap_singleton] at hin ⊢
    rw [List.append_assoc] at hin
    obtain ⟨hroot, hreads⟩ := ih (fun j hj => hpaths j (List.mem_append_left _ hj)) hin
    obtain ⟨hk, hpath⟩ := hpaths k (by simp)
    have hlast := hroot.decSym_next hreads hpath hin
    rw [decodeSymbols_concat]
    exact ⟨hlast.next hk.ne, hreads.trans hlast.reads⟩

/-- Each symbol of a list is the result of its own command. -/
theorem AtRoot.result_of_prefix {c : Table Word} {s : State} {code : Nat → List Bool} {syms pre : List Nat} {k : Nat} {rest : List Bool}
    (h : AtRoot c s) (hpaths : ∀ j ∈ syms, j < 256 ∧ IsCodePath s.nodes s.root j (code j))
    (hin : s.inStream = syms.flatMap code ++ rest) (hpre : pre ++ [k] <+: syms) :
    (decodeSymbols code (pre ++ [k]) s).result = BitVec.ofNat 32 k := by
  obtain ⟨post, rfl⟩ := hpre
  simp only [List.flatMap_append, List.flatMap_singleton, List.append_assoc] at hin
  obtain ⟨hroot, hreads⟩ := h.reads_symbols (fun j hj => hpaths j (by simp [hj])) hin
  rw [decodeSymbols_concat]
  exact (hroot.decSym_next hreads (hpaths k (by simp)).2 hin).result

/-- After the symbols of a list comes `EOF_SYMBOL`, whose command ends the stream. -/
theorem AtRoot.reads_eof {c : Table Word} {s : State} {code : Nat → List Bool} {syms : List Nat} {rest : List Bool} (h : AtRoot c s)
    (hpaths : ∀ k ∈ syms, k < 256 ∧ IsCodePath s.nodes s.root k (code k)) (heof : IsCodePath s.nodes s.root 256 (code 256))
    (hin : s.inStream = syms.flatMap code ++ code 256 ++ rest) :
    SymbolRead c 256 (code 256) (decodeSymbols code syms s) (decodeSymbols code [256] (decodeSymbols code syms s)) ∧
      Reads (syms.flatMap code ++ code 256) s (decodeSymbols code [256] (decodeSymbols code syms s)) := by
  rw [List.append_assoc] at hin
  obtain ⟨hroot, hreads⟩ := h.reads_symbols hpaths hin
  have hlast := hroot.decSym_next hreads heof hin
  exact ⟨hlast, hreads.trans hlast.reads⟩

/-! ### `DEC_START` (rules R212, R214) -/

theorem runCommand_decStart {s : State} (h : s.treeValid = true) :
    runCommand 1 .decStart s =
      { s with cursor := s.root, decShift := 0, decAvail := 0, decBits := 0, decState := .active, pend := none } :=
  runCommand_one rfl (if_neg (by simp [h]))

/-- A decoder that has just been started stands at the root, with nothing read of the bytes given to it (rules R212, R214). -/
theorem startDecoding_eq {s : State} (h : s.treeValid = true) (bytes : List Byte) :
    startDecoding bytes s = { s with cursor := s.root, decShift := 0, decAvail := 0, decBits := 0, decState := .active, pend := none,
                                     inFifo := bytes } := by
  rw [startDecoding, runCommand_decStart h]

theorem atRoot_startDecoding {s : State} (h : s.Inv) (hvalid : s.treeValid = true) (bytes : List Byte) :
    AtRoot s.count (startDecoding bytes s) := by
  rw [startDecoding_eq hvalid]
  exact ⟨(h.tree hvalid).holds, rfl, rfl, Nat.zero_le 8⟩

theorem inStream_startDecoding {s : State} (h : s.treeValid = true) (bytes : List Byte) :
    (startDecoding bytes s).inStream = bytesBits bytes := by
  rw [startDecoding_eq h]
  rfl

/-! ### The round trip (rules R158, R214, R215) -/

/-- The codes of a block are root paths in the tree of every block with the same counts (rules R158, R170). -/
theorem code_isCodePath {e d : State} (he : e.Inv) (hcodes : e.codeValid = true) (hd : d.Inv) (htree : d.treeValid = true)
    (hcounts : ∀ k, k < 256 → d.countAt k = e.countAt k) {k : Nat} (hk : e.code k ≠ []) :
    IsCodePath d.nodes d.root k (e.code k) := by
  obtain ⟨hTe, hcode⟩ := he.codes_eq hcodes
  have hTd : HoldsTree e.count d.nodes d.root := (hd.tree htree).holds.congr (buildTree_congr hcounts)
  rw [hcode] at hk ⊢
  exact hTe.codePath_congr hTd (hTe.code_path ((hTe.code_ne_nil_iff k).1 hk))

/-- Settles O43: the bytes are the codes (`encodeStream_content`), which are root paths of the other block's tree (`code_isCodePath`), so
each `DEC_SYM` reads one of them (`AtRoot.result_of_prefix`, `AtRoot.reads_eof`). -/
theorem roundTrip : Obligations.RoundTrip := by
  unfold Obligations.RoundTrip
  intro e d u syms bytes he _ hcv hfifo hcodes hroom hbytes hd _ htv hcounts _ _ hu
  have heof := he.eof_code hcv
  obtain ⟨hencBits, z, hz, hcontent⟩ := encodeStream_content hcv hfifo hcodes heof hroom
  rw [← hbytes] at hcontent
  have hstart := startDecoding_eq htv bytes
  have hin := (inStream_startDecoding htv bytes).trans hcontent
  have hpath {k : Nat} (hk : e.code k ≠ []) :
      IsCodePath (startDecoding bytes d).nodes (startDecoding bytes d).root k (e.code k) := by
    rw [hstart]
    exact code_isCodePath he hcv hd htv hcounts hk
  have hroot := atRoot_startDecoding hd htv bytes
  have hpaths := fun k hk => And.intro (hcodes k hk).1 (hpath (hcodes k hk).2)
  obtain ⟨hlast, hreads⟩ := hroot.reads_eof hpaths (hpath heof) hin
  rw [← hu] at hlast hreads
  obtain ⟨hempty, havail⟩ := hreads.padding_left hin hz
  have hbits : u.decBits = (encodeStream syms e).encBits := by
    rw [hreads.bits, hencBits, hstart]
    exact BitVec.zero_add _
  have hwhole : (u.decAvail.toNat + u.decBits.toNat) % 8 = 0 := by
    have hlen := congrArg List.length hcontent
    rw [length_bytesBits, List.length_append, List.length_replicate] at hlen
    rw [havail, hbits, hencBits, BitVec.toNat_ofNat]
    omega
  refine ⟨fun pre k hpre => hroot.result_of_prefix hpaths (hin.trans (List.append_assoc _ _ _)) hpre, hlast.result,
    (hlast.eof rfl).1, ?_, hbits, hempty, havail ▸ hz, hwhole⟩
  rw [hreads.error, hstart]

end Sys2Proof.Machine
end

section
/-! SUPPORT. The code table that `CODE_BUILD` writes and `CODE_READ` shows: root paths of the stored tree, prefix-free, one for each present
symbol, and their total bit count (rules R170 to R175). -/

namespace Sys2Proof.Machine

/-! ### The codes (rules R170, R174, R175) -/

theorem mem_presentSymbols_iff_present {c : Table Word} {k : Nat} : k ∈ presentSymbols c ↔ present c k = true := by
  rw [mem_presentSymbols, and_iff_right_iff_imp]
  intro h
  rcases Bool.or_eq_true_iff.1 h with heof | hreal
  · exact (beq_iff_eq.1 heof).le
  · exact (of_decide_eq_true (Bool.and_eq_true_iff.1 hreal).1 : k < 256).le

/-- Settles O28: in the store of a table's tree, `buildCodes` records the root path of every present symbol and nothing else. -/
theorem codesAreRootPaths : Obligations.CodesAreRootPaths := by
  unfold Obligations.CodesAreRootPaths
  intro s t hinv hvalid ht k
  have hT : HoldsTree s.count s.nodes s.root := (hinv.tree hvalid).holds
  have hcode : t.code k = codeOf (buildCodes s.nodes s.root) k := by
    cases (execCodeBuild_of_treeValid hvalid).symm.trans ht
    rfl
  rw [hcode, ← Bool.not_eq_true, ← mem_presentSymbols_iff_present]
  exact ⟨hT.code_path, hT.code_absent⟩

/-- With valid codes, the present symbols are those that have one (rule R175). -/
theorem State.Inv.code_ne_nil_iff {s : State} (h : s.Inv) (hvalid : s.codeValid = true) (k : Nat) :
    s.code k ≠ [] ↔ k ∈ presentSymbols s.count := by
  obtain ⟨hT, hcode⟩ := h.codes_eq hvalid
  rw [hcode, hT.code_ne_nil_iff]

/-- With valid codes, a code that is not empty is a root path in the stored tree (rule R170). -/
theorem State.Inv.code_path {s : State} (h : s.Inv) (hvalid : s.codeValid = true) {k : Nat} (hk : s.code k ≠ []) :
    IsCodePath s.nodes s.root k (s.code k) :=
  code_isCodePath h hvalid h (h.codes hvalid).1 (fun _ _ => rfl) hk

/-- Settles O29: the codes are root paths of leaves, and no such path is a prefix of another's. -/
theorem codesArePrefixFree : Obligations.CodesArePrefixFree := by
  unfold Obligations.CodesArePrefixFree
  exact fun s h hvalid j k hj hk => codePath_prefix (h.code_path hvalid hj) (h.code_path hvalid hk)

/-- Settles O30: the symbols with a code are the present ones, `EOF_SYMBOL` among them. -/
theorem presentSymbolsHaveCodes : Obligations.PresentSymbolsHaveCodes := by
  unfold Obligations.PresentSymbolsHaveCodes
  intro s h hvalid
  refine ⟨fun k => ?_, List.length_pos_iff.2 (h.eof_code hvalid), h.code_length_le⟩
  rw [← mem_presentSymbols_iff, ← h.code_ne_nil_iff hvalid]
  exact List.length_pos_iff

/-! ### The total bit count (rule R171) -/

/-- `TOTAL_BITS` as the sum over all symbols, before it is put into 64 bits. -/
theorem State.Inv.totalBits_eq {s : State} (h : s.Inv) (hvalid : s.codeValid = true) :
    s.totalBits = BitVec.ofNat 64 ((List.range 257).map fun k => (s.countAt k).toNat * (s.code k).length).sum := by
  obtain ⟨htree, -, htotal⟩ := h.codes hvalid
  obtain ⟨hnodes, -, -⟩ := h.tree htree
  rw [htotal, hnodes, totalBitsOf_tree]
  exact congrArg _ (sum_present s (fun k => (s.countAt k).toNat * (s.code k).length) fun k _ hk => by simp [hk])

/-- Codes of 256 bits for 256 counts of 32 bits and the one of `EOF_SYMBOL`: less than `2^48` (rules R28, R29). -/
theorem State.Inv.weightedLengths_lt {s : State} (h : s.Inv) :
    ((List.range 257).map fun k => (s.countAt k).toNat * (s.code k).length).sum < 2 ^ 48 := by
  have hreal : ∀ x ∈ (List.range 256).map fun k => (s.countAt k).toNat * (s.code k).length, x ≤ (2 ^ 32 - 1) * 256 := by
    rw [List.forall_mem_map]
    exact fun k _ => Nat.mul_le_mul (Nat.le_pred_of_lt (s.countAt k).isLt) (h.code_length_le k)
  have hsum := List.sum_le_card_nsmul _ _ hreal
  have heof : (s.countAt 256).toNat * (s.code 256).length ≤ 1 * 256 := Nat.mul_le_mul_left 1 (h.code_length_le 256)
  rw [List.length_map, List.length_range, smul_eq_mul] at hsum
  rw [List.range_succ, List.map_append, List.sum_append, List.map_singleton, List.sum_singleton]
  omega

/-- Settles O31: the sum over the leaves is the sum over all symbols, and below `2^48` it does not wrap. -/
theorem totalBitsIsTheWeightedSum : Obligations.TotalBitsIsTheWeightedSum := by
  unfold Obligations.TotalBitsIsTheWeightedSum
  intro s h hvalid
  have hlt := h.weightedLengths_lt
  rw [h.totalBits_eq hvalid, BitVec.toNat_ofNat, Nat.mod_eq_of_lt (hlt.trans (by norm_num))]
  exact ⟨rfl, hlt⟩

/-! ### `CODE_BUILD` (rule R172) -/

theorem execCodeBuild_noTree {s : State} (h : s.treeValid = false) : execCodeBuild s = .next (s.raiseCmd .noUnit .noTree 0) :=
  if_pos h

/-- Settles O27: the one word of a command without an operand, and the two answers of its one check. -/
theorem codeBuildEffect : Obligations.CodeBuildEffect := by
  unfold Obligations.CodeBuildEffect
  exact fun s => ⟨decode_eq_ok_iff_eq rfl rfl, execCodeBuild_noTree, fun h => ⟨_, execCodeBuild_of_treeValid h, rfl⟩⟩

/-! ### `CODE_READ` (rule R173) -/

/-- Bits of `AUX` are bits of the word, from bit 24 up (rule R101). -/
theorem auxField_extractLsb' (w : Word) {start len : Nat} (h : start + len ≤ 8) :
    (auxField w).extractLsb' start len = w.extractLsb' (24 + start) len := by
  apply BitVec.eq_of_getLsbD_eq
  intro i hi
  have hin : start + i < 8 := by omega
  simp [auxField, hin, Nat.add_assoc]

/-- The words of `CODE_READ`: the two parts of `AUX` are told by the bits of the word (rules R101, R103). -/
theorem decode_eq_ok_codeRead_iff {w : Word} {k n : Nat} :
    decode w = .ok (.codeRead k n) ↔ opField w = 0x0D ∧ (opndField w).toNat = k ∧ rsvField w = 0 ∧
      (w.extractLsb' 24 3).toNat = n ∧ w.extractLsb' 27 5 = 0 := by
  have hlow : (auxField w).extractLsb' 0 3 = w.extractLsb' 24 3 := auxField_extractLsb' w (by decide)
  have hhigh : (auxField w).extractLsb' 3 5 = w.extractLsb' 27 5 := auxField_extractLsb' w (by decide)
  rw [decode_eq_ok_iff_row, decodeRow, decodeCodeRead_ok, Instr.codeRead.injEq, hlow, hhigh, Instr.opcode]
  tauto

theorem execCodeRead_noCodes {s : State} (h : s.codeValid = false) (k w : Nat) :
    execCodeRead k w s = .next (s.raiseCmd .noUnit .noCodes (BitVec.ofNat 10 k)) :=
  if_pos h

theorem execCodeRead_badSymbol {s : State} {k : Nat} (h : s.codeValid = true) (hk : 256 < k) (w : Nat) :
    execCodeRead k w s = .next (s.raiseCmd .noUnit .badSymbol (BitVec.ofNat 10 k)) :=
  (if_neg (by simp [h])).trans (if_pos hk.not_ge)

theorem execCodeRead_reads {s : State} {k : Nat} (h : s.codeValid = true) (hk : k ≤ 256) (w : Nat) :
    execCodeRead k w s = .next ({ s with
      result := BitVec.ofNat 32 (s.code k).length,
      dataLo := codeWord (s.code k) w,
      dataHi := 0 } : State).complete :=
  (if_neg (by simp [h])).trans (if_neg (not_not.2 hk))

/-- A word of a code shows the code's bits from bit 31 down, and 0 past its end. -/
theorem codeWord_bit_or_zero (bits : List Bool) (w : Nat) {j : Nat} (hj : j < 32) :
    (codeWord bits w).getLsbD (31 - j) = if 32 * w + j < bits.length then bits.getD (32 * w + j) false else false := by
  rw [codeWord_bit bits w hj]
  split
  · rfl
  · next hend => exact List.getD_eq_default _ _ (not_lt.1 hend)

/-- Settles O32: the two checks in their order, and the bits of the word read. -/
theorem codeReadShowsTheCode : Obligations.CodeReadShowsTheCode := by
  unfold Obligations.CodeReadShowsTheCode
  exact fun k w s => ⟨fun _ => decode_eq_ok_codeRead_iff, fun h => execCodeRead_noCodes h k w,
    fun h hk => execCodeRead_badSymbol h hk w,
    fun h hk => ⟨_, execCodeRead_reads h hk w, rfl, fun _ hj => codeWord_bit_or_zero (s.code k) w hj⟩⟩

end Sys2Proof.Machine
end

section
/-! SUPPORT. The encoder's commands, step by step and run by themselves, and the length of what they emit (43_encoder.md). -/

namespace Sys2Proof.Machine

/-! ### `ENC_START` (rule R192) -/

/-- Settles O33: the one word of a command without an operand, and the two answers of its one check. -/
theorem encStartBegins : Obligations.EncStartBegins := by
  unfold Obligations.EncStartBegins
  exact fun s => ⟨decode_eq_ok_iff_eq rfl rfl, fun h => if_pos h, fun h => if_neg (by simp [h])⟩

/-! ### The step of a streaming command, by its phase (rule R109) -/

section
variable {s : State}

theorem exec_encSym_validate (h : s.phase = .validate) (k : Nat) : exec (.encSym k) s = .next (encSymValidate k s) := by
  simp [exec, execEncSym, h]

theorem exec_encSym_run (h : s.phase = .run) (k : Nat) : exec (.encSym k) s = .next (encSymRun k s) := by
  simp [exec, execEncSym, h]

theorem exec_encEof_validate (h : s.phase = .validate) : exec .encEof s = .next (encEofValidate s) := by
  simp [exec, execEncEof, h]

theorem exec_encEof_run (h : s.phase = .run) : exec .encEof s = .next (encEofRun s) := by
  simp [exec, execEncEof, h]

theorem exec_encEof_pad (h : s.phase = .pad) : exec .encEof s = .next (encEofPad s) := by
  simp [exec, execEncEof, h]

theorem exec_decSym_validate (h : s.phase = .validate) : exec .decSym s = .next (decSymValidate s) := by
  simp [exec, execDecSym, h]

end

/-! ### Validation (rules R193, R194, R213, R257) -/

theorem State.beginRun_of_pend {s : State} {p : Pend} (h : s.pend = some p) :
    s.beginRun = { s with pend := some { word := p.word, phase := .run, idx := 0 } } := by
  rw [State.beginRun, h, Option.map_some]

/-- An error that fails the encoder is recorded, fails it, and completes the command, and that is all (rules R255, R257). -/
theorem State.raiseCmd_encoder (e : ErrorKind) (info : BitVec 10) (s : State) :
    s.raiseCmd .encoder e info = { s with error := s.error.record e s.pendOp info, encState := .failed, pend := none } := rfl

theorem encSymValidate_badState {s : State} (h : s.encState ≠ .active) (k : Nat) :
    encSymValidate k s = s.raiseCmd .noUnit .badState (BitVec.ofNat 10 k) := if_pos h

theorem encSymValidate_badSymbol {s : State} {k : Nat} (h : s.encState = .active) (hk : 256 ≤ k) :
    encSymValidate k s = s.raiseCmd .encoder .badSymbol (BitVec.ofNat 10 k) :=
  (if_neg (not_not.2 h)).trans (if_pos hk.not_gt)

theorem encSymValidate_unknownSymbol {s : State} {k : Nat} (h : s.encState = .active) (hk : k < 256) (hcode : s.code k = []) :
    encSymValidate k s = s.raiseCmd .encoder .unknownSymbol (BitVec.ofNat 10 k) :=
  (if_neg (not_not.2 h)).trans ((if_neg (not_not.2 hk)).trans (if_pos hcode))

theorem encSymValidate_passes {s : State} {k : Nat} (h : s.encState = .active) (hk : k < 256) (hcode : s.code k ≠ []) :
    encSymValidate k s = s.beginRun :=
  (if_neg (not_not.2 h)).trans ((if_neg (not_not.2 hk)).trans (if_neg hcode))

/-- Settles O34: the checks of each validation step in their order, and what an error and a pass change. -/
theorem streamingValidation : Obligations.StreamingValidation := by
  unfold Obligations.StreamingValidation
  intro s p hp hph
  have hphase := (State.phase_of_pend hp).trans hph
  simp only [exec_encSym_validate hphase, exec_encEof_validate hphase, exec_decSym_validate hphase, ← State.raiseCmd_noUnit,
    ← State.raiseCmd_encoder, ← State.beginRun_of_pend hp, Host.Outcome.next.injEq]
  exact ⟨fun k h => encSymValidate_badState h k, fun _ => encSymValidate_badSymbol, fun _ => encSymValidate_unknownSymbol,
    fun _ => encSymValidate_passes, fun h => if_pos h, fun h => if_neg (not_not.2 h), fun h => if_pos h,
    fun h => if_neg (not_not.2 h)⟩

/-! ### Run steps (rules R190, R193, R194) -/

section
variable {b : Bool} {k : Nat} {s t : State} {p : Pend}

theorem Emitted.pend (h : Emitted b s t) : t.pend = s.pend := by rw [h.frame]
theorem Emitted.encState (h : Emitted b s t) : t.encState = s.encState := by rw [h.frame]

/-- The unit's state and the pending command do not matter to what a code-bit step leaves alone. -/
theorem Emitted.frame_with (h : Emitted b s t) (e : UnitState) (q : Option Pend) :
    { t with encState := e, pend := q } =
      { s with outFifo := t.outFifo, encAcc := t.encAcc, encN := t.encN, encBits := s.encBits + 1, encState := e, pend := q } :=
  congrArg (fun u : State => { u with encState := e, pend := q }) h.frame

/-- A run step of `ENC_SYM` that emits its bit completes the command after the last one, and goes on to the next elsewhere. -/
theorem encSymRun_emits (hp : s.pend = some p) (ht : emitBit ((s.code k).getD p.idx false) s = some t) (htp : t.pend = some p) :
    encSymRun k s = { t with
      pend := if p.idx + 1 = (s.code k).length then none else some { p with idx := p.idx + 1 } } := by
  simp only [encSymRun, State.idx_of_pend hp, ht]
  split
  · rfl
  · rw [State.nextBit, htp, Option.map_some]

/-- A run step of `ENC_EOF` that emits its bit goes on to the next one; after the last, it ends the stream on a byte boundary and goes to
phase `PAD` elsewhere. -/
theorem encEofRun_emits (hp : s.pend = some p) (ht : emitBit ((s.code 256).getD p.idx false) s = some t) (htp : t.pend = some p) :
    encEofRun s = { t with
      encState := if p.idx + 1 = (s.code 256).length ∧ t.encN = 0 then .done else t.encState,
      pend := if p.idx + 1 ≠ (s.code 256).length then some { p with idx := p.idx + 1 }
        else if t.encN = 0 then none else some { word := p.word, phase := .pad, idx := p.idx + 1 } } := by
  simp only [encEofRun, State.idx_of_pend hp, show Config.eofSymbol = 256 from rfl, ht]
  by_cases hlast : p.idx + 1 = (s.code 256).length
  · by_cases h0 : t.encN = 0
    · simp [hlast, h0, State.encDone, State.complete, State.nextBit]
    · simp [hlast, show t.encN ≠ 0#4 from h0, State.beginPad, State.nextBit, htp]
  · simp [hlast, State.nextBit, htp]

end

/-- Settles O35: a code-bit step is held or emits (`emitBit_spec`), and what is pending after it follows from the index. -/
theorem runStepEmitsOneBit : Obligations.RunStepEmitsOneBit := by
  unfold Obligations.RunStepEmitsOneBit
  intro s p hp hph hn ha
  have hphase := (State.phase_of_pend hp).trans hph
  refine ⟨fun hheld => ⟨fun k => ?_, ?_⟩, fun hfree => ⟨fun k => ?_, ?_⟩⟩
  · rw [exec_encSym_run hphase, encSymRun_held k hheld]
  · rw [exec_encEof_run hphase, encEofRun_held hheld]
  · obtain ⟨hheld, -⟩ | ⟨-, t, ht, he⟩ := emitBit_spec ((s.code k).getD p.idx false) hn ha
    · exact absurd hheld hfree
    · rw [exec_encSym_run hphase, encSymRun_emits hp ht (he.pend.trans hp)]
      exact ⟨_, rfl, he.encState ▸ he.frame_with t.encState _, he.stream, he.encN, he.encAcc⟩
  · obtain ⟨hheld, -⟩ | ⟨-, t, ht, he⟩ := emitBit_spec ((s.code 256).getD p.idx false) hn ha
    · exact absurd hheld hfree
    · rw [exec_encEof_run hphase, encEofRun_emits hp ht (he.pend.trans hp)]
      refine ⟨_, rfl, he.frame_with _ _, he.stream, he.encN, he.encAcc, fun hmore => ?_, fun hlast h0 => ?_, fun hlast h0 => ?_⟩
      · exact ⟨(if_neg fun h => hmore h.1).trans he.encState, if_pos hmore⟩
      · exact ⟨if_pos ⟨hlast, h0⟩, (if_neg (not_not.2 hlast)).trans (if_pos h0)⟩
      · exact ⟨(if_neg fun h => h0 h.2).trans he.encState, (if_neg (not_not.2 hlast)).trans (if_neg h0)⟩

/-! ### Padding (rules R191, R194) -/

/-- Settles O36: the padding step is held or fills the byte up (`padByte_spec`), and then the stream has ended. -/
theorem paddingStep : Obligations.PaddingStep := by
  unfold Obligations.PaddingStep
  intro s p hp hph _ hn _
  rw [exec_encEof_pad ((State.phase_of_pend hp).trans hph)]
  refine ⟨fun hfull => congrArg _ (encEofPad_held hfull), fun hroom => ?_⟩
  obtain ⟨hfull, -⟩ | ⟨-, t, ht, hframe, hstream, hlevel⟩ := padByte_spec hn
  · exact absurd hfull hroom
  · have hend : encEofPad s = t.encDone := by rw [encEofPad, ht]
    exact ⟨t.encDone, congrArg _ hend, congrArg State.encDone hframe, hstream, hlevel⟩

/-! ### Whole commands and whole streams (rules R193 to R195) -/

theorem State.pend_of_idle {s : State} (h : s.busy = false) : s.pend = none := by simpa [State.busy] using h

/-- Settles O37, from the run of the command's steps (`runCommand_encSym`). -/
theorem encSymAppendsTheCode : Obligations.EncSymAppendsTheCode := by
  unfold Obligations.EncSymAppendsTheCode
  rintro s t k hinv hidle hact hk hcode hroom rfl
  obtain ⟨hn, ha⟩ := hinv.encPending
  obtain ⟨hpend, hemit⟩ := runCommand_encSym hact ⟨hn, ha⟩ hk hcode (by rw [length_outStream]; exact hroom)
  have hframe := hemit.frame
  rw [hpend, ← State.pend_of_idle hidle] at hframe
  exact ⟨by rw [State.busy, hpend]; rfl, hemit.stream, hemit.bits, hframe⟩

/-- Settles O38: the stream ends as `encodeStream_ends` says, with the content of `encodeStream_content`. -/
theorem encodedStreamContent : Obligations.EncodedStreamContent := by
  unfold Obligations.EncodedStreamContent
  rintro s t syms hinv _ hvalid hfifo hcodes hroom rfl
  have heof := hinv.eof_code hvalid
  have hframe := (encodeStream_ends hvalid hfifo hcodes heof hroom).frame
  rw [runCommand_encStart hvalid] at hframe
  exact ⟨by rw [hframe]; rfl, by rw [hframe], by rw [hframe], encodeStream_content hvalid hfifo hcodes heof hroom⟩

/-! ### The number of code bits (rules R171, R196) -/

/-- Settles O39: the lengths of the codes of the input add up symbol by symbol (`sum_count`), and `EOF_SYMBOL` counts 1. -/
theorem bitCountAgreement : Obligations.BitCountAgreement := by
  unfold Obligations.BitCountAgreement
  intro s input hinv hvalid hreal hcount
  have hsyms : (input.flatMap s.code).length =
      ((List.range 256).map fun k => (s.countAt k).toNat * (s.code k).length).sum := by
    rw [List.length_flatMap, ← sum_count 256 (fun k => (s.code k).length) input hreal]
    exact congrArg List.sum (List.map_congr_left fun k hk => by rw [hcount k (List.mem_range.1 hk)])
  have heof : (s.countAt 256).toNat = 1 := rfl
  rw [(totalBitsIsTheWeightedSum s hinv hvalid).1, List.range_succ, List.map_append, List.sum_append, List.map_singleton,
    List.sum_singleton, heof, Nat.one_mul, List.length_append, hsyms]

end Sys2Proof.Machine
end

section
/-! SUPPORT. The decoder's commands: the start at the root, one walk step told by the head of the input stream, and `DEC_SYM` run by itself
(44_decoder.md). -/

namespace Sys2Proof.Machine

/-! ### `DEC_START` (rule R212) -/

/-- Settles O40: the one word of a command without an operand, and the two answers of its one check. -/
theorem decStartBegins : Obligations.DecStartBegins := by
  unfold Obligations.DecStartBegins
  exact fun s => ⟨decode_eq_ok_iff_eq rfl rfl, fun h => if_pos h, fun h => if_neg (by simp [h])⟩

/-! ### What taking a bit leaves alone (rules R33, R210) -/

section
variable {b : Bool} {s t : State}

theorem BitTaken.node (h : BitTaken b s t) (i : NodeIdx) : t.node i = s.node i := by rw [h.frame]; rfl
theorem BitTaken.root (h : BitTaken b s t) : t.root = s.root := by rw [h.frame]
theorem BitTaken.cursor (h : BitTaken b s t) : t.cursor = s.cursor := by rw [h.frame]
theorem BitTaken.result (h : BitTaken b s t) : t.result = s.result := by rw [h.frame]
theorem BitTaken.decState (h : BitTaken b s t) : t.decState = s.decState := by rw [h.frame]
theorem BitTaken.decBits (h : BitTaken b s t) : t.decBits = s.decBits + 1 := by rw [h.frame]
theorem BitTaken.error (h : BitTaken b s t) : t.error = s.error := by rw [h.frame]
theorem BitTaken.pend (h : BitTaken b s t) : t.pend = s.pend := by rw [h.frame]
theorem BitTaken.pendOp (h : BitTaken b s t) : t.pendOp = s.pendOp := by rw [h.frame]; rfl

end

/-! ### A move to a child reads nothing (rule R211) -/

section
variable (c : NodeIdx) (s : State)

theorem moveTo_inStream : (moveTo c s).inStream = s.inStream := by rw [moveTo_frame]; rfl
theorem moveTo_decBits : (moveTo c s).decBits = s.decBits := by rw [moveTo_frame]
theorem moveTo_decAvail : (moveTo c s).decAvail = s.decAvail := by rw [moveTo_frame]

end

/-! ### The walk step, told by the head of the input stream (rules R210, R211) -/

section
variable {s : State}

theorem exec_decSym_run (h : s.phase = .run) : exec .decSym s = .next (walkStep s) := by
  simp [exec, execDecSym, h]

/-- An error that fails the decoder is recorded, fails it, and completes the command, and that is all (rules R255, R257). -/
theorem State.raiseCmd_decoder (e : ErrorKind) (info : BitVec 10) (s : State) :
    s.raiseCmd .decoder e info = { s with error := s.error.record e s.pendOp info, decState := .failed, pend := none } := rfl

theorem walkStep_truncated (h8 : s.decAvail.toNat ≤ 8) (hin : s.inStream = []) (hend : s.inEnd = true) :
    walkStep s = s.raiseCmd .decoder .truncatedStream s.cursor := by
  obtain ⟨⟨-, -, hopen⟩, -⟩ | ⟨-, -, hread⟩ | ⟨-, b, t, -, hbit⟩ := readBit_spec h8
  · simp [hend] at hopen
  · rw [walkStep, hread]
  · exact absurd (hbit.stream.symm.trans hin) (List.cons_ne_nil _ _)

theorem readHeld_of_inStream_nil (h8 : s.decAvail.toNat ≤ 8) (hin : s.inStream = []) (hend : s.inEnd = false) : s.ReadHeld := by
  obtain ⟨hheld, -⟩ | ⟨-, hclosed, -⟩ | ⟨-, b, t, -, hbit⟩ := readBit_spec h8
  · exact hheld
  · simp [hend] at hclosed
  · exact absurd (hbit.stream.symm.trans hin) (List.cons_ne_nil _ _)

/-- With a bit at the head of the input, the walk step takes it and moves to the child it selects. -/
theorem walkStep_takes {b : Bool} {rest : List Bool} (h8 : s.decAvail.toNat ≤ 8) (hin : s.inStream = b :: rest) :
    ∃ t, walkStep s = moveTo (childOf (s.node s.cursor) b) t ∧ BitTaken b s t ∧ t.inStream = rest := by
  obtain ⟨-, hempty, -⟩ | ⟨hempty, -, -⟩ | ⟨-, b', t, hread, hbit⟩ := readBit_spec h8
  · simp [hempty] at hin
  · simp [hempty] at hin
  · obtain ⟨rfl, hrest⟩ := List.cons.inj (hbit.stream.symm.trans hin)
    exact ⟨t, by rw [walkStep, hread], hbit, hrest⟩

end

/-- Settles O41: with no bit the step is truncated or held; with one it moves (`walkStep_takes`) as `moveTo_spec` says of the child. -/
theorem walkStepFollowsTheBit : Obligations.WalkStepFollowsTheBit := by
  unfold Obligations.WalkStepFollowsTheBit
  intro s p hp hph h8
  rw [exec_decSym_run ((State.phase_of_pend hp).trans hph)]
  refine ⟨fun hin hend => ?_, fun hin hend => ?_, fun b rest child hin hchild => ?_⟩
  · rw [walkStep_truncated h8 hin hend, State.raiseCmd_decoder]
  · rw [walkStep_held (readHeld_of_inStream_nil h8 hin hend)]
  · obtain ⟨t, hmove, hbit, hrest⟩ := walkStep_takes h8 hin
    rw [show childOf (s.node s.cursor) b = child from hchild.symm] at hmove
    obtain ⟨hnil, heof, hleaf, hinner⟩ := moveTo_spec t child
    rw [hbit.node] at heof hleaf hinner
    refine ⟨_, rfl, ?_, ?_, ?_, walkStep_frame s, fun h => ?_, fun h h256 => ?_, fun h hne hl => ?_, fun h hl => ?_⟩
    · rw [hmove, moveTo_inStream, hrest]
    · rw [hmove, moveTo_decBits, hbit.decBits]
    · rw [hmove, moveTo_decAvail]
      exact hbit.avail
    · rw [hmove, hnil h, State.raiseCmd_decoder, hbit.error, hbit.pendOp, hbit.cursor]
      exact ⟨rfl, rfl, rfl, hbit.result, rfl⟩
    · rw [hmove, heof h h256]
      exact ⟨hbit.error, rfl, rfl, rfl, rfl⟩
    · rw [hmove, hleaf h hne hl]
      exact ⟨hbit.error, hbit.decState, hbit.root, rfl, rfl⟩
    · rw [hmove, hinner h hl]
      exact ⟨hbit.error, hbit.decState, rfl, hbit.result, hbit.pend⟩

/-! ### `DEC_SYM` run by itself (rules R213, R298) -/

/-- Settles O42: an `ACTIVE` decoder of the invariant has a stored tree, in which `AtRoot.runCommand_decSym` reads the path. -/
theorem decSymReadsOneCode : Obligations.DecSymReadsOneCode := by
  unfold Obligations.DecSymReadsOneCode
  rintro s t k path rest hinv _ hact hcur hpath hin rfl
  obtain ⟨hvalid, -⟩ := hinv.dec hact
  have hroot : AtRoot s.count s := ⟨(hinv.tree hvalid).holds, hact, hcur, hinv.decPending.1⟩
  have hread := hroot.runCommand_decSym hpath hin
  exact ⟨by rw [State.busy, hread.idle]; rfl, hread.reads.inStream_eq hin, hread.result, hread.reads.error, hread.reads.bits,
    fun hk => ⟨(hread.next hk).active, (hread.next hk).cursor.trans hread.reads.root⟩, hread.eof⟩

end Sys2Proof.Machine
end

section
/-! The control family (45_control.md): `NOP` and the words of `OP = 0x00`. -/

namespace Sys2Proof.Machine

/-- No command but `NOP` has the opcode 0 (rule R104). -/
theorem eq_nop_of_decode {w : Word} {i : Instr} (hop : opField w = 0) (hd : decode w = .ok i) : i = .nop := by
  rw [decode_of_opField (i := .nop) hop] at hd
  obtain ⟨-, -, -, hi⟩ := decodePlain_ok.1 hd
  exact hi.symm

/-- Settles O11: the zero word is the one word of `NOP`, so any other word of `OP = 0x00` that decoded would be the zero word too. -/
theorem nopOnlyCompletes : Obligations.NopOnlyCompletes := by
  unfold Obligations.NopOnlyCompletes
  have hword : ∀ w : Word, decode w = .ok .nop ↔ w = 0 := decode_eq_ok_iff_eq rfl rfl
  refine ⟨fun s => rfl, hword, fun w hop hne => ?_⟩
  cases hd : decode w with
  | error e => exact ⟨e, rfl⟩
  | ok i =>
    obtain rfl := eq_nop_of_decode hop hd
    exact absurd ((hword w).1 hd) hne

end Sys2Proof.Machine
end

section
/-! Errors (60_exceptions.md): raising one, that the engine never stops, and what an error of a command's first step leaves alone. -/

namespace Sys2Proof.Machine

/-! ### The first step of a command: its checks, then its work (rules R255, R257, R260) -/

/-- What the first step of command `i` can do to `ERROR`: leave it, or raise an error that fails no unit, or, for `ENC_SYM`, one that
fails an `ACTIVE` encoder. -/
inductive FirstStep (i : Instr) (s : State) : State → Prop
  | noError {t : State} (h : t.error = s.error) : FirstStep i s t
  | raises (e : ErrorKind) (info : BitVec 10) : FirstStep i s (s.raiseCmd .noUnit e info)
  | failsEncoder (e : ErrorKind) (info : BitVec 10) (hact : s.encState = .active) (hi : ∃ k, i = .encSym k) :
      FirstStep i s (s.raiseCmd .encoder e info)

namespace FirstStep

variable {i : Instr} {s t u : State}

/-- A step of one answer, in which `ERROR` is not touched. -/
theorem answer (ht : (.next u : Outcome) = .next t) (h : u.error = s.error) : FirstStep i s t := by
  cases ht
  exact .noError h

/-- A check that raises an error of no unit, before what the command goes on with. -/
theorem check {c : Prop} [Decidable c] {e : ErrorKind} {info : BitVec 10} {rest : Outcome}
    (ht : (if c then .next (s.raiseCmd .noUnit e info) else rest) = .next t) (h : rest = .next t → FirstStep i s t) :
    FirstStep i s t := by
  split at ht
  · cases ht
    exact .raises e info
  · exact h ht

theorem of_freqWrite {k : Nat} (ht : exec (.freqWrite k) s = .next t) : FirstStep i s t := by
  refine check ht fun ht => check ht fun ht => check ht fun ht => ?_
  split at ht
  · exact answer ht rfl
  · exact answer ht rfl

theorem encSymValidate (k : Nat) : FirstStep (.encSym k) s (encSymValidate k s) := by
  unfold Machine.encSymValidate
  split
  · exact .raises _ _
  · next hact =>
    have hact := not_not.1 hact
    split
    · exact .failsEncoder _ _ hact ⟨k, rfl⟩
    · split
      · exact .failsEncoder _ _ hact ⟨k, rfl⟩
      · exact .noError rfl

theorem encEofValidate : FirstStep i s (encEofValidate s) := by
  unfold Machine.encEofValidate
  split
  · exact .raises _ _
  · exact .noError rfl

theorem decSymValidate : FirstStep i s (decSymValidate s) := by
  unfold Machine.decSymValidate
  split
  · exact .raises _ _
  · exact .noError rfl

theorem of_exec (hphase : s.phase = .validate) (ht : exec i s = .next t) : FirstStep i s t := by
  cases i with
  | nop => exact answer ht rfl
  | freqClear => exact answer ht rfl
  | freqInc k => exact check ht fun ht => check ht (answer · rfl)
  | freqWrite k => exact of_freqWrite ht
  | freqRead k => exact check ht (answer · rfl)
  | treeBuild => exact answer ht rfl
  | nodeRead k => exact check ht fun ht => check ht (answer · rfl)
  | codeBuild => exact check ht (answer · rfl)
  | codeRead k w => exact check ht fun ht => check ht (answer · rfl)
  | encStart => exact check ht (answer · rfl)
  | encSym k =>
    cases (exec_encSym_validate hphase k).symm.trans ht
    exact encSymValidate k
  | encEof =>
    cases (exec_encEof_validate hphase).symm.trans ht
    exact encEofValidate
  | decStart => exact check ht (answer · rfl)
  | decSym =>
    cases (exec_decSym_validate hphase).symm.trans ht
    exact decSymValidate

end FirstStep

/-- Settles O45: the step raised its error by one `raiseCmd` on the state it found, which failed no unit or, for `ENC_SYM`, the encoder. -/
theorem validationErrorsArePrecise : Obligations.ValidationErrorsArePrecise := by
  unfold Obligations.ValidationErrorsArePrecise
  intro i s t hphase ht herror
  cases FirstStep.of_exec hphase ht with
  | noError h => exact absurd h herror
  | raises e info =>
    rw [State.raiseCmd_noUnit]
    exact ⟨rfl, fun h => absurd rfl h⟩
  | failsEncoder e info hact hi =>
    rw [State.raiseCmd_encoder]
    exact ⟨rfl, fun _ => ⟨rfl, hact, hi⟩⟩

/-! ### An engine step always answers (rules R250, R268) -/

/-- Settles O8: `engineStep_next`, and the arm of an idle engine. -/
theorem engineNeverStops : Obligations.EngineNeverStops := by
  unfold Obligations.EngineNeverStops
  exact fun s => ⟨engineStep_next s, fun hidle => by simp [engineStep, hidle]⟩

/-! ### Raising an error (rules R251, R255, R257, R259) -/

/-- A command error is recorded, fails its unit and completes the command, and that is all, whichever unit it is. -/
theorem State.raiseCmd_eq (u : FailedUnit) (e : ErrorKind) (info : BitVec 10) (s : State) :
    s.raiseCmd u e info = { s with
      error := s.error.record e s.pendOp info, pend := none,
      encState := if u = .encoder then .failed else s.encState, decState := if u = .decoder then .failed else s.decState } := by
  cases u with
  | noUnit => exact State.raiseCmd_noUnit e info s
  | encoder => exact State.raiseCmd_encoder e info s
  | decoder => exact State.raiseCmd_decoder e info s

/-- Settles O44: the codes one by one, `record` by whether an error is held, `raiseCmd` by its unit; and the opcode of the pending word
is that of the command it decodes to. -/
theorem raisingAnError : Obligations.RaisingAnError := by
  unfold Obligations.RaisingAnError
  refine ⟨fun e => ?_, fun r e src info => ⟨fun h => ErrorReg.record_first h e src info, fun h => ErrorReg.record_later h e src info⟩,
    fun s u e info => ⟨State.raiseCmd_eq u e info s, rfl⟩, fun s p i hp hd => ?_⟩
  · cases e <;> rfl
  · exact (State.pendOp_of_pend hp).trans (opField_of_decode hd)

end Sys2Proof.Machine
end
